-- ==== Sys2Proof/Word.lean ====
section
/-! DEFINITION. The CORE's word types (20_memory.md R40, R42): everything the host or a command moves is one 8-bit cell,
and a host address has 11 bits. Values inside a command's pseudocode are natural numbers (00_scope.md R10). -/

namespace Sys2Proof

/-- One 8-bit cell: a register as the host sees it, a buffer cell, a character, a command word (R40, R60, R87). -/
abbrev Byte := BitVec 8

/-- A host cell address, 0x000 to 0x7FF (R40). -/
abbrev HostAddr := BitVec 11

end Sys2Proof
end

