-- ==== Sys2Proof/Syntax.lean ====
section
/-! DEFINITION. The command set of 30_encoding.md: the operations (R63), the modes (R62), the 23 defined commands (R65),
and the raw fields of a command word (R61). No command has an operand (R64), so the constructors of `Instr` have no
arguments. -/

namespace Sys2Proof

/-- The operations, in the order of the pipeline (R63). -/
inductive Op where
  | nop | clr | code | pack | conv | ilv | mrg
deriving DecidableEq, Repr

/-- The five protocol modes, in the order of R62. -/
inductive Mode where
  | jt65 | jt9 | jt4 | wspr | fsq
deriving DecidableEq, Repr

/-- The 23 commands, one constructor for each row of the opcode map (R65). -/
inductive Instr where
  | nop
  | clr
  | codeJt65
  | codeJt9
  | codeJt4
  | codeWspr
  | codeFsq
  | packJt65
  | packJt9
  | packJt4
  | packWspr
  | convJt9
  | convJt4
  | convWspr
  | ilvJt65
  | ilvJt9
  | ilvJt4
  | ilvWspr
  | mrgJt65
  | mrgJt9
  | mrgJt4
  | mrgWspr
  | mrgFsq
deriving DecidableEq, Repr

/-- The operation of a command: column "component" of R65, numbered by R63. -/
def Instr.op : Instr → Op
  | .nop => .nop
  | .clr => .clr
  | .codeJt65 | .codeJt9 | .codeJt4 | .codeWspr | .codeFsq => .code
  | .packJt65 | .packJt9 | .packJt4 | .packWspr => .pack
  | .convJt9 | .convJt4 | .convWspr => .conv
  | .ilvJt65 | .ilvJt9 | .ilvJt4 | .ilvWspr => .ilv
  | .mrgJt65 | .mrgJt9 | .mrgJt4 | .mrgWspr | .mrgFsq => .mrg

/-- The mode of a command; NOP and CLR take none (R61, R69). -/
def Instr.mode : Instr → Option Mode
  | .nop | .clr => none
  | .codeJt65 | .packJt65 | .ilvJt65 | .mrgJt65 => some .jt65
  | .codeJt9 | .packJt9 | .convJt9 | .ilvJt9 | .mrgJt9 => some .jt9
  | .codeJt4 | .packJt4 | .convJt4 | .ilvJt4 | .mrgJt4 => some .jt4
  | .codeWspr | .packWspr | .convWspr | .ilvWspr | .mrgWspr => some .wspr
  | .codeFsq | .mrgFsq => some .fsq

/-- The three fields of a command word in format C (R61). -/
structure CommandWord where
  /-- bits 7:4, the operation -/
  op : BitVec 4
  /-- bit 3, must be 0 -/
  z : BitVec 1
  /-- bits 2:0, the mode -/
  mode : BitVec 3
deriving DecidableEq, Repr

end Sys2Proof
end

