-- ==== Sys2Proof/WellFormed.lean ====
section
/-! DEFINITION. Which command words and which commands are well formed (30_encoding.md R61 to R66). A command word that
fails one of these checks is one of the 233 reserved bytes of R66. -/

namespace Sys2Proof

/-- Whether an operation has a stage for a mode (R65): there is no CONV for JT65, and FSQ has only CODE and MRG. -/
def stageExists : Op → Mode → Bool
  | .nop, _ => false
  | .clr, _ => false
  | .code, _ => true
  | .pack, m => m != .fsq
  | .conv, m => m != .fsq && m != .jt65
  | .ilv, m => m != .fsq
  | .mrg, _ => true

/-- A command names a stage that exists, and NOP and CLR name no mode (R61, R65). -/
def Instr.wellFormed (i : Instr) : Bool :=
  match i.mode with
  | none => i.op == .nop || i.op == .clr
  | some m => stageExists i.op m

/-- Bit 3 is 0 (R61). -/
def CommandWord.zeroBit (c : CommandWord) : Bool := c.z == 0#1

/-- OP is one of 0 to 6 (R63). -/
def CommandWord.opDefined (c : CommandWord) : Bool := c.op.toNat ≤ 6

/-- MODE is one of 0 to 4 (R62). -/
def CommandWord.modeDefined (c : CommandWord) : Bool := c.mode.toNat ≤ 4

/-- MODE is 0 for NOP and CLR (R61). -/
def CommandWord.controlMode (c : CommandWord) : Bool := c.op.toNat ≥ 2 || c.mode == 0#3

/-- The stage exists for the mode (R65): not PACK, CONV or ILV with MODE 4 (FSQ), not CONV with MODE 0 (JT65). -/
def CommandWord.stageDefined (c : CommandWord) : Bool :=
  !((c.op == 3#4 || c.op == 4#4 || c.op == 5#4) && c.mode == 4#3) && !(c.op == 4#4 && c.mode == 0#3)

/-- A command word is one of the 23 of R65. -/
def CommandWord.wellFormed (c : CommandWord) : Bool :=
  c.zeroBit && c.opDefined && c.modeDefined && c.controlMode && c.stageDefined

end Sys2Proof
end

