-- ==== Sys2Proof/Decode.lean ====
section
/-! DEFINITION. Decoding and encoding of command words (30_encoding.md R60 to R66). A command is one byte, decoded from
that byte alone (R60, R68). The decoder is total: a byte outside the map of R65 is refused under the name of the field
that makes it reserved. -/

namespace Sys2Proof

/-- Why a byte is no command (R66). -/
inductive DecodeError where
  /-- there is no byte to decode -/
  | endOfInput
  /-- bit 3 is 1 (R61) -/
  | mustBeZero
  /-- OP is one of 7 to 15 (R63) -/
  | reservedOp (op : BitVec 4)
  /-- MODE is one of 5 to 7 (R62) -/
  | reservedMode (mode : BitVec 3)
  /-- NOP or CLR with a MODE other than 0 (R61) -/
  | modeNotZero (mode : BitVec 3)
  /-- the mode has no such stage: PACK.FSQ, CONV.JT65, CONV.FSQ, ILV.FSQ (R65, R66) -/
  | noSuchStage (op : Op) (mode : Mode)
deriving DecidableEq, Repr

/-- The fields of a byte in format C (R61). -/
def splitByte (b : Byte) : CommandWord :=
  { op := b.extractLsb' 4 4, z := b.extractLsb' 3 1, mode := b.extractLsb' 0 3 }

/-- The byte of three fields in format C (R61). -/
def joinByte (c : CommandWord) : Byte := c.op ++ c.z ++ c.mode

/-- The operation an OP value names; 7 to 15 are reserved (R63). -/
def opOfBits (op : BitVec 4) : Option Op :=
  match op.toNat with
  | 0 => some .nop
  | 1 => some .clr
  | 2 => some .code
  | 3 => some .pack
  | 4 => some .conv
  | 5 => some .ilv
  | 6 => some .mrg
  | _ => none

/-- The mode a MODE value names; 5 to 7 are reserved (R62). -/
def modeOfBits (mode : BitVec 3) : Option Mode :=
  match mode.toNat with
  | 0 => some .jt65
  | 1 => some .jt9
  | 2 => some .jt4
  | 3 => some .wspr
  | 4 => some .fsq
  | _ => none

/-- The command that is an operation applied to a mode, where it exists (R65). -/
def stageOf : Op → Mode → Option Instr
  | .code, .jt65 => some .codeJt65
  | .code, .jt9 => some .codeJt9
  | .code, .jt4 => some .codeJt4
  | .code, .wspr => some .codeWspr
  | .code, .fsq => some .codeFsq
  | .pack, .jt65 => some .packJt65
  | .pack, .jt9 => some .packJt9
  | .pack, .jt4 => some .packJt4
  | .pack, .wspr => some .packWspr
  | .pack, .fsq => none
  | .conv, .jt65 => none
  | .conv, .jt9 => some .convJt9
  | .conv, .jt4 => some .convJt4
  | .conv, .wspr => some .convWspr
  | .conv, .fsq => none
  | .ilv, .jt65 => some .ilvJt65
  | .ilv, .jt9 => some .ilvJt9
  | .ilv, .jt4 => some .ilvJt4
  | .ilv, .wspr => some .ilvWspr
  | .ilv, .fsq => none
  | .mrg, .jt65 => some .mrgJt65
  | .mrg, .jt9 => some .mrgJt9
  | .mrg, .jt4 => some .mrgJt4
  | .mrg, .wspr => some .mrgWspr
  | .mrg, .fsq => some .mrgFsq
  | .nop, _ => none
  | .clr, _ => none

/-- Decode the MODE field of a stage (R62, R65). -/
def decodeStage (op : Op) (mode : BitVec 3) : Except DecodeError Instr :=
  match modeOfBits mode with
  | none => .error (.reservedMode mode)
  | some m =>
    match stageOf op m with
    | none => .error (.noSuchStage op m)
    | some i => .ok i

/-- NOP and CLR have MODE 0 (R61). -/
def decodeControl (i : Instr) (mode : BitVec 3) : Except DecodeError Instr :=
  if mode = 0#3 then .ok i else .error (.modeNotZero mode)

/-- Decode the fields of a command word (R61 to R65). -/
def decodeWord (c : CommandWord) : Except DecodeError Instr :=
  if c.z = 1#1 then .error .mustBeZero
  else
    match opOfBits c.op with
    | none => .error (.reservedOp c.op)
    | some .nop => decodeControl .nop c.mode
    | some .clr => decodeControl .clr c.mode
    | some .code => decodeStage .code c.mode
    | some .pack => decodeStage .pack c.mode
    | some .conv => decodeStage .conv c.mode
    | some .ilv => decodeStage .ilv c.mode
    | some .mrg => decodeStage .mrg c.mode

/-- Decode the command at the head of a list of bytes; the rest of the list is what follows it (R60, R68). -/
def decode : List Byte → Except DecodeError (Instr × List Byte)
  | [] => .error .endOfInput
  | b :: rest =>
    match decodeWord (splitByte b) with
    | .error e => .error e
    | .ok i => .ok (i, rest)

/-- The OP value of an operation (R63). -/
def opBits : Op → BitVec 4
  | .nop => 0#4
  | .clr => 1#4
  | .code => 2#4
  | .pack => 3#4
  | .conv => 4#4
  | .ilv => 5#4
  | .mrg => 6#4

/-- The MODE value of a mode (R62). -/
def modeBits : Mode → BitVec 3
  | .jt65 => 0#3
  | .jt9 => 1#3
  | .jt4 => 2#3
  | .wspr => 3#3
  | .fsq => 4#3

/-- The command word of a command: Z is 0, and MODE is 0 where the command names no mode (R61). -/
def encodeWord (i : Instr) : CommandWord :=
  { op := opBits i.op
    z := 0#1
    mode := match i.mode with
      | none => 0#3
      | some m => modeBits m }

/-- The byte of a command (R60, R61). -/
def encodeByte (i : Instr) : Byte := joinByte (encodeWord i)

/-- The words of a command: one byte (R60). -/
def encode (i : Instr) : List Byte := [encodeByte i]

/-- The first `n` bytes of a table word, bit 0 the least significant bit of the first. -/
def bytesOfTableWord : Nat → Nat → List Byte
  | 0, _ => []
  | n + 1, w => BitVec.ofNat 8 w :: bytesOfTableWord n (w / 256)

/-- The instruction the decoder reads from a table row's bits: the whole of them is one command. -/
def decodeTableWord (nbits w : Nat) : Option Instr :=
  match decode (bytesOfTableWord (nbits / 8) w) with
  | .ok (i, []) => some i
  | .ok (_, _ :: _) => none
  | .error _ => none

end Sys2Proof
end

