-- ==== Sys2Proof/Machine/Errors.lean ====
section
/-! DEFINITION. The four errors (60_exceptions.md R180), an error with its index (00_scope.md R12), and the ascending scan
that every command's pseudocode uses to find the lowest index that raises (R186). -/

namespace Sys2Proof.Machine

/-- The error taxonomy of R180. -/
inductive ErrKind where
  | unsupportedCharacter
  | messageTooLong
  | invalidField
  | configurationError
deriving DecidableEq, Repr

/-- The ERRCODE number of an error (R180, 10_state.md R25). -/
def ErrKind.code : ErrKind → BitVec 3
  | .unsupportedCharacter => 1#3
  | .messageTooLong => 2#3
  | .invalidField => 3#3
  | .configurationError => 4#3

/-- `raise E(idx)` (R12, R184). -/
structure Raise where
  kind : ErrKind
  idx : Nat
deriving DecidableEq, Repr

/-- `for i = n .. ascending`: apply `f` to each element with its index; the first element that raises decides the
error, and otherwise the results stand in order (R13, R186). -/
def scan {α β : Type} (f : Nat → α → Except Raise β) : Nat → List α → Except Raise (List β)
  | _, [] => .ok []
  | i, x :: xs =>
    match f i x with
    | .error r => .error r
    | .ok y =>
      match scan f (i + 1) xs with
      | .error r => .error r
      | .ok ys => .ok (y :: ys)

/-- The width check of 10_state.md R30: a cell of `2^w` or more raises ConfigurationError with its index. -/
def cellBelow (w : Nat) (i v : Nat) : Except Raise Nat :=
  if v ≥ 2 ^ w then .error ⟨.configurationError, i⟩ else .ok v

end Sys2Proof.Machine
end

