-- ==== Sys2Proof/Config.lean ====
section
/-! DEFINITION. The configuration record CFG of 00_scope.md R7 and R8 as plain data, the two design constants that are
not part of it (R8, D6), and the free values. Every table content and protocol constant that the spec leaves OPEN is a
field here; the predicate `CfgOK` (R9) stands in Machine/CfgOK.lean and the reference instantiation REF in
Machine/Ref.lean. -/

namespace Sys2Proof

/-- Cells per buffer (R8: CAP = 255). -/
def Config.cap : Nat := 255

/-- The value of a cell that holds no specified value, and of a read of a reserved address (10_state.md R28,
20_memory.md R46), for the given draw number and host address. FREE VALUE (log 5): nothing constrains it. -/
opaque Config.freeCell : Nat → Nat → Byte

/-- An uninterpreted field function of a slice of the codes (41_packer.md R101; log 2), numbered. -/
opaque Config.openField : Nat → List Nat → Option Nat

/-- An uninterpreted PWRENC, a function of the power level after the type-2 fold (41_packer.md R101 item 3, R109;
log 2), numbered. -/
opaque Config.openPower : Nat → Nat → Option Nat

/-- Where Gray coding is applied (43_interleaver.md R142). -/
inductive GrayPos where
  | none | before | after
deriving DecidableEq, Repr

/-- The merge disciplines (44_sync_merger.md R150). -/
inductive Merge where
  | slot | add
deriving DecidableEq, Repr

/-- A varicode entry: one unit, or two (40_codec.md R84, R85). -/
structure Varicode where
  first : Nat
  second : Option Nat
deriving DecidableEq, Repr

/-- A field function FIELDVAL[m][f] as data (41_packer.md R101; log 2). The first six forms express the document's
literal reading and the REF functions of R110; the last two stand for any other function of a slice of the codes, or
of the power level after the type-2 fold. -/
inductive FieldFn where
  /-- one character code: the document's literal reading (R101) -/
  | code (index : Nat)
  /-- the mixed-radix value `H` of R110: each part is a radix and the index of a code -/
  | radix (parts : List (Nat × Nat))
  /-- a constant -/
  | const (n : Nat)
  /-- a sum -/
  | add (a b : FieldFn)
  /-- a product with a constant -/
  | scale (k : Nat) (a : FieldFn)
  /-- the bits `hi:lo` of a value (R10) -/
  | bits (hi lo : Nat) (a : FieldFn)
  /-- `PWRENC(p) = p + bias` for `p <= limit`, none above, of `p = PWR + T2` (R109, R110) -/
  | power (limit bias : Nat)
  /-- an uninterpreted function of the codes `c[lo..lo+len)` -/
  | openCodes (id lo len : Nat)
  /-- an uninterpreted function of `PWR + T2` -/
  | openPower (id : Nat)
deriving DecidableEq, Repr

/-- One field of a PackedField: its width FW[m][f] and its function FIELDVAL[m][f] (R8, R101). -/
structure Field where
  width : Nat
  value : FieldFn
deriving DecidableEq, Repr

/-- The packer of a mode (R8). `NFLD[m]` is the length of `fields`. -/
structure PackCfg where
  /-- PACK_W[m] -/
  width : Nat
  /-- PKD_CELL_W[m] -/
  cellW : Nat
  /-- the fields in order, field 0 first (41_packer.md R102) -/
  fields : List Field
deriving DecidableEq, Repr

/-- The convolutional encoder of a mode (R8, 42_convolutional.md R115). -/
structure ConvCfg where
  /-- K[m] -/
  k : Nat
  /-- G0[m] -/
  g0 : Nat
  /-- G1[m] -/
  g1 : Nat
  /-- CONV_LEN[m] -/
  len : Nat
deriving DecidableEq, Repr

/-- The interleaver of a mode (R8, 43_interleaver.md R131, R141, R142). -/
structure IlvCfg where
  /-- FEC_N[m] -/
  fecN : Nat
  /-- FEC_CELL_W[m] -/
  cellW : Nat
  /-- PERM[m]: entry p is the destination of input cell p -/
  perm : List Nat
  /-- GRAY_POS[m] -/
  gray : GrayPos
  /-- PRE0[m] -/
  pre0 : Nat
  /-- POST0[m] -/
  post0 : Nat
  /-- GRP[m] -/
  grp : Nat
deriving DecidableEq, Repr

/-- The sync merger of a mode (R8, 44_sync_merger.md R151, R153). -/
structure MrgCfg where
  /-- OUT_N[m] -/
  outN : Nat
  /-- MERGE[m] -/
  merge : Merge
  /-- SYNC_IS[m], used under SLOT -/
  syncIs : List Bool
  /-- SYNC_VAL[m]: the fixed values under SLOT, the sync bits under ADD -/
  syncVal : List Nat
  /-- DATA_OFS[m] -/
  dataOfs : Nat
deriving DecidableEq, Repr

/-- The configuration record CFG (R8). A field that R8 has only for some modes exists here only for those. -/
structure Cfg where
  /-- ROM_JT, as pairs of a byte and its code (40_codec.md R81) -/
  romJt : List (Byte × Nat)
  /-- N_JT -/
  nJt : Nat
  /-- ROM_WSPR: entry `pos` is the table of position `pos` (R83) -/
  romWspr : List (List (Byte × Nat))
  /-- CALL_LEN -/
  callLen : Nat
  /-- LOC_LEN -/
  locLen : Nat
  /-- which locator positions are letter positions, the first locator position first (R83 item 4; log 12) -/
  locLetter : List Bool
  /-- ROM_FSQ (R85) -/
  romFsq : List (Byte × Varicode)
  /-- FSQ_UNIT_W -/
  fsqUnitW : Nat
  /-- MSG_LEN of JT65, JT9 and JT4 -/
  msgLenJt65 : Nat
  msgLenJt9 : Nat
  msgLenJt4 : Nat
  packJt65 : PackCfg
  packJt9 : PackCfg
  packJt4 : PackCfg
  packWspr : PackCfg
  convJt9 : ConvCfg
  convJt4 : ConvCfg
  convWspr : ConvCfg
  ilvJt65 : IlvCfg
  ilvJt9 : IlvCfg
  ilvJt4 : IlvCfg
  ilvWspr : IlvCfg
  mrgJt65 : MrgCfg
  mrgJt9 : MrgCfg
  mrgJt4 : MrgCfg
  mrgWspr : MrgCfg
deriving DecidableEq, Repr

end Sys2Proof
end

