-- ==== Sys2Proof/Machine/Params.lean ====
section
/-! DEFINITION. The quantities of 00_scope.md R8 that are computed from other fields of CFG. -/

namespace Sys2Proof

/-- MSG_LEN[WSPR] = CALL_LEN + LOC_LEN (R8). -/
def Cfg.msgLenWspr (cfg : Cfg) : Nat := cfg.callLen + cfg.locLen

/-- NFLD[m], the number of fields (R8). -/
def PackCfg.nfld (c : PackCfg) : Nat := c.fields.length

/-- PRM_N[m] = (PRE0[m] + FEC_N[m] + POST0[m]) / GRP[m] (R8). -/
def IlvCfg.prmN (c : IlvCfg) : Nat := (c.pre0 + c.fecN + c.post0) / c.grp

/-- The width of a permuted symbol, GRP[m] * FEC_CELL_W[m] (10_state.md R30). -/
def IlvCfg.symW (c : IlvCfg) : Nat := c.grp * c.cellW

end Sys2Proof
end

