-- ==== Sys2Proof/Machine/Codec.lean ====
section
/-! DEFINITION. The CharacterCodec (40_codec.md): the three table lookups, the Gray function, and what each CODE command
computes from the characters of CHR. -/

namespace Sys2Proof.Machine

/-- A partial function held as pairs: the first pair with the key decides (R80: an address with no entry reads as
none). -/
def lookup {β : Type} (key : Byte) : List (Byte × β) → Option β
  | [] => none
  | (k, v) :: rest => if k = key then some v else lookup key rest

/-- JTCODE (R81). -/
def jtCode (cfg : Cfg) (ch : Byte) : Option Nat := lookup ch cfg.romJt

/-- The code of space, with which a short JT message is completed (R89, D12). `CfgOK` says ROM_JT holds it (R81
item 1), so the 0 is never used (log 3). -/
def spaceCode (cfg : Cfg) : Nat := (jtCode cfg 0x20#8).getD 0

/-- Uppercase letters 0x41..0x5A. -/
def isUpper (ch : Byte) : Bool := 0x41 ≤ ch.toNat && ch.toNat ≤ 0x5A

/-- Lowercase letters 0x61..0x7A. -/
def isLower (ch : Byte) : Bool := 0x61 ≤ ch.toNat && ch.toNat ≤ 0x7A

/-- Digits 0x30..0x39. -/
def isDigit (ch : Byte) : Bool := 0x30 ≤ ch.toNat && ch.toNat ≤ 0x39

/-- Space 0x20. -/
def isSpace (ch : Byte) : Bool := ch.toNat == 0x20

/-- Printable ASCII, 0x20 to 0x7E (R85, R87). -/
def isPrintable (ch : Byte) : Bool := 0x20 ≤ ch.toNat && ch.toNat ≤ 0x7E

/-- ALPHA_WSPR (R82): uppercase letters, digits and space. -/
def alphaWspr (ch : Byte) : Bool := isUpper ch || isDigit ch || isSpace ch

/-- WSPRCODE (R83). -/
def wsprCode (cfg : Cfg) (pos : Nat) (ch : Byte) : Option Nat :=
  match cfg.romWspr[pos]? with
  | none => none
  | some table => lookup ch table

/-- The units of a varicode entry, first unit first (R84). -/
def varicodeUnits (v : Varicode) : List Nat :=
  match v.second with
  | none => [v.first]
  | some u2 => [v.first, u2]

/-- The ROM_FSQ entry of a character (R85). -/
def fsqEntry (cfg : Cfg) (ch : Byte) : Option Varicode := lookup ch cfg.romFsq

/-- FSQCODE (R85): none, one unit, or two. -/
def fsqCode (cfg : Cfg) (ch : Byte) : Option (List Nat) := (fsqEntry cfg ch).map varicodeUnits

/-- GRAY, the reflected binary Gray code (R86). -/
def gray (n : Nat) : Nat := n ^^^ (n >>> 1)

/-- One character of a JT message (R89). -/
def jtChar (cfg : Cfg) (i : Nat) (ch : Byte) : Except Raise Nat :=
  match jtCode cfg ch with
  | none => .error ⟨.unsupportedCharacter, i⟩
  | some c => .ok c

/-- What CODE.JT65, CODE.JT9 and CODE.JT4 compute from the characters, for a message capacity `cap` (R89). -/
def codeJt (cfg : Cfg) (cap : Nat) (chr : List Byte) : Except Raise (List Nat) :=
  if chr.length > cap then .error ⟨.messageTooLong, cap⟩
  else
    match scan (jtChar cfg) 0 chr with
    | .error r => .error r
    | .ok codes => .ok (codes ++ List.replicate (cap - chr.length) (spaceCode cfg))

/-- One character of a WSPR message: the alphabet test comes before the position test (R92). -/
def wsprChar (cfg : Cfg) (i : Nat) (ch : Byte) : Except Raise Nat :=
  if alphaWspr ch = false then .error ⟨.unsupportedCharacter, i⟩
  else
    match wsprCode cfg i ch with
    | none => .error ⟨.invalidField, i⟩
    | some c => .ok c

/-- What CODE.WSPR computes (R92). -/
def codeWspr (cfg : Cfg) (chr : List Byte) : Except Raise (List Nat) :=
  if chr.length > cfg.msgLenWspr then .error ⟨.messageTooLong, cfg.msgLenWspr⟩
  else if chr.length < cfg.msgLenWspr then .error ⟨.invalidField, chr.length⟩
  else scan (wsprChar cfg) 0 chr

/-- One character of an FSQ message (R93). -/
def fsqChar (cfg : Cfg) (i : Nat) (ch : Byte) : Except Raise (List Nat) :=
  match fsqCode cfg ch with
  | none => .error ⟨.unsupportedCharacter, i⟩
  | some us => .ok us

/-- What CODE.FSQ computes: the characters are all examined before the length (R93). -/
def codeFsq (cfg : Cfg) (chr : List Byte) : Except Raise (List Nat) :=
  match scan (fsqChar cfg) 0 chr with
  | .error r => .error r
  | .ok uss => if uss.flatten.length > Config.cap then .error ⟨.messageTooLong, Config.cap⟩ else .ok uss.flatten

end Sys2Proof.Machine
end

