-- ==== Sys2Proof/Machine/Permute.lean ====
section
/-! DEFINITION. The Interleaver (43_interleaver.md): BITREV8, BRSEL, the scatter permutation, the formatter, ILVSTAGE, and
what the ILV commands compute. -/

namespace Sys2Proof.Machine

/-- The low `w` bits of a value in reverse order. -/
def bitRev : Nat → Nat → Nat
  | 0, _ => 0
  | w + 1, v => v % 2 * 2 ^ w + bitRev w (v / 2)

/-- BITREV8 (R132). -/
def bitRev8 (i : Nat) : Nat := bitRev 8 i

/-- BRSEL(N): the entries of the 256-entry bit-reversal table that are below N, in table order (R132). -/
def brsel (n : Nat) : List Nat := ((List.range 256).map bitRev8).filter (· < n)

/-- The scatter `b[PERM[p]] = a[p]` for every p, p ascending, over `n` cells (R131). -/
def scatter (n : Nat) (perm a : List Nat) : List Nat :=
  (perm.zip a).foldl (fun b qv => b.set qv.1 qv.2) (List.replicate n 0)

/-- The join of cells of `w` bits into one symbol, the earliest the most significant (R139, R141). -/
def joinCells (w : Nat) (cells : List Nat) : Nat := cells.foldl (fun acc v => acc * 2 ^ w + v) 0

/-- The formatter after the permutation: zero cells before and after, then groups of GRP cells joined (R141). -/
def formatCells (c : IlvCfg) (b : List Nat) : List Nat :=
  let padded := List.replicate c.pre0 0 ++ b ++ List.replicate c.post0 0
  (List.range c.prmN).map fun q => joinCells c.cellW ((padded.drop (q * c.grp)).take c.grp)

/-- Gray coding before the permutation, where the mode has it there (R142). -/
def grayBefore (g : GrayPos) (a : List Nat) : List Nat :=
  match g with
  | .before => a.map gray
  | .none => a
  | .after => a

/-- Gray coding after the permutation and regrouping, where the mode has it there (R142). -/
def grayAfter (g : GrayPos) (d : List Nat) : List Nat :=
  match g with
  | .after => d.map gray
  | .none => d
  | .before => d

/-- ILVSTAGE(m, a) (R139). -/
def ilvStage (c : IlvCfg) (a : List Nat) : List Nat :=
  grayAfter c.gray (formatCells c (scatter c.fecN c.perm (grayBefore c.gray a)))

/-- What an ILV command computes from the coded cells (R143). -/
def ilvCells (c : IlvCfg) (fec : List Nat) : Except Raise (List Nat) :=
  if fec.length ≠ c.fecN then .error ⟨.configurationError, fec.length⟩
  else
    match scan (cellBelow c.cellW) 0 fec with
    | .error r => .error r
    | .ok a => .ok (ilvStage c a)

end Sys2Proof.Machine
end

