-- ==== Sys2Proof/Machine/Ref.lean ====
section
/-! DEFINITION. The reference instantiation REF of CFG (93_implementation_defined.md G1 to G8), with the toy table T-FSQ of
95_test_vectors.md for ROM_FSQ, of which REF gives no contents. PRESUMED: the spec marks all of REF as general knowledge
and not normative (log 1). It is the configuration of `State.reset` so that the machine can be run on the spec's own
vectors; no statement rests on it. -/

namespace Sys2Proof.Machine

/-- `count` bytes from `start` with ascending codes from `code`. -/
def ascRun (start count code : Nat) : List (Byte × Nat) :=
  (List.range count).map fun i => (BitVec.ofNat 8 (start + i), code + i)

/-- `count` bytes from `start` with descending codes from `code`. -/
def descRun (start count code : Nat) : List (Byte × Nat) :=
  (List.range count).map fun i => (BitVec.ofNat 8 (start + i), code - i)

/-- ROM_JT under REF (G1): digits, letters, space, `+`, `-`, `.`, `/`, `?`. -/
def refRomJt : List (Byte × Nat) :=
  ascRun 0x30 10 0 ++ ascRun 0x41 26 10 ++
  [(0x20#8, 36), (0x2B#8, 37), (0x2D#8, 38), (0x2E#8, 39), (0x2F#8, 40), (0x3F#8, 41)]

/-- ROM_WSPR under REF (G2), position 0 first. -/
def refRomWspr : List (List (Byte × Nat)) :=
  [ ascRun 0x30 10 0 ++ ascRun 0x41 26 10 ++ [(0x20#8, 36)],
    ascRun 0x30 10 0 ++ ascRun 0x41 26 10,
    ascRun 0x30 10 0,
    ascRun 0x41 26 0 ++ [(0x20#8, 26)],
    ascRun 0x41 26 0 ++ [(0x20#8, 26)],
    ascRun 0x41 26 0 ++ [(0x20#8, 26)],
    descRun 0x41 18 17,
    ascRun 0x41 18 0,
    descRun 0x30 10 9,
    ascRun 0x30 10 0 ]

/-- The one-unit characters of T-FSQ in the order of their units: space, `a` to `z`, `.`, `,` (95_test_vectors.md
section 2.1). -/
def toyFsqOne : List Nat := 0x20 :: List.range' 0x61 26 ++ [0x2E, 0x2C]

/-- The two-unit characters of T-FSQ in order (95_test_vectors.md section 2.1). -/
def toyFsqTwo : List Nat :=
  List.range' 0x40 27 ++ List.range' 0x21 11 ++ [0x2D, 0x2F] ++ List.range' 0x30 16 ++ List.range' 0x5B 6 ++
  List.range' 0x7B 4 ++ [0x0D, 0x0A, 0x7F, 0x08, 0x00, 0xB1, 0xD7, 0xA3, 0xB0, 0xF7]

/-- ROM_FSQ as the toy table T-FSQ: the k-th two-unit character has the code `[k mod 29, 29 + k div 29]`. -/
def toyRomFsq : List (Byte × Varicode) :=
  toyFsqOne.zipIdx.map (fun e => (BitVec.ofNat 8 e.1, { first := e.2, second := none })) ++
  toyFsqTwo.zipIdx.map (fun e => (BitVec.ofNat 8 e.1, { first := e.2 % 29, second := some (29 + e.2 / 29) }))

/-- The JT packer under REF (R110): fields `2*n1 + n3[15]`, `2*n2 + n3[16]`, `32768 + n3[14:0]`. -/
def refJtPack (cellW : Nat) : PackCfg :=
  let n1 := FieldFn.radix [(42, 0), (42, 1), (42, 2), (42, 3), (42, 4)]
  let n2 := FieldFn.radix [(42, 5), (42, 6), (42, 7), (42, 8), (42, 9)]
  let n3 := FieldFn.radix [(42, 10), (42, 11), (42, 12)]
  { width := 72
    cellW := cellW
    fields := [ { width := 28, value := .add (.scale 2 n1) (.bits 15 15 n3) },
                { width := 28, value := .add (.scale 2 n2) (.bits 16 16 n3) },
                { width := 16, value := .add (.const 32768) (.bits 14 0 n3) } ] }

/-- The WSPR packer under REF (R110). -/
def refWsprPack : PackCfg :=
  { width := 50
    cellW := 1
    fields := [ { width := 28, value := .radix [(37, 0), (36, 1), (10, 2), (27, 3), (27, 4), (27, 5)] },
                { width := 15, value := .radix [(18, 6), (10, 8), (18, 7), (10, 9)] },
                { width := 7, value := .power 63 64 } ] }

/-- The convolutional encoders under REF (G4). -/
def refConv (len : Nat) : ConvCfg := { k := 32, g0 := 0xF2D05351, g1 := 0xE4613C47, len := len }

/-- PERM[JT65] under REF (G4): entry `i*7 + j` is `j*9 + i`. -/
def refPermJt65 : List Nat := (List.range 63).map fun p => p % 7 * 9 + p / 7

/-- SYNC_VAL[WSPR] under REF (G5). -/
def refSyncWspr : List Nat :=
  [1, 1, 0, 0, 0, 0, 0, 0, 1, 0, 0, 0, 1, 1, 1, 0, 0, 0] ++
  [1, 0, 0, 1, 0, 1, 1, 1, 1, 0, 0, 0, 0, 0, 0, 0, 1, 0] ++
  [0, 1, 0, 1, 0, 0, 0, 0, 0, 0, 1, 0, 1, 1, 0, 0, 1, 1] ++
  [0, 1, 0, 0, 0, 1, 1, 0, 1, 0, 0, 0, 0, 1, 1, 0, 1, 0] ++
  [1, 0, 1, 0, 1, 0, 0, 1, 0, 0, 1, 0, 1, 1, 0, 0, 0, 1] ++
  [1, 0, 1, 0, 1, 0, 0, 0, 1, 0, 0, 0, 0, 0, 1, 0, 0, 1] ++
  [0, 0, 1, 1, 1, 0, 1, 1, 0, 0, 1, 1, 0, 1, 0, 0, 0, 1] ++
  [1, 1, 0, 0, 0, 0, 0, 1, 0, 1, 0, 0, 1, 1, 0, 0, 0, 0] ++
  [0, 0, 0, 1, 1, 0, 1, 0, 1, 1, 0, 0, 0, 1, 1, 0, 0, 0]

/-- SYNC_IS[JT9] under REF (G6), as digits. -/
def refSyncJt9 : List Nat :=
  [1, 1, 0, 0, 1, 0, 0, 0, 0, 1, 0, 0, 0, 0, 0, 1, 0] ++
  [0, 0, 0, 0, 0, 1, 0, 0, 0, 0, 0, 0, 0, 0, 0, 1, 0] ++
  [1, 0, 0, 0, 0, 0, 0, 0, 0, 0, 0, 0, 0, 0, 0, 0, 1] ++
  [1, 0, 0, 1, 0, 0, 0, 0, 1, 0, 0, 0, 0, 0, 1, 0, 0] ++
  [0, 0, 0, 0, 1, 0, 0, 0, 0, 0, 0, 0, 0, 0, 1, 0, 1]

/-- SYNC_IS[JT65] under REF (G7), as digits. -/
def refSyncJt65 : List Nat :=
  [1, 0, 0, 1, 1, 0, 0, 0, 1, 1, 1, 1, 1, 1, 0, 1, 0, 1, 0, 0, 0] ++
  [1, 0, 1, 1, 0, 0, 1, 0, 0, 0, 1, 1, 1, 0, 0, 1, 1, 1, 1, 0, 1] ++
  [1, 0, 1, 1, 1, 1, 0, 0, 0, 1, 1, 0, 1, 0, 1, 0, 1, 1, 0, 0, 1] ++
  [1, 0, 1, 0, 1, 0, 1, 0, 0, 1, 0, 0, 0, 0, 0, 0, 1, 1, 0, 0, 0] ++
  [0, 0, 0, 0, 1, 1, 0, 1, 0, 0, 1, 0, 1, 1, 0, 1, 0, 1, 0, 1, 0] ++
  [0, 1, 1, 0, 0, 1, 0, 0, 1, 0, 0, 0, 0, 1, 1, 1, 1, 1, 1, 1, 1]

/-- SYNC_VAL[JT4] under REF (G8). -/
def refSyncJt4 : List Nat :=
  [0, 0, 0, 0, 1, 1, 0, 0, 0, 1, 1, 0, 1, 1, 0, 0, 1, 0, 1, 0, 0, 0, 0] ++
  [0, 0, 0, 1, 1, 0, 0, 0, 0, 0, 0, 0, 0, 0, 0, 0, 0, 1, 0, 1, 1, 0, 1] ++
  [1, 0, 1, 0, 1, 1, 1, 1, 1, 0, 1, 0, 0, 0, 1, 0, 0, 1, 0, 0, 1, 1, 1] ++
  [1, 1, 0, 0, 0, 1, 0, 1, 0, 0, 0, 1, 1, 1, 1, 0, 1, 1, 0, 0, 1, 0, 0] ++
  [0, 1, 1, 0, 1, 0, 1, 0, 1, 0, 1, 0, 1, 1, 1, 1, 1, 0, 1, 0, 1, 0, 1] ++
  [1, 0, 1, 0, 1, 0, 1, 1, 1, 0, 0, 1, 0, 1, 1, 0, 1, 1, 1, 1, 0, 0, 0] ++
  [0, 1, 1, 0, 1, 1, 0, 0, 0, 1, 1, 1, 0, 1, 1, 1, 0, 1, 1, 1, 0, 0, 1] ++
  [0, 0, 0, 1, 1, 0, 1, 1, 0, 0, 1, 0, 0, 0, 1, 1, 1, 1, 1, 1, 0, 0, 1] ++
  [1, 0, 0, 0, 0, 1, 1, 0, 0, 0, 1, 0, 1, 1, 0, 1, 1, 1, 1, 0, 1, 0, 1]

/-- The reference instantiation REF, with T-FSQ as ROM_FSQ. -/
def refCfg : Cfg :=
  { romJt := refRomJt
    nJt := 42
    romWspr := refRomWspr
    callLen := 6
    locLen := 4
    locLetter := [true, true, false, false]
    romFsq := toyRomFsq
    fsqUnitW := 5
    msgLenJt65 := 13
    msgLenJt9 := 13
    msgLenJt4 := 13
    packJt65 := refJtPack 6
    packJt9 := refJtPack 1
    packJt4 := refJtPack 1
    packWspr := refWsprPack
    convJt9 := refConv 103
    convJt4 := refConv 103
    convWspr := refConv 81
    ilvJt65 := { fecN := 63, cellW := 6, perm := refPermJt65, gray := .after, pre0 := 0, post0 := 0, grp := 1 }
    ilvJt9 := { fecN := 206, cellW := 1, perm := brsel 206, gray := .after, pre0 := 0, post0 := 1, grp := 3 }
    ilvJt4 := { fecN := 206, cellW := 1, perm := brsel 206, gray := .none, pre0 := 1, post0 := 0, grp := 1 }
    ilvWspr := { fecN := 162, cellW := 1, perm := brsel 162, gray := .none, pre0 := 0, post0 := 0, grp := 1 }
    mrgJt65 := { outN := 126, merge := .slot, syncIs := refSyncJt65.map (· == 1), syncVal := List.replicate 126 0,
                 dataOfs := 2 }
    mrgJt9 := { outN := 85, merge := .slot, syncIs := refSyncJt9.map (· == 1), syncVal := List.replicate 85 0,
                dataOfs := 1 }
    mrgJt4 := { outN := 207, merge := .add, syncIs := [], syncVal := refSyncJt4, dataOfs := 0 }
    mrgWspr := { outN := 162, merge := .add, syncIs := [], syncVal := refSyncWspr, dataOfs := 0 } }

end Sys2Proof.Machine
end

