-- ==== Sys2Proof/Machine/State.lean ====
section
/-! DEFINITION. The state of one CORE instance (10_state.md R20 to R31) as plain data, with the five fields the MODEL adds
(log 1, 4, 5, 7), the reasons a step could stop, and the state after reset (R37, R200). -/

namespace Sys2Proof.Machine

/-- The six buffers (R21). -/
inductive Buf where
  | chr | cod | pkd | fec | prm | out
deriving DecidableEq, Repr

/-- One access of the host (20_memory.md R44, 45_control.md R178): `MemRead(addr, 1)` or `MemWrite(addr, 1, v)`. -/
inductive HostAccess where
  | read (addr : HostAddr)
  | write (addr : HostAddr) (v : Byte)
deriving DecidableEq, Repr

/-- Reasons the machine could stop with a fault. There are none: the spec gives every command, every reserved byte and
every host access an effect, the four errors of 60_exceptions.md are next states, and nothing else is undefined
(70_reset_and_hazards.md R210; log 11). Nobody raises a fault, so this is neither safe nor unsafe. -/
inductive Fault
deriving DecidableEq, Repr

/-- Reasons the machine could refuse an instruction. -/
inductive Refusal where
  /-- An instruction whose meaning is not written yet. Raised by `exec`'s arms alone; safe. No arm raises it. -/
  | notModelled (mnemonic : String)
deriving DecidableEq, Repr

/-- The state of one CORE instance (R20). A register holds the bits that hold state (R23); the host's view of it as an
8-bit cell stands in Machine/Flags.lean. -/
structure State where
  /-- STATUS bit 0, ERR (R24) -/
  status : BitVec 1
  /-- ERRCODE bits 2:0 (R25) -/
  errcode : BitVec 3
  /-- ERRIDX (R26) -/
  erridx : BitVec 8
  /-- PWR (R27) -/
  pwr : BitVec 8
  /-- FLAGS bit 0, T2 (R27) -/
  flags : BitVec 1
  /-- CHR_LEN (R28) -/
  chrLen : BitVec 8
  /-- COD_LEN -/
  codLen : BitVec 8
  /-- PKD_LEN -/
  pkdLen : BitVec 8
  /-- FEC_LEN -/
  fecLen : BitVec 8
  /-- PRM_LEN -/
  prmLen : BitVec 8
  /-- OUT_LEN -/
  outLen : BitVec 8
  /-- The buffer cells that hold a specified value, by host address (20_memory.md R45), in ascending order; a cell that
  is not listed holds no specified value (R28; log 6, 7) -/
  mem : List Host.Cell
  /-- The model's own: the addresses of the cells that the host has written since the last command that wrote their
  buffer, in ascending order (R28; log 7) -/
  hostCells : List Nat
  /-- SR, the convolutional shift register, as the value of its K[m] bits (R31; log 9) -/
  sr : Nat
  /-- The model's own: the configuration record CFG, constant (R7, R39; log 1) -/
  cfg : Cfg
  /-- The model's own: numbers the draws of unspecified values (log 5) -/
  draw : Nat
  /-- The model's own: the host accesses not yet served, oldest first (log 4) -/
  pending : List HostAccess
  /-- The model's own: the value the last served host read returned (log 4) -/
  readData : Option Byte
deriving DecidableEq, Repr

/-- The state after reset (R37, R200): every register, every length and SR 0, every buffer cell unspecified. CFG is REF
(PRESUMED, log 1); no host access is pending (log 4). -/
def State.reset : State :=
  { status := 0#1
    errcode := 0#3
    erridx := 0#8
    pwr := 0#8
    flags := 0#1
    chrLen := 0#8
    codLen := 0#8
    pkdLen := 0#8
    fecLen := 0#8
    prmLen := 0#8
    outLen := 0#8
    mem := []
    hostCells := []
    sr := 0
    cfg := refCfg
    draw := 0
    pending := []
    readData := none }

end Sys2Proof.Machine
end

