-- ==== Sys2Proof/Machine/Flags.lean ====
section
/-! DEFINITION. STATUS.ERR, the CORE's only flag (10_state.md R24, R33), FLAGS.T2 (R27), and the host's 8-bit view of the
registers whose cells hold fewer bits of state (R23 to R27). -/

namespace Sys2Proof.Machine

/-- STATUS.ERR is 1 (R24). -/
def State.err (s : State) : Bool := s.status == 1#1

/-- FLAGS.T2 as the number that the type-2 fold adds (R27, 41_packer.md R109). -/
def State.t2 (s : State) : Nat := s.flags.toNat

/-- STATUS as the host reads it: bits 7:1 are 0 (R24). -/
def statusCell (s : State) : Byte := s.status.setWidth 8

/-- ERRCODE as the host reads it: bits 7:3 are 0 (R25). -/
def errcodeCell (s : State) : Byte := s.errcode.setWidth 8

/-- FLAGS as the host reads it: bits 7:1 are 0 (R27). -/
def flagsCell (s : State) : Byte := s.flags.setWidth 8

/-- The bits of a written byte that FLAGS keeps: bit 0 (R27). -/
def flagsOfByte (v : Byte) : BitVec 1 := v.setWidth 1

end Sys2Proof.Machine
end

