-- ==== Sys2Proof/Machine/Ops.lean ====
section
/-! DEFINITION. The named operations over buffers and registers: the canonical memory of specified cells, the lengths,
the commit of a command's result, the error entry (60_exceptions.md R184) and the return from an error (R187,
45_control.md R174), and the error gate (R171). -/

namespace Sys2Proof.Machine

/-- The number of a buffer in the address map (20_memory.md R45). -/
def Buf.num : Buf → Nat
  | .chr => 1
  | .cod => 2
  | .pkd => 3
  | .fec => 4
  | .prm => 5
  | .out => 6

/-- The host address of a buffer's cell 0 (R45). -/
def Buf.base (b : Buf) : Nat := b.num * 0x100

/-- The host address of cell i of a buffer: `b * 0x100 + i` (R45). -/
def Buf.addr (b : Buf) (i : Nat) : Nat := b.base + i

/-- The address is that of one of the 255 cells of the buffer (R45). -/
def Buf.holds (b : Buf) (a : Nat) : Bool := b.base ≤ a && a < b.base + Config.cap

/-- The value of a listed cell, if it is listed. -/
def Memory.read : List Host.Cell → Nat → Option Byte
  | [], _ => none
  | (k, v) :: rest, a => if k = a then some v else Memory.read rest a

/-- The memory with one cell set, addresses kept in ascending order. -/
def Memory.insert : List Host.Cell → Nat → Byte → List Host.Cell
  | [], a, v => [(a, v)]
  | (k, w) :: rest, a, v =>
    if a < k then (a, v) :: (k, w) :: rest
    else if a = k then (a, v) :: rest
    else (k, w) :: Memory.insert rest a v

/-- The memory without the cells from address `lo` up to but not including `hi` that are not in `keep`: these hold no
specified value. -/
def Memory.forget (m : List Host.Cell) (keep : List Nat) (lo hi : Nat) : List Host.Cell :=
  m.filter fun c => c.1 < lo || hi ≤ c.1 || decide (c.1 ∈ keep)

/-- The ascending list of addresses with one more address. -/
def mark (l : List Nat) (a : Nat) : List Nat := l.filter (· < a) ++ a :: l.filter (a < ·)

/-- The addresses outside a buffer's window. -/
def unmark (b : Buf) (l : List Nat) : List Nat := l.filter fun a => !b.holds a

/-- The cells of a sequence of values from an address on; a value is stored as the 8 bits of a cell. -/
def Memory.cells : Nat → List Nat → List Host.Cell
  | _, [] => []
  | a, v :: vs => (a, BitVec.ofNat 8 v) :: Memory.cells (a + 1) vs

/-- The memory with the values stored from address `lo` on, and every other cell from `lo` up to but not including `hi`
unspecified. -/
def Memory.splice (m : List Host.Cell) (lo hi : Nat) (vs : List Nat) : List Host.Cell :=
  m.filter (fun c => c.1 < lo) ++ Memory.cells lo (vs.take (hi - lo)) ++ m.filter (fun c => hi ≤ c.1)

/-- The address is that of a buffer cell (R45). -/
def isCellAddr (a : Nat) : Bool := 0x100 ≤ a && a < 0x700 && a % 0x100 < Config.cap

/-- The canonical form: addresses strictly rising, each that of a buffer cell. -/
abbrev Memory.WF (m : List Host.Cell) : Prop :=
  m.Pairwise (fun c d => c.1 < d.1) ∧ ∀ c ∈ m, isCellAddr c.1 = true

/-- The value of a buffer cell by its host address: the listed one, or a free value (R28; log 5). -/
def State.cell (s : State) (a : Nat) : Byte :=
  match Memory.read s.mem a with
  | some v => v
  | none => Config.freeCell s.draw a

/-- The length register of a buffer (R23, R28). -/
def State.len (s : State) : Buf → BitVec 8
  | .chr => s.chrLen
  | .cod => s.codLen
  | .pkd => s.pkdLen
  | .fec => s.fecLen
  | .prm => s.prmLen
  | .out => s.outLen

/-- The state with a length register set and nothing else. -/
def State.withLen (s : State) (b : Buf) (n : BitVec 8) : State :=
  match b with
  | .chr => { s with chrLen := n }
  | .cod => { s with codLen := n }
  | .pkd => { s with pkdLen := n }
  | .fec => { s with fecLen := n }
  | .prm => { s with prmLen := n }
  | .out => { s with outLen := n }

/-- Write a length register. A cell that the length leaves behind keeps its value if the host has written it since the
last command that wrote its buffer (R28, 20_memory.md R49); otherwise it holds no specified value any more, not even
when the length rises again (R28; log 7). -/
def setLen (b : Buf) (n : BitVec 8) (s : State) : State :=
  { s with mem := Memory.forget s.mem s.hostCells (b.addr n.toNat) (b.addr (s.len b).toNat) }.withLen b n

/-- Write one buffer cell from the host (20_memory.md R45). -/
def storeCell (a : Nat) (v : Byte) (s : State) : State :=
  { s with mem := Memory.insert s.mem a v, hostCells := mark s.hostCells a }

/-- Commit a command's result: `B[i] <- vs[i]` for every i and `B_LEN <- len(vs)` (00_scope.md R13). The other cells of
B may be left at any value (R28; log 7). -/
def commit (b : Buf) (vs : List Nat) (s : State) : State :=
  { s with
    mem := Memory.splice s.mem b.base (b.base + Config.cap) vs
    hostCells := unmark b s.hostCells }.withLen b (BitVec.ofNat 8 vs.length)

/-- Append to a buffer: `B[B_LEN + j] <- vs[j]` and `B_LEN <- B_LEN + len(vs)` (44_sync_merger.md R166). The contents
before B_LEN stand; with nothing to append nothing changes (log 10). -/
def append (b : Buf) (vs : List Nat) (s : State) : State :=
  if vs.isEmpty then s
  else
    { s with
      mem := Memory.splice s.mem (b.addr (s.len b).toNat) (b.base + Config.cap) vs
      hostCells := unmark b s.hostCells }.withLen b
      (BitVec.ofNat 8 ((s.len b).toNat + vs.length))

/-- Record an error in the three error registers: ERRIDX is the index mod 256 (R184). -/
def recordError (r : Raise) (s : State) : State :=
  { s with errcode := r.kind.code, erridx := BitVec.ofNat 8 r.idx, status := 1#1 }

/-- THE ERROR ENTRY of 60_exceptions.md R184: record the error, empty the destination buffer where the command has one,
and empty OUT. Nothing else changes. -/
def enterError (dest : Option Buf) (r : Raise) (s : State) : State :=
  match dest with
  | none => setLen .out 0#8 (recordError r s)
  | some b => setLen .out 0#8 (setLen b 0#8 (recordError r s))

/-- THE RETURN FROM AN ERROR, and the start of a call (R174, R187): the error registers, the six lengths and SR are 0,
and no buffer cell holds a specified value for a later reader; PWR and FLAGS stand. -/
def clearCall (s : State) : State :=
  { s with
    status := 0#1, errcode := 0#3, erridx := 0#8
    chrLen := 0#8, codLen := 0#8, pkdLen := 0#8, fecLen := 0#8, prmLen := 0#8, outLen := 0#8
    mem := [], hostCells := [], sr := 0 }

/-- The end of a command with a destination buffer: its result is committed, or its error entered (R13, R184). -/
def finish (b : Buf) (r : Except Raise (List Nat)) (s : State) : State :=
  match r with
  | .error e => enterError (some b) e s
  | .ok vs => commit b vs s

/-- The error gate: while STATUS.ERR is 1 a command changes nothing (45_control.md R171). -/
def gated (k : State → State) (s : State) : Host.Outcome State Fault Refusal :=
  if s.err then .next s else .next (k s)

end Sys2Proof.Machine
end

