-- ==== Sys2Proof/Machine/Operands.lean ====
section
/-! DEFINITION. The implicit operands of the commands (30_encoding.md R64): a buffer's contents up to its length, the
power level after the type-2 fold, and the length of OUT. No command has any other operand form. -/

namespace Sys2Proof.Machine

/-- The contents `B[0..B_LEN)` of a buffer as cells (10_state.md R28). A cell below the length that holds no specified
value gives a free value (70_reset_and_hazards.md R207; log 5). -/
def contents (b : Buf) (s : State) : List Byte :=
  (List.range (s.len b).toNat).map fun i => s.cell (b.addr i)

/-- The contents of a buffer as natural numbers (00_scope.md R10). -/
def values (b : Buf) (s : State) : List Nat := (contents b s).map BitVec.toNat

/-- The power level that PACK.WSPR encodes: PWR + T2, not reduced (41_packer.md R108, R109). -/
def powerLevel (s : State) : Nat := s.pwr.toNat + s.t2

/-- OUT_LEN, which MRG.FSQ reads (44_sync_merger.md R166). -/
def outLength (s : State) : Nat := s.outLen.toNat

end Sys2Proof.Machine
end

