-- ==== Sys2Proof/Machine/Access.lean ====
section
/-! DEFINITION. The host's accesses to the cell address space (20_memory.md R44 to R47, 45_control.md R178): the address
map, the value of a read, the effect of a write to any address but CMD, and how the next access is taken from the
queue. -/

namespace Sys2Proof.Machine

/-- What an address of the host cell space is (R45). -/
inductive Region where
  | cmd
  | status
  | errcode
  | erridx
  | pwr
  | flags
  | length (b : Buf)
  | cell (b : Buf) (i : Nat)
  | reserved
deriving DecidableEq, Repr

/-- The buffer with a number of the address map (R45). -/
def bufOfNum : Nat → Option Buf
  | 1 => some .chr
  | 2 => some .cod
  | 3 => some .pkd
  | 4 => some .fec
  | 5 => some .prm
  | 6 => some .out
  | _ => none

/-- The region of an address at or above 0x100 (R45): cells 0 to 254 of buffer 1 to 6, the rest reserved. -/
def cellRegion (a : Nat) : Region :=
  match bufOfNum (a / 0x100) with
  | none => .reserved
  | some b => if a % 0x100 < Config.cap then .cell b (a % 0x100) else .reserved

/-- The address map (R45). -/
def regionOf (a : Nat) : Region :=
  match a with
  | 0x000 => .cmd
  | 0x001 => .status
  | 0x002 => .errcode
  | 0x003 => .erridx
  | 0x004 => .pwr
  | 0x005 => .flags
  | 0x008 => .length .chr
  | 0x009 => .length .cod
  | 0x00A => .length .pkd
  | 0x00B => .length .fec
  | 0x00C => .length .prm
  | 0x00D => .length .out
  | _ => cellRegion a

/-- `MemRead(addr, 1)` (R45): CMD reads 0, a register its value, a cell below its buffer's length its value; a cell at
or beyond the length, and a reserved address, give a free value (10_state.md R28, R46; log 5, 8). -/
def readAddr (a : HostAddr) (s : State) : Byte :=
  match regionOf a.toNat with
  | .cmd => 0#8
  | .status => statusCell s
  | .errcode => errcodeCell s
  | .erridx => s.erridx
  | .pwr => s.pwr
  | .flags => flagsCell s
  | .length b => s.len b
  | .cell b i => if i < (s.len b).toNat then s.cell (b.addr i) else Config.freeCell s.draw (b.addr i)
  | .reserved => Config.freeCell s.draw a.toNat

/-- `MemWrite(addr, 1, v)` to an address other than CMD (R45): STATUS, ERRCODE, ERRIDX and reserved addresses ignore
the write; FLAGS keeps bit 0. CMD holds no state (10_state.md R20), so nothing is stored there either; its event is
`commandOf`. -/
def writeAddr (a : HostAddr) (v : Byte) (s : State) : State :=
  match regionOf a.toNat with
  | .cmd => s
  | .status => s
  | .errcode => s
  | .erridx => s
  | .pwr => { s with pwr := v }
  | .flags => { s with flags := flagsOfByte v }
  | .length b => setLen b v s
  | .cell b i => storeCell (b.addr i) v s
  | .reserved => s

/-- The command byte that an access writes to CMD, if it does (R45, 45_control.md R170). -/
def commandOf : HostAccess → Option Byte
  | .read _ => none
  | .write a v => if regionOf a.toNat = .cmd then some v else none

/-- Serve a host access that is no command: a read returns its value to the host and changes nothing of the CORE
(R47), a write stores. -/
def serve (acc : HostAccess) (s : State) : State :=
  match acc with
  | .read a => { s with readData := some (readAddr a s) }
  | .write a v => writeAddr a v s

/-- Take the next host access, if one is pending; its unspecified values are a new draw (log 4, 5). -/
def takeAccess (s : State) : Option (HostAccess × State) :=
  match s.pending with
  | [] => none
  | acc :: rest => some (acc, { s with pending := rest, draw := s.draw + 1 })

/-- The host access that issues a command byte: `MemWrite(0x000, 1, b)` (R170). -/
def issue (b : Byte) : HostAccess := .write 0x000#11 b

end Sys2Proof.Machine
end

