-- ==== Sys2Proof/Machine/Code.lean ====
section
/-! DEFINITION. The CODE commands (40_codec.md R88 to R93): CHR in, COD out. -/

namespace Sys2Proof.Machine

/-- CODE.JT65 (R89). -/
def execCodeJt65 (s : State) : Host.Outcome State Fault Refusal :=
  gated (fun s => finish .cod (codeJt s.cfg s.cfg.msgLenJt65 (contents .chr s)) s) s

/-- CODE.JT9 (R90). -/
def execCodeJt9 (s : State) : Host.Outcome State Fault Refusal :=
  gated (fun s => finish .cod (codeJt s.cfg s.cfg.msgLenJt9 (contents .chr s)) s) s

/-- CODE.JT4 (R91). -/
def execCodeJt4 (s : State) : Host.Outcome State Fault Refusal :=
  gated (fun s => finish .cod (codeJt s.cfg s.cfg.msgLenJt4 (contents .chr s)) s) s

/-- CODE.WSPR (R92). -/
def execCodeWspr (s : State) : Host.Outcome State Fault Refusal :=
  gated (fun s => finish .cod (codeWspr s.cfg (contents .chr s)) s) s

/-- CODE.FSQ (R93). -/
def execCodeFsq (s : State) : Host.Outcome State Fault Refusal :=
  gated (fun s => finish .cod (codeFsq s.cfg (contents .chr s)) s) s

end Sys2Proof.Machine
end

