-- ==== Sys2Proof/Machine/Control.lean ====
section
/-! DEFINITION. The control commands NOP and CLR and the reserved command bytes (45_control.md R173 to R175). -/

namespace Sys2Proof.Machine

/-- NOP (R173): no state changes, whether STATUS.ERR is 0 or 1. -/
def execNop (s : State) : Host.Outcome State Fault Refusal := .next s

/-- CLR (R174): the only command that runs while STATUS.ERR is 1. -/
def execClr (s : State) : Host.Outcome State Fault Refusal := .next (clearCall s)

/-- A reserved command byte (R175): ConfigurationError with the byte as index and no destination length register, or
nothing while STATUS.ERR is 1. -/
def execReserved (b : Byte) (s : State) : Host.Outcome State Fault Refusal :=
  gated (enterError none ⟨.configurationError, b.toNat⟩) s

end Sys2Proof.Machine
end

