-- ==== Sys2Proof/Machine/Convolve.lean ====
section
/-! DEFINITION. The ConvolutionalEncoder (42_convolutional.md): CONVENC and what the CONV commands compute. -/

namespace Sys2Proof.Machine

/-- The exclusive-or of the low `w` bits of a value (00_scope.md R10 `parity`, for a value of `w` bits). -/
def parity : Nat → Nat → Nat
  | 0, _ => 0
  | w + 1, v => (v % 2) ^^^ parity w (v / 2)

/-- One step of the shift register: the newest bit enters at bit 0, the oldest leaves from bit K-1 (R116). -/
def shiftIn (k sr bit : Nat) : Nat := (sr <<< 1 ||| bit) % 2 ^ k

/-- The loop of CONVENC from a register value: the coded bits, the G0 bit of each pair first, and the final register
(R116). -/
def convSteps (c : ConvCfg) : Nat → List Nat → List Nat × Nat
  | sr, [] => ([], sr)
  | sr, bit :: bits =>
    let sr' := shiftIn c.k sr bit
    let rest := convSteps c sr' bits
    (parity c.k (sr' &&& c.g0) :: parity c.k (sr' &&& c.g1) :: rest.1, rest.2)

/-- CONVENC: the data bits, then zero padding up to CONV_LEN, from SR = 0 (R116). -/
def convEnc (c : ConvCfg) (d : List Nat) : List Nat × Nat :=
  convSteps c 0 (d ++ List.replicate (c.len - d.length) 0)

/-- What a CONV command computes from the packed cells: a wrong length, then a cell that is not a bit, raises
ConfigurationError; otherwise the coded bits and the final SR (R118). -/
def convCells (packW : Nat) (c : ConvCfg) (pkd : List Nat) : Except Raise (List Nat × Nat) :=
  if pkd.length ≠ packW then .error ⟨.configurationError, pkd.length⟩
  else
    match scan (cellBelow 1) 0 pkd with
    | .error r => .error r
    | .ok d => .ok (convEnc c d)

end Sys2Proof.Machine
end

