-- ==== Sys2Proof/Machine/Conv.lean ====
section
/-! DEFINITION. The CONV commands (42_convolutional.md R118 to R120): PKD in, FEC and SR out. -/

namespace Sys2Proof.Machine

/-- The end of a CONV command: the coded bits go to FEC and the final register to SR, or the error is entered and SR
stands (R118; log 9). -/
def finishConv (r : Except Raise (List Nat × Nat)) (s : State) : State :=
  match r with
  | .error e => enterError (some .fec) e s
  | .ok (bits, sr) => { commit .fec bits s with sr := sr }

/-- CONV.JT9 (R118). -/
def execConvJt9 (s : State) : Host.Outcome State Fault Refusal :=
  gated (fun s => finishConv (convCells s.cfg.packJt9.width s.cfg.convJt9 (values .pkd s)) s) s

/-- CONV.JT4 (R119). -/
def execConvJt4 (s : State) : Host.Outcome State Fault Refusal :=
  gated (fun s => finishConv (convCells s.cfg.packJt4.width s.cfg.convJt4 (values .pkd s)) s) s

/-- CONV.WSPR (R120). -/
def execConvWspr (s : State) : Host.Outcome State Fault Refusal :=
  gated (fun s => finishConv (convCells s.cfg.packWspr.width s.cfg.convWspr (values .pkd s)) s) s

end Sys2Proof.Machine
end

