-- ==== Sys2Proof/Machine/Ilv.lean ====
section
/-! DEFINITION. The ILV commands (43_interleaver.md R143 to R146): FEC in, PRM out. -/

namespace Sys2Proof.Machine

/-- ILV.JT65 (R143). -/
def execIlvJt65 (s : State) : Host.Outcome State Fault Refusal :=
  gated (fun s => finish .prm (ilvCells s.cfg.ilvJt65 (values .fec s)) s) s

/-- ILV.JT9 (R144). -/
def execIlvJt9 (s : State) : Host.Outcome State Fault Refusal :=
  gated (fun s => finish .prm (ilvCells s.cfg.ilvJt9 (values .fec s)) s) s

/-- ILV.JT4 (R145). -/
def execIlvJt4 (s : State) : Host.Outcome State Fault Refusal :=
  gated (fun s => finish .prm (ilvCells s.cfg.ilvJt4 (values .fec s)) s) s

/-- ILV.WSPR (R146). -/
def execIlvWspr (s : State) : Host.Outcome State Fault Refusal :=
  gated (fun s => finish .prm (ilvCells s.cfg.ilvWspr (values .fec s)) s) s

end Sys2Proof.Machine
end

