-- ==== Sys2Proof/Machine/Merger.lean ====
section
/-! DEFINITION. The SyncMerger (44_sync_merger.md): SLOTMERGE, ADDMERGE, and what the MRG commands compute. -/

namespace Sys2Proof.Machine

/-- SLOTMERGE(is, val, ofs, x) (R151). A data slot with no symbol left takes 0 for it; `CfgOK` item 7 says there are as
many symbols as data slots, so that never happens (log 3). -/
def slotMerge (ofs : Nat) : List Bool → List Nat → List Nat → List Nat
  | [], _, _ => []
  | _ :: _, [], _ => []
  | true :: is, v :: val, x => v :: slotMerge ofs is val x
  | false :: is, _ :: val, x => (x.headD 0 + ofs) :: slotMerge ofs is val x.tail

/-- ADDMERGE(s, x): `2 * s[i] + x[i]` (R153; the weights are the document's, D23). -/
def addMerge (s x : List Nat) : List Nat := List.zipWith (fun si xi => 2 * si + xi) s x

/-- The checks that the four fixed-length MRG commands share (R162). -/
def mrgCheck (prmN symW : Nat) (prm : List Nat) : Except Raise (List Nat) :=
  if prm.length ≠ prmN then .error ⟨.configurationError, prm.length⟩
  else scan (cellBelow symW) 0 prm

/-- What MRG.JT65 and MRG.JT9 compute: slot insertion (R162, R163). -/
def mrgSlot (ilv : IlvCfg) (m : MrgCfg) (prm : List Nat) : Except Raise (List Nat) :=
  match mrgCheck ilv.prmN ilv.symW prm with
  | .error r => .error r
  | .ok x => .ok (slotMerge m.dataOfs m.syncIs m.syncVal x)

/-- What MRG.WSPR computes: additive combination (R165). -/
def mrgAdd (ilv : IlvCfg) (m : MrgCfg) (prm : List Nat) : Except Raise (List Nat) :=
  match mrgCheck ilv.prmN ilv.symW prm with
  | .error r => .error r
  | .ok x => .ok (addMerge m.syncVal x)

/-- What MRG.JT4 computes: the parameter MERGE[JT4] chooses the discipline (R155, R164). -/
def mrgChosen (ilv : IlvCfg) (m : MrgCfg) (prm : List Nat) : Except Raise (List Nat) :=
  match m.merge with
  | .slot => mrgSlot ilv m prm
  | .add => mrgAdd ilv m prm

/-- What MRG.FSQ appends to OUT, which holds `outLen` cells: the units of COD as they are (R166). -/
def mrgFsq (unitW outLen : Nat) (cod : List Nat) : Except Raise (List Nat) :=
  match scan (cellBelow unitW) 0 cod with
  | .error r => .error r
  | .ok units =>
    if outLen + units.length > Config.cap then .error ⟨.messageTooLong, Config.cap⟩ else .ok units

end Sys2Proof.Machine
end

