-- ==== Sys2Proof/Machine/Mrg.lean ====
section
/-! DEFINITION. The MRG commands (44_sync_merger.md R162 to R166): PRM in (FSQ: COD), OUT out. -/

namespace Sys2Proof.Machine

/-- MRG.JT65 (R162): slot insertion. -/
def execMrgJt65 (s : State) : Host.Outcome State Fault Refusal :=
  gated (fun s => finish .out (mrgSlot s.cfg.ilvJt65 s.cfg.mrgJt65 (values .prm s)) s) s

/-- MRG.JT9 (R163): slot insertion. -/
def execMrgJt9 (s : State) : Host.Outcome State Fault Refusal :=
  gated (fun s => finish .out (mrgSlot s.cfg.ilvJt9 s.cfg.mrgJt9 (values .prm s)) s) s

/-- MRG.JT4 (R164): the discipline is the parameter MERGE[JT4]. -/
def execMrgJt4 (s : State) : Host.Outcome State Fault Refusal :=
  gated (fun s => finish .out (mrgChosen s.cfg.ilvJt4 s.cfg.mrgJt4 (values .prm s)) s) s

/-- MRG.WSPR (R165): additive combination. -/
def execMrgWspr (s : State) : Host.Outcome State Fault Refusal :=
  gated (fun s => finish .out (mrgAdd s.cfg.ilvWspr s.cfg.mrgWspr (values .prm s)) s) s

/-- The end of MRG.FSQ: the units are appended to OUT, or the error is entered with destination OUT_LEN (R166). -/
def finishAppend (r : Except Raise (List Nat)) (s : State) : State :=
  match r with
  | .error e => enterError (some .out) e s
  | .ok units => append .out units s

/-- MRG.FSQ (R166): COD is appended to OUT. -/
def execMrgFsq (s : State) : Host.Outcome State Fault Refusal :=
  gated (fun s => finishAppend (mrgFsq s.cfg.fsqUnitW (outLength s) (values .cod s)) s) s

end Sys2Proof.Machine
end

