-- ==== Sys2Proof/Machine/Packer.lean ====
section
/-! DEFINITION. The FieldPacker (41_packer.md): field values, concatenation, emission into cells, PACKFIELD, and what
the PACK commands compute. -/

namespace Sys2Proof.Machine

/-- `H(r, s)` of R110 over the codes, from the value `acc` of the digits already read: none when a code is absent
or not below its radix. -/
def radixValue (codes : List Nat) : Nat → List (Nat × Nat) → Option Nat
  | acc, [] => some acc
  | acc, (r, j) :: parts =>
    match codes[j]? with
    | none => none
    | some d => if d < r then radixValue codes (acc * r + d) parts else none

/-- FIELDVAL[m][f](c, PWR, T2), where `p = PWR + T2`, not reduced (R101, R109). -/
def fieldValue (codes : List Nat) (p : Nat) : FieldFn → Option Nat
  | .code i => codes[i]?
  | .radix parts => radixValue codes 0 parts
  | .const n => some n
  | .add a b =>
    match fieldValue codes p a with
    | none => none
    | some x =>
      match fieldValue codes p b with
      | none => none
      | some y => some (x + y)
  | .scale k a =>
    match fieldValue codes p a with
    | none => none
    | some x => some (k * x)
  | .bits hi lo a =>
    match fieldValue codes p a with
    | none => none
    | some x => some (x / 2 ^ lo % 2 ^ (hi + 1 - lo))
  | .power limit bias => if p ≤ limit then some (p + bias) else none
  | .openCodes id lo len => Config.openField id ((codes.drop lo).take len)
  | .openPower id => Config.openPower id p

/-- One field of PACKFIELD: its value, or InvalidField with the field's number when the value is undefined or does not
fit the width (R104). -/
def fieldCheck (c : List Nat) (p : Nat) (f : Nat) (fld : Field) : Except Raise (Nat × Nat) :=
  match fieldValue c p fld.value with
  | none => .error ⟨.invalidField, f⟩
  | some v => if v ≥ 2 ^ fld.width then .error ⟨.invalidField, f⟩ else .ok (fld.width, v)

/-- The PackedField: the concatenation of the (width, value) pairs, the first the most significant (R102). -/
def concatFields : Nat → List (Nat × Nat) → Nat
  | acc, [] => acc
  | acc, (w, v) :: rest => concatFields (acc * 2 ^ w + v) rest

/-- The emission into cells: cell i is `PF[PACK_W-1-i*cw : PACK_W-(i+1)*cw]`, most significant part first (R103). -/
def emitCells (width cellW pf : Nat) : List Nat :=
  (List.range (width / cellW)).map fun i => pf / 2 ^ (width - (i + 1) * cellW) % 2 ^ cellW

/-- PACKFIELD(m, c, pwr, t2) with `p = pwr + t2` (R104). -/
def packField (m : PackCfg) (c : List Nat) (p : Nat) : Except Raise (List Nat) :=
  match scan (fieldCheck c p) 0 m.fields with
  | .error r => .error r
  | .ok vs => .ok (emitCells m.width m.cellW (concatFields 0 vs))

/-- What a PACK command computes from the codes, for the mode's message length (R105, R108). -/
def packCodes (msgLen : Nat) (m : PackCfg) (cod : List Nat) (p : Nat) : Except Raise (List Nat) :=
  if cod.length > msgLen then .error ⟨.messageTooLong, msgLen⟩
  else if cod.length < msgLen then .error ⟨.invalidField, 255⟩
  else packField m cod p

end Sys2Proof.Machine
end

