-- ==== Sys2Proof/Machine/Pack.lean ====
section
/-! DEFINITION. The PACK commands (41_packer.md R105 to R108): COD, PWR and FLAGS.T2 in, PKD out. -/

namespace Sys2Proof.Machine

/-- PACK.JT65 (R105). -/
def execPackJt65 (s : State) : Host.Outcome State Fault Refusal :=
  gated (fun s => finish .pkd (packCodes s.cfg.msgLenJt65 s.cfg.packJt65 (values .cod s) (powerLevel s)) s) s

/-- PACK.JT9 (R106). -/
def execPackJt9 (s : State) : Host.Outcome State Fault Refusal :=
  gated (fun s => finish .pkd (packCodes s.cfg.msgLenJt9 s.cfg.packJt9 (values .cod s) (powerLevel s)) s) s

/-- PACK.JT4 (R107). -/
def execPackJt4 (s : State) : Host.Outcome State Fault Refusal :=
  gated (fun s => finish .pkd (packCodes s.cfg.msgLenJt4 s.cfg.packJt4 (values .cod s) (powerLevel s)) s) s

/-- PACK.WSPR (R108). -/
def execPackWspr (s : State) : Host.Outcome State Fault Refusal :=
  gated (fun s => finish .pkd (packCodes s.cfg.msgLenWspr s.cfg.packWspr (values .cod s) (powerLevel s)) s) s

end Sys2Proof.Machine
end

