-- ==== Sys2Proof/Machine/Dispatch.lean ====
section
/-! DEFINITION. The dispatch of a command to its meaning (45_control.md R170). -/

namespace Sys2Proof.Machine

def exec (i : Instr) (s : State) : Host.Outcome State Fault Refusal :=
  match i with
  | .nop => Sys2Proof.Machine.execNop s
  | .clr => Sys2Proof.Machine.execClr s
  | .codeJt65 => Sys2Proof.Machine.execCodeJt65 s
  | .codeJt9 => Sys2Proof.Machine.execCodeJt9 s
  | .codeJt4 => Sys2Proof.Machine.execCodeJt4 s
  | .codeWspr => Sys2Proof.Machine.execCodeWspr s
  | .codeFsq => Sys2Proof.Machine.execCodeFsq s
  | .packJt65 => Sys2Proof.Machine.execPackJt65 s
  | .packJt9 => Sys2Proof.Machine.execPackJt9 s
  | .packJt4 => Sys2Proof.Machine.execPackJt4 s
  | .packWspr => Sys2Proof.Machine.execPackWspr s
  | .convJt9 => Sys2Proof.Machine.execConvJt9 s
  | .convJt4 => Sys2Proof.Machine.execConvJt4 s
  | .convWspr => Sys2Proof.Machine.execConvWspr s
  | .ilvJt65 => Sys2Proof.Machine.execIlvJt65 s
  | .ilvJt9 => Sys2Proof.Machine.execIlvJt9 s
  | .ilvJt4 => Sys2Proof.Machine.execIlvJt4 s
  | .ilvWspr => Sys2Proof.Machine.execIlvWspr s
  | .mrgJt65 => Sys2Proof.Machine.execMrgJt65 s
  | .mrgJt9 => Sys2Proof.Machine.execMrgJt9 s
  | .mrgJt4 => Sys2Proof.Machine.execMrgJt4 s
  | .mrgWspr => Sys2Proof.Machine.execMrgWspr s
  | .mrgFsq => Sys2Proof.Machine.execMrgFsq s

end Sys2Proof.Machine
end

