-- ==== Sys2Proof/Machine/Step.lean ====
section
/-! DEFINITION. One step of the machine: the next host access is served, and a write to CMD runs one command to
completion (45_control.md R170, R172). With no access pending the CORE does nothing (60_exceptions.md R193). -/

namespace Sys2Proof.Machine

/-- One step (R170; log 4). -/
def step (s : State) : Host.Outcome State Fault Refusal :=
  match takeAccess s with
  | none => .next s
  | some (acc, s') =>
    match commandOf acc with
    | none => .next (serve acc s')
    | some b =>
      match decode [b] with
      | .ok (i, _) => exec i s'
      | .error _ => execReserved b s'

/-- The state in which the host's next access writes the instruction's byte to CMD, so that the next step runs it
(log 4). A command is one byte (30_encoding.md R60), the low byte of the table word. -/
def State.withFetchWord (s : State) (_nbits w : Nat) : State :=
  { s with pending := issue (BitVec.ofNat 8 w) :: s.pending }

end Sys2Proof.Machine
end

