-- ==== Sys2Proof/Machine/CfgOK.lean ====
section
/-! DEFINITION. `CfgOK`, the well-formedness of CFG (00_scope.md R9, with the constraints of 40_codec.md R81, R83, R85 and
41_packer.md R101). A CFG that fails it has no behaviour in the spec; it is a premise of the statements that need it
(log 3). -/

namespace Sys2Proof.Machine

/-- A printable ASCII character that is not a letter, a digit or space (R81 item 2). -/
def isPunct (ch : Byte) : Bool :=
  isPrintable ch && !(isUpper ch || isLower ch || isDigit ch || isSpace ch)

/-- The constraints on ROM_JT (R81). Item 3, no lowercase letter, follows from item 2. -/
structure JtRomOK (cfg : Cfg) : Prop where
  /-- item 1 -/
  defined : ∀ ch, (isUpper ch || isDigit ch || isSpace ch) = true → (jtCode cfg ch).isSome = true
  /-- items 2 and 3 -/
  others : ∀ ch, (jtCode cfg ch).isSome = true → (isUpper ch || isDigit ch || isSpace ch || isPunct ch) = true
  /-- item 4, injective -/
  injective : ∀ a b c, jtCode cfg a = some c → jtCode cfg b = some c → a = b
  /-- item 4, the image is 0..N_JT-1 -/
  image : ∀ c, (∃ ch, jtCode cfg ch = some c) ↔ c < cfg.nJt
  /-- item 5 -/
  size : cfg.nJt ≤ 256

/-- The constraints on ROM_WSPR (R83). Item 3, no entry shared between positions, holds by the form of the table: each
position has its own (log 12). -/
structure WsprRomOK (cfg : Cfg) : Prop where
  /-- item 1 -/
  alphabet : ∀ pos ch c, wsprCode cfg pos ch = some c → alphaWspr ch = true
  /-- item 2 -/
  injective : ∀ pos a b c, wsprCode cfg pos a = some c → wsprCode cfg pos b = some c → a = b
  /-- item 4: each locator position is a letter position or a digit position -/
  kinds : cfg.locLetter.length = cfg.locLen
  /-- item 4: at a locator letter position every digit reads none -/
  letters : ∀ i, cfg.locLetter[i]? = some true → ∀ ch, isDigit ch = true → wsprCode cfg (cfg.callLen + i) ch = none
  /-- item 5 -/
  small : ∀ pos ch c, wsprCode cfg pos ch = some c → c < 256

/-- Carriage return, line feed, delete, backspace (R85, R87). -/
def fsqControls : List Byte := [0x0D#8, 0x0A#8, 0x7F#8, 0x08#8]

/-- The constraints on ROM_FSQ (R85). -/
structure FsqRomOK (cfg : Cfg) : Prop where
  /-- item 1, printable ASCII -/
  printable : ∀ ch, isPrintable ch = true → (fsqCode cfg ch).isSome = true
  /-- item 1, the four control codes -/
  controls : ∀ ch ∈ fsqControls, (fsqCode cfg ch).isSome = true
  /-- item 1, six further bytes: idle and the five symbols (log 12) -/
  others : ∃ extra : List Byte, extra.length = 6 ∧ extra.Nodup ∧
    ∀ ch ∈ extra, isPrintable ch = false ∧ ch ∉ fsqControls ∧ (fsqCode cfg ch).isSome = true
  /-- item 2 -/
  injective : ∀ a b u, fsqCode cfg a = some u → fsqCode cfg b = some u → a = b
  /-- item 3, the continuation codes -/
  cont : ∃ cont : List Nat, ∀ ch e, fsqEntry cfg ch = some e → e.first ∉ cont ∧ ∀ u2, e.second = some u2 → u2 ∈ cont
  /-- each unit is a unit of FSQ_UNIT_W bits -/
  width : ∀ ch u, fsqCode cfg ch = some u → ∀ x ∈ u, x < 2 ^ cfg.fsqUnitW

/-- The packer of a mode whose message has `msgLen` codes (R9 item 3, R101 item 4). DESIGN CHOICE (log
18): it has R9's and R101's constraints alone, which do not force the all-space message to pack, as 41_packer.md R105 says
it does; a packer of some CFG may raise InvalidField on it. -/
structure PackOK (msgLen : Nat) (m : PackCfg) : Prop where
  widths : (m.fields.map Field.width).sum = m.width
  divides : m.cellW ∣ m.width
  message : msgLen ≤ Config.cap
  cells : m.width / m.cellW ≤ Config.cap
  /-- R101 item 4: the codes can be recovered from the field values -/
  injective : ∀ c c' p vs, c.length = msgLen → c'.length = msgLen →
    scan (fieldCheck c p) 0 m.fields = .ok vs → scan (fieldCheck c' p) 0 m.fields = .ok vs → c = c'

/-- R101 item 2: a JT field does not depend on PWR or T2. -/
def JtFieldsOK (m : PackCfg) : Prop :=
  ∀ fld ∈ m.fields, ∀ c p p', fieldValue c p fld.value = fieldValue c p' fld.value

/-- R101 item 3: the callsign code depends on the callsign codes alone, the locator code on the locator codes alone, and
the power level on PWR + T2 alone. -/
structure WsprFieldsOK (cfg : Cfg) : Prop where
  count : cfg.packWspr.fields.length = 3
  call : ∀ fld, cfg.packWspr.fields[0]? = some fld → ∀ c c' p p', c.take cfg.callLen = c'.take cfg.callLen →
    fieldValue c p fld.value = fieldValue c' p' fld.value
  loc : ∀ fld, cfg.packWspr.fields[1]? = some fld → ∀ c c' p p',
    (c.drop cfg.callLen).take cfg.locLen = (c'.drop cfg.callLen).take cfg.locLen →
    fieldValue c p fld.value = fieldValue c' p' fld.value
  power : ∀ fld, cfg.packWspr.fields[2]? = some fld → ∀ c c' p, fieldValue c p fld.value = fieldValue c' p fld.value

/-- The convolutional encoder of a mode (R9 item 4). -/
structure ConvOK (packW fecN : Nat) (c : ConvCfg) : Prop where
  one : 1 ≤ c.k
  g0 : c.g0 < 2 ^ c.k
  g1 : c.g1 < 2 ^ c.k
  room : packW ≤ c.len
  twice : fecN = 2 * c.len
  cap : 2 * c.len ≤ Config.cap

/-- The interleaver of a mode (R9 items 5 and 6). -/
structure IlvOK (c : IlvCfg) : Prop where
  length : c.perm.length = c.fecN
  nodup : c.perm.Nodup
  range : ∀ q ∈ c.perm, q < c.fecN
  group : 1 ≤ c.grp
  divides : c.grp ∣ c.pre0 + c.fecN + c.post0
  symbol : c.symW ≤ 8

/-- Slot insertion (R9 item 7). -/
structure SlotOK (ilv : IlvCfg) (m : MrgCfg) : Prop where
  marks : m.syncIs.length = m.outN
  vals : m.syncVal.length = m.outN
  slots : m.syncIs.count false = ilv.prmN
  small : ∀ v ∈ m.syncVal, v ≤ 255
  data : 2 ^ ilv.symW - 1 + m.dataOfs ≤ 255

/-- Additive combination (R9 item 8). -/
structure AddOK (ilv : IlvCfg) (m : MrgCfg) : Prop where
  count : ilv.prmN = m.outN
  symbol : ilv.symW = 1
  vals : m.syncVal.length = m.outN
  bits : ∀ v ∈ m.syncVal, v ≤ 1

/-- The merger of a mode under its discipline (R9 items 7, 8, 9). -/
structure MrgOK (ilv : IlvCfg) (m : MrgCfg) : Prop where
  slot : m.merge = .slot → SlotOK ilv m
  add : m.merge = .add → AddOK ilv m
  cap : m.outN ≤ Config.cap

/-- The values the document fixes (R9 item 1, R8). -/
structure FixedOK (cfg : Cfg) : Prop where
  outJt65 : cfg.mrgJt65.outN = 126
  outJt9 : cfg.mrgJt9.outN = 85
  outJt4 : cfg.mrgJt4.outN = 207
  outWspr : cfg.mrgWspr.outN = 162
  packWspr : cfg.packWspr.width = 50
  pkdJt65 : cfg.packJt65.cellW = 6
  pkdJt9 : cfg.packJt9.cellW = 1
  pkdJt4 : cfg.packJt4.cellW = 1
  pkdWspr : cfg.packWspr.cellW = 1
  fecJt65 : cfg.ilvJt65.cellW = 6
  fecJt9 : cfg.ilvJt9.cellW = 1
  fecJt4 : cfg.ilvJt4.cellW = 1
  fecWspr : cfg.ilvWspr.cellW = 1
  callLen : cfg.callLen = 6
  mergeJt65 : cfg.mrgJt65.merge = .slot
  mergeJt9 : cfg.mrgJt9.merge = .slot
  mergeWspr : cfg.mrgWspr.merge = .add
  unitW : cfg.fsqUnitW = 5
  permWspr : cfg.ilvWspr.perm = brsel 162

/-- CfgOK (R9). -/
structure CfgOK (cfg : Cfg) : Prop where
  fixed : FixedOK cfg
  romJt : JtRomOK cfg
  romWspr : WsprRomOK cfg
  romFsq : FsqRomOK cfg
  packJt65 : PackOK cfg.msgLenJt65 cfg.packJt65
  packJt9 : PackOK cfg.msgLenJt9 cfg.packJt9
  packJt4 : PackOK cfg.msgLenJt4 cfg.packJt4
  packWspr : PackOK cfg.msgLenWspr cfg.packWspr
  fieldsJt65 : JtFieldsOK cfg.packJt65
  fieldsJt9 : JtFieldsOK cfg.packJt9
  fieldsJt4 : JtFieldsOK cfg.packJt4
  fieldsWspr : WsprFieldsOK cfg
  convJt9 : ConvOK cfg.packJt9.width cfg.ilvJt9.fecN cfg.convJt9
  convJt4 : ConvOK cfg.packJt4.width cfg.ilvJt4.fecN cfg.convJt4
  convWspr : ConvOK cfg.packWspr.width cfg.ilvWspr.fecN cfg.convWspr
  ilvJt65 : IlvOK cfg.ilvJt65
  ilvJt9 : IlvOK cfg.ilvJt9
  ilvJt4 : IlvOK cfg.ilvJt4
  ilvWspr : IlvOK cfg.ilvWspr
  mrgJt65 : MrgOK cfg.ilvJt65 cfg.mrgJt65
  mrgJt9 : MrgOK cfg.ilvJt9 cfg.mrgJt9
  mrgJt4 : MrgOK cfg.ilvJt4 cfg.mrgJt4
  mrgWspr : MrgOK cfg.ilvWspr cfg.mrgWspr

end Sys2Proof.Machine
end

