-- ==== Sys2Proof/Safety.lean ====
section
/-! DEFINITION. The terms the statements use: what a command leaves unchanged (its frame), what it means that a command
completed with a result or raised an error, the invariant of the machine, and when two states agree on everything a
command may read. -/

namespace Sys2Proof.Machine

/-- Nothing but the buffers `dests`, their lengths, the error registers and SR may differ: every other register and
length is the same, and every address outside the windows of `dests` reads as before. -/
structure Frame (dests : List Buf) (s t : State) : Prop where
  pwr : t.pwr = s.pwr
  flags : t.flags = s.flags
  cfg : t.cfg = s.cfg
  draw : t.draw = s.draw
  pending : t.pending = s.pending
  readData : t.readData = s.readData
  len : ∀ b, b ∉ dests → t.len b = s.len b
  cell : ∀ a, (∀ b ∈ dests, b.holds a = false) → t.cell a = s.cell a
  host : ∀ a, (∀ b ∈ dests, b.holds a = false) → (a ∈ t.hostCells ↔ a ∈ s.hostCells)

/-- A command completed: the destination buffer holds exactly the values `vs`, none of them cut to 8 bits, the error
registers are as before, and the frame holds. (The destination's cells at or beyond its new length may be left at any
value, 10_state.md R28.) SR is not spoken of here. -/
structure Completed (d : Buf) (vs : List Nat) (s t : State) : Prop where
  len : (t.len d).toNat = vs.length
  vals : values d t = vs
  status : t.status = s.status
  errcode : t.errcode = s.errcode
  erridx : t.erridx = s.erridx
  frame : Frame [d] s t

/-- The destination buffer of a command (30_encoding.md R64). -/
def destOf : Instr → Option Buf
  | .nop | .clr => none
  | .codeJt65 | .codeJt9 | .codeJt4 | .codeWspr | .codeFsq => some .cod
  | .packJt65 | .packJt9 | .packJt4 | .packWspr => some .pkd
  | .convJt9 | .convJt4 | .convWspr => some .fec
  | .ilvJt65 | .ilvJt9 | .ilvJt4 | .ilvWspr => some .prm
  | .mrgJt65 | .mrgJt9 | .mrgJt4 | .mrgWspr | .mrgFsq => some .out

/-- The buffers that an error entry empties (60_exceptions.md R184). -/
def emptied (dest : Option Buf) : List Buf :=
  match dest with
  | none => [.out]
  | some b => [b, .out]

/-- A command raised an error: exactly the error entry of 60_exceptions.md R184 has happened. The cells that the host
has written since the last command that wrote their buffer keep their values, in the emptied buffers too (R184; 10_state.md
R28). That SR stands is log 9's choice where the command is a CONV command. -/
structure Raised (dest : Option Buf) (kind : ErrKind) (idx : Nat) (s t : State) : Prop where
  errcode : t.errcode = kind.code
  erridx : t.erridx.toNat = idx % 256
  status : t.status = 1#1
  emptied : ∀ b ∈ emptied dest, t.len b = 0#8
  sr : t.sr = s.sr
  host : t.hostCells = s.hostCells
  kept : ∀ a ∈ s.hostCells, t.cell a = s.cell a
  frame : Frame (Machine.emptied dest) s t

/-- The invariant of the machine: CFG is well formed (00_scope.md R9); the memory is canonical and lists buffer cells
only (20_memory.md R45); every cell that the host has written since the last command that wrote its buffer holds a value
(10_state.md R28); ERRCODE is at most 4, it is 0 exactly when ERR is 0, and ERRIDX is 0 when it is 0
(10_state.md R24 to R26); SR is a value of K[m] bits for a mode m with an encoder (R31). -/
structure Invariant (s : State) : Prop where
  cfg : CfgOK s.cfg
  mem : Memory.WF s.mem
  hostSorted : s.hostCells.Pairwise (· < ·)
  hostListed : ∀ a ∈ s.hostCells, (Memory.read s.mem a).isSome = true
  code : s.errcode.toNat ≤ 4
  flag : s.status = 1#1 ↔ s.errcode ≠ 0#3
  index : s.errcode = 0#3 → s.erridx = 0#8
  sr : s.sr < 2 ^ s.cfg.convJt9.k ∨ s.sr < 2 ^ s.cfg.convJt4.k ∨ s.sr < 2 ^ s.cfg.convWspr.k

/-- Two states agree on everything a command may read: the registers, the lengths, CFG, and the contents of each buffer
below its length (10_state.md R28). They may differ in SR, in every other cell, in the draws and in the host's queue. -/
structure SameInputs (s t : State) : Prop where
  status : t.status = s.status
  errcode : t.errcode = s.errcode
  erridx : t.erridx = s.erridx
  pwr : t.pwr = s.pwr
  flags : t.flags = s.flags
  cfg : t.cfg = s.cfg
  len : ∀ b, t.len b = s.len b
  contents : ∀ b, contents b t = contents b s

end Sys2Proof.Machine
end

