-- ==== Sys2Proof/Certificates/Slice0/Obligations.lean ====
section
/-! DEFINITION. The statements about the machine, for the provers. Each docstring names the rule of spec/ it formalises
or the log entry that makes it the model's own choice. A statement that needs a well-formed configuration takes
`CfgOK` as a premise, so it holds for every configuration that 00_scope.md R9 admits and rests on no value of REF. -/

open Sys2Proof Sys2Proof.Machine

namespace Sys2Proof.Claims

/-- The opcode map of 30_encoding.md R65, byte by byte. -/
def opcodeMap : List (Byte × Instr) :=
  [ (0x00#8, .nop), (0x10#8, .clr),
    (0x20#8, .codeJt65), (0x21#8, .codeJt9), (0x22#8, .codeJt4), (0x23#8, .codeWspr), (0x24#8, .codeFsq),
    (0x30#8, .packJt65), (0x31#8, .packJt9), (0x32#8, .packJt4), (0x33#8, .packWspr),
    (0x41#8, .convJt9), (0x42#8, .convJt4), (0x43#8, .convWspr),
    (0x50#8, .ilvJt65), (0x51#8, .ilvJt9), (0x52#8, .ilvJt4), (0x53#8, .ilvWspr),
    (0x60#8, .mrgJt65), (0x61#8, .mrgJt9), (0x62#8, .mrgJt4), (0x63#8, .mrgWspr), (0x64#8, .mrgFsq) ]

/-- The state in which a host access is served: it has left the queue, and a new draw of unspecified values begins
(log 4, 5). -/
def served (s : State) (rest : List HostAccess) : State := { s with pending := rest, draw := s.draw + 1 }

/-- The value of a host read of the registers and of the cells that hold a specified value (20_memory.md R45; 10_state.md
R23 to R27). Nothing is said of the value of any other address: it is unspecified (R28, R46). -/
structure ReadValue (s : State) (a : HostAddr) (v : Byte) : Prop where
  cmd : a = 0x000#11 → v = 0#8
  status : a = 0x001#11 → v.toNat = s.status.toNat
  errcode : a = 0x002#11 → v.toNat = s.errcode.toNat
  erridx : a = 0x003#11 → v = s.erridx
  pwr : a = 0x004#11 → v = s.pwr
  flags : a = 0x005#11 → v.toNat = s.flags.toNat
  chrLen : a = 0x008#11 → v = s.chrLen
  codLen : a = 0x009#11 → v = s.codLen
  pkdLen : a = 0x00A#11 → v = s.pkdLen
  fecLen : a = 0x00B#11 → v = s.fecLen
  prmLen : a = 0x00C#11 → v = s.prmLen
  outLen : a = 0x00D#11 → v = s.outLen
  cell : ∀ (b : Buf) (i : Nat) (w : Byte), i < (s.len b).toNat → a.toNat = b.num * 0x100 + i → i < 255 →
    Memory.read s.mem (b.num * 0x100 + i) = some w → v = w

/-- The PackedField of field values, field f at bit offset `sum_(g > f) FW[g]` (41_packer.md R102). -/
def packedField (fields : List Field) (vs : List Nat) : Nat :=
  ((List.range fields.length).map fun f =>
    vs.getD f 0 * 2 ^ ((fields.drop (f + 1)).map Field.width).sum).sum

/-- The field values of a PACK command that all are defined and fit (R104). -/
def FieldValues (m : PackCfg) (codes : List Nat) (p : Nat) (vs : List Nat) : Prop :=
  vs.length = m.fields.length ∧
  ∀ (f : Nat) fld v, m.fields[f]? = some fld → vs[f]? = some v → fieldValue codes p fld.value = some v ∧ v < 2 ^ fld.width

/-- The PACK commands with their message lengths and packers. -/
def packStages (cfg : Cfg) : List (Instr × Nat × PackCfg) :=
  [ (.packJt65, cfg.msgLenJt65, cfg.packJt65), (.packJt9, cfg.msgLenJt9, cfg.packJt9),
    (.packJt4, cfg.msgLenJt4, cfg.packJt4), (.packWspr, cfg.callLen + cfg.locLen, cfg.packWspr) ]

/-- The CONV commands with their packed widths and encoders. -/
def convStages (cfg : Cfg) : List (Instr × Nat × ConvCfg) :=
  [ (.convJt9, cfg.packJt9.width, cfg.convJt9), (.convJt4, cfg.packJt4.width, cfg.convJt4),
    (.convWspr, cfg.packWspr.width, cfg.convWspr) ]

/-- The parity of the input bits that a generator mask selects at step t: mask bit j selects the bit of j steps ago, and
the bits after the data are 0 (42_convolutional.md R116 points b and c). -/
def tapParity (k g : Nat) (d : List Nat) (t : Nat) : Nat :=
  ((List.range k).countP fun j => g.testBit j && decide (j ≤ t) && d.getD (t - j) 0 == 1) % 2

/-- The ILV commands with their interleavers. -/
def ilvStages (cfg : Cfg) : List (Instr × IlvCfg) :=
  [(.ilvJt65, cfg.ilvJt65), (.ilvJt9, cfg.ilvJt9), (.ilvJt4, cfg.ilvJt4), (.ilvWspr, cfg.ilvWspr)]

/-- Gray coding where `g` puts it (40_codec.md R86, 43_interleaver.md R142). -/
def grayAt (here g : GrayPos) (v : Nat) : Nat := if g = here then v ^^^ (v / 2) else v

/-- Symbol q of the formatter over the permuted cells b: GRP cells of the stream joined, the earliest the most
significant, where the stream is PRE0 zeros, b, and POST0 zeros (R139, R141). -/
def joinedSymbol (c : IlvCfg) (b : List Nat) (q : Nat) : Nat :=
  ((List.range c.grp).map fun j =>
    (if q * c.grp + j < c.pre0 then 0 else b.getD (q * c.grp + j - c.pre0) 0) * 2 ^ (c.cellW * (c.grp - 1 - j))).sum

/-- The MRG commands that a configuration gives slot insertion: JT65, JT9, and JT4 when MERGE[JT4] is SLOT (R155). -/
def slotStages (cfg : Cfg) : List (Instr × IlvCfg × MrgCfg) :=
  [(.mrgJt65, cfg.ilvJt65, cfg.mrgJt65), (.mrgJt9, cfg.ilvJt9, cfg.mrgJt9)] ++
    if cfg.mrgJt4.merge = .slot then [(.mrgJt4, cfg.ilvJt4, cfg.mrgJt4)] else []

/-- The MRG commands that a configuration gives additive combination: WSPR, and JT4 when MERGE[JT4] is ADD (R155). -/
def addStages (cfg : Cfg) : List (Instr × IlvCfg × MrgCfg) :=
  [(.mrgWspr, cfg.ilvWspr, cfg.mrgWspr)] ++
    if cfg.mrgJt4.merge = .add then [(.mrgJt4, cfg.ilvJt4, cfg.mrgJt4)] else []

end Sys2Proof.Claims

open Sys2Proof.Claims

/-! ## Encoding -/

/-- R65: each of the 23 bytes decodes to its command. -/
def Obligations.OpcodeMapDecodes : Prop :=
  ∀ e ∈ opcodeMap, decode [e.1] = .ok (e.2, [])

/-- R66: every byte outside the map is refused by the decoder; there are 233 of them. -/
def Obligations.OtherBytesAreReserved : Prop :=
  (∀ b : Byte, b ∉ opcodeMap.map Prod.fst → ∃ e, decode [b] = .error e) ∧
  ((List.range 256).filter fun n => BitVec.ofNat 8 n ∉ opcodeMap.map Prod.fst).length = 233

/-- Decoding the encoding of a command gives the command and what follows it (R60, R61, R68). -/
def Obligations.DecodeOfEncode : Prop :=
  ∀ (i : Instr) (rest : List Byte), i.wellFormed = true → decode (encode i ++ rest) = .ok (i, rest)

/-- A list of bytes that decodes to a command begins with exactly that command's encoding: each command has one byte
(R60, R65, R67). -/
def Obligations.DecodedBytesAreTheEncoding : Prop :=
  ∀ (bs rest : List Byte) (i : Instr), decode bs = .ok (i, rest) → bs = encode i ++ rest

/-! ## The step and the host's accesses -/

/-- A write of a command's byte to CMD is one step, which is exec of that command (45_control.md R170). -/
def Obligations.StepRunsTheCommand : Prop :=
  ∀ (s : State) (b : Byte) (i : Instr) (rest : List HostAccess),
    s.pending = .write 0x000#11 b :: rest → decode [b] = .ok (i, []) → step s = exec i (served s rest)

/-- R175: a reserved byte raises ConfigurationError with the byte as index and no destination length register while ERR
is 0, and does nothing while ERR is 1. -/
def Obligations.ReservedByteRaises : Prop :=
  ∀ (s : State) (b : Byte) (rest : List HostAccess),
    s.pending = .write 0x000#11 b :: rest → b ∉ opcodeMap.map Prod.fst →
    (s.status = 0#1 → ∃ t, step s = .next t ∧ Raised none .configurationError b.toNat (served s rest) t) ∧
    (s.status = 1#1 → step s = .next (served s rest))

/-- With no host access pending the CORE does nothing (60_exceptions.md R193; log 4). -/
def Obligations.IdleStepChangesNothing : Prop :=
  ∀ s : State, s.pending = [] → step s = .next s

/-- R45, R47: a host read returns the register or the cell and has no side effect: of the state, only the queue, the
draw and the value handed to the host change (all three the model's own fields, log 4, 5). -/
def Obligations.HostReadReturnsAndChangesNothing : Prop :=
  ∀ (s : State) (a : HostAddr) (rest : List HostAccess), s.pending = .read a :: rest →
    ∃ v, step s = .next { served s rest with readData := some v } ∧ ReadValue s a v

/-- R45, R24, R25, R27: a host write to PWR stores the byte, a write to FLAGS stores bit 0 alone, and a write to STATUS,
ERRCODE, ERRIDX or a reserved address is ignored. -/
def Obligations.HostWritesRegisters : Prop :=
  ∀ (s : State) (a : HostAddr) (v : Byte) (rest : List HostAccess), s.pending = .write a v :: rest →
    (a = 0x004#11 → step s = .next { served s rest with pwr := v }) ∧
    (a = 0x005#11 → step s = .next { served s rest with flags := BitVec.ofBool (v.getLsbD 0) }) ∧
    (a = 0x001#11 ∨ a = 0x002#11 ∨ a = 0x003#11 → step s = .next (served s rest)) ∧
    (a = 0x006#11 ∨ a = 0x007#11 ∨ (0x00E ≤ a.toNat ∧ a.toNat ≤ 0x0FF) ∨ 0x700 ≤ a.toNat ∨
      (0x100 ≤ a.toNat ∧ a.toNat % 0x100 = 0xFF) → step s = .next (served s rest))

/-- R45: a host write to cell i of a buffer stores the byte there and changes no other cell, no length and no other
register; below the buffer's length a read then returns the byte (R49). The cell joins those that the host has written
(R28; the model's own field, log 7). -/
def Obligations.HostWriteStoresOneCell : Prop :=
  ∀ (s : State) (a : HostAddr) (v : Byte) (rest : List HostAccess) (b : Buf) (i : Nat),
    s.pending = .write a v :: rest → i < 255 → a.toNat = b.num * 0x100 + i →
    ∃ t, step s = .next t ∧ t = { served s rest with mem := t.mem, hostCells := t.hostCells } ∧
      (∀ x, x ∈ t.hostCells ↔ x = b.num * 0x100 + i ∨ x ∈ s.hostCells) ∧
      (∀ x, x ≠ b.num * 0x100 + i → Memory.read t.mem x = Memory.read s.mem x) ∧
      Memory.read t.mem (b.num * 0x100 + i) = some v ∧
      (i < (s.len b).toNat → readAddr a t = v)

/-- R45, R28, R49: a host write to a length register stores the byte there; every other register and length, every cell
of another buffer, every cell below the new length, and every cell that the host has written since the last command
that wrote the buffer stand. The other cells that the length leaves behind lose their value: the
model's reading of R28 (log 7). -/
def Obligations.HostWriteSetsOneLength : Prop :=
  ∀ (s : State) (a : HostAddr) (v : Byte) (rest : List HostAccess) (b : Buf),
    s.pending = .write a v :: rest → a.toNat = 7 + b.num →
    ∃ t, step s = .next t ∧ t.len b = v ∧ (∀ c, c ≠ b → t.len c = s.len c) ∧
      t.status = s.status ∧ t.errcode = s.errcode ∧ t.erridx = s.erridx ∧ t.pwr = s.pwr ∧ t.flags = s.flags ∧
      t.sr = s.sr ∧ t.cfg = s.cfg ∧ t.pending = rest ∧ t.readData = s.readData ∧
      t.hostCells = s.hostCells ∧ (∀ x ∈ s.hostCells, Memory.read t.mem x = Memory.read s.mem x) ∧
      (∀ x, b.holds x = false → Memory.read t.mem x = Memory.read s.mem x) ∧
      (∀ i, i < v.toNat → Memory.read t.mem (b.addr i) = Memory.read s.mem (b.addr i)) ∧
      (∀ i, v.toNat ≤ i → i < (s.len b).toNat → b.addr i ∉ s.hostCells → Memory.read t.mem (b.addr i) = none)

/-- R49, R28, R184: a cell that the host has written keeps the value of the host's last write to it, whatever the lengths
become and whatever errors are raised, until CLR or a command that writes its buffer and ends without an error. -/
def Obligations.HostWrittenCellsAreKept : Prop :=
  ∀ (s t : State) (a : Nat), step s = .next t → a ∈ s.hostCells →
    (a ∈ t.hostCells ∧
      (Memory.read t.mem a = Memory.read s.mem a ∨
        ∃ x v rest, s.pending = .write x v :: rest ∧ x.toNat = a ∧ Memory.read t.mem a = some v)) ∨
    ∃ v rest, s.pending = .write 0x000#11 v :: rest ∧
      (v = 0x10#8 ∨ ∃ i d, decode [v] = .ok (i, []) ∧ destOf i = some d ∧ d.holds a = true ∧ t.status = 0#1)

/-- R49, R28: the host writes a cell, sets the buffer's length to any n, then to an m above the cell's index, and reads
the cell: it reads the byte it wrote. -/
def Obligations.HostWrittenCellReturnsWithTheLength : Prop :=
  ∀ (s : State) (b : Buf) (i : Nat) (a l : HostAddr) (w n m : Byte) (rest : List HostAccess),
    a.toNat = b.num * 0x100 + i → i < m.toNat → l.toNat = 7 + b.num →
    s.pending = .write a w :: .write l n :: .write l m :: .read a :: rest →
    ∃ s1 s2 s3 t, step s = .next s1 ∧ step s1 = .next s2 ∧ step s2 = .next s3 ∧ step s3 = .next t ∧
      t.readData = some w

/-! ## Control -/

/-- R173: NOP changes no state, whether ERR is 0 or 1. -/
def Obligations.NopChangesNothing : Prop :=
  ∀ s : State, exec .nop s = .next s

/-- R38: the state after CLR is the state after reset but for PWR and FLAGS, which CLR keeps, and for CFG, the
draw, the queue and the value handed to the host, the model's own, which it keeps too. That no cell holds a specified
value afterwards is the model's reading (log 7). -/
def Obligations.ClrIsResetButPwrAndFlags : Prop :=
  ∀ s : State, exec .clr s = .next { State.reset with
    pwr := s.pwr, flags := s.flags, cfg := s.cfg, draw := s.draw, pending := s.pending, readData := s.readData }

/-- R37, R200: what reset leaves: every register, every length and SR 0, and no cell with a specified value. -/
def Obligations.ResetLeavesZeros : Prop :=
  State.reset.status = 0#1 ∧ State.reset.errcode = 0#3 ∧ State.reset.erridx = 0#8 ∧ State.reset.pwr = 0#8 ∧
  State.reset.flags = 0#1 ∧ (∀ b, State.reset.len b = 0#8) ∧ State.reset.sr = 0 ∧
  ∀ a, Memory.read State.reset.mem a = none

/-- R171: while ERR is 1, every command byte but 0x10 (CLR) changes nothing. -/
def Obligations.ErrorGatesEveryByteButClr : Prop :=
  ∀ (s : State) (b : Byte) (rest : List HostAccess),
    s.pending = .write 0x000#11 b :: rest → s.status = 1#1 → b ≠ 0x10#8 → step s = .next (served s rest)

/-- No command and no host access stops the machine (70_reset_and_hazards.md R210; log 11). -/
def Obligations.TheMachineNeverStops : Prop :=
  (∀ (i : Instr) (s : State), ∃ t, exec i s = .next t) ∧ ∀ s : State, ∃ t, step s = .next t

/-! ## CODE -/

/-- R89, R90, R91: CODE.JT65, CODE.JT9 and CODE.JT4 put the codes of the characters in COD and complete them with the
code of space up to MSG_LEN. -/
def Obligations.CodeJtCompletes : Prop :=
  ∀ (s : State) (i : Instr) (n : Nat), CfgOK s.cfg → s.status = 0#1 →
    (i, n) ∈ [(Instr.codeJt65, s.cfg.msgLenJt65), (.codeJt9, s.cfg.msgLenJt9), (.codeJt4, s.cfg.msgLenJt4)] →
    s.chrLen.toNat ≤ n → (∀ ch ∈ contents .chr s, (jtCode s.cfg ch).isSome = true) →
    ∃ t codes, exec i s = .next t ∧ Completed .cod codes s t ∧ t.sr = s.sr ∧ codes.length = n ∧
      (∀ (k : Nat) ch, (contents .chr s)[k]? = some ch → codes[k]? = jtCode s.cfg ch) ∧
      ∀ k, s.chrLen.toNat ≤ k → k < n → codes[k]? = jtCode s.cfg 0x20#8

/-- R92: CODE.WSPR puts the code of each character at its position in COD. -/
def Obligations.CodeWsprCompletes : Prop :=
  ∀ s : State, CfgOK s.cfg → s.status = 0#1 → s.chrLen.toNat = s.cfg.callLen + s.cfg.locLen →
    (∀ (k : Nat) ch, (contents .chr s)[k]? = some ch → alphaWspr ch = true ∧ (wsprCode s.cfg k ch).isSome = true) →
    ∃ t codes, exec .codeWspr s = .next t ∧ Completed .cod codes s t ∧ t.sr = s.sr ∧
      codes.length = s.cfg.callLen + s.cfg.locLen ∧
      ∀ (k : Nat) ch, (contents .chr s)[k]? = some ch → codes[k]? = wsprCode s.cfg k ch

/-- R93: CODE.FSQ puts the units of the characters in COD, one after the other, with no padding. -/
def Obligations.CodeFsqCompletes : Prop :=
  ∀ (s : State) (units : List (List Nat)), CfgOK s.cfg → s.status = 0#1 → units.length = s.chrLen.toNat →
    (∀ (k : Nat) ch, (contents .chr s)[k]? = some ch → units[k]? = fsqCode s.cfg ch ∧ (fsqCode s.cfg ch).isSome = true) →
    units.flatten.length ≤ 255 →
    ∃ t, exec .codeFsq s = .next t ∧ Completed .cod units.flatten s t ∧ t.sr = s.sr

/-- R89, R90, R91, R186: a JT message with more characters than MSG_LEN raises MessageTooLong, whatever its characters;
otherwise the lowest character that ROM_JT does not hold raises UnsupportedCharacter. -/
def Obligations.CodeJtRaises : Prop :=
  ∀ (s : State) (i : Instr) (n : Nat), s.status = 0#1 →
    (i, n) ∈ [(Instr.codeJt65, s.cfg.msgLenJt65), (.codeJt9, s.cfg.msgLenJt9), (.codeJt4, s.cfg.msgLenJt4)] →
    (n < s.chrLen.toNat → ∃ t, exec i s = .next t ∧ Raised (some .cod) .messageTooLong n s t) ∧
    (∀ (k : Nat) ch, s.chrLen.toNat ≤ n → (contents .chr s)[k]? = some ch → jtCode s.cfg ch = none →
      (∀ (j : Nat) c, j < k → (contents .chr s)[j]? = some c → (jtCode s.cfg c).isSome = true) →
      ∃ t, exec i s = .next t ∧ Raised (some .cod) .unsupportedCharacter k s t)

/-- R92, R186: CODE.WSPR raises MessageTooLong or InvalidField on a wrong length, and at the lowest failing character
UnsupportedCharacter outside the WSPR alphabet and InvalidField inside it. -/
def Obligations.CodeWsprRaises : Prop :=
  ∀ (s : State) (n : Nat), s.status = 0#1 → n = s.cfg.callLen + s.cfg.locLen →
    (n < s.chrLen.toNat → ∃ t, exec .codeWspr s = .next t ∧ Raised (some .cod) .messageTooLong n s t) ∧
    (s.chrLen.toNat < n →
      ∃ t, exec .codeWspr s = .next t ∧ Raised (some .cod) .invalidField s.chrLen.toNat s t) ∧
    (∀ (k : Nat) ch, s.chrLen.toNat = n → (contents .chr s)[k]? = some ch →
      (∀ (j : Nat) c, j < k → (contents .chr s)[j]? = some c →
        alphaWspr c = true ∧ (wsprCode s.cfg j c).isSome = true) →
      (alphaWspr ch = false →
        ∃ t, exec .codeWspr s = .next t ∧ Raised (some .cod) .unsupportedCharacter k s t) ∧
      (alphaWspr ch = true → wsprCode s.cfg k ch = none →
        ∃ t, exec .codeWspr s = .next t ∧ Raised (some .cod) .invalidField k s t))

/-- R93, R186: the lowest character that ROM_FSQ does not hold raises UnsupportedCharacter, whatever the length; a
message of more than 255 units raises MessageTooLong with index 255. -/
def Obligations.CodeFsqRaises : Prop :=
  ∀ s : State, s.status = 0#1 →
    (∀ (k : Nat) ch, (contents .chr s)[k]? = some ch → fsqCode s.cfg ch = none →
      (∀ (j : Nat) c, j < k → (contents .chr s)[j]? = some c → (fsqCode s.cfg c).isSome = true) →
      ∃ t, exec .codeFsq s = .next t ∧ Raised (some .cod) .unsupportedCharacter k s t) ∧
    (∀ units : List (List Nat), units.length = s.chrLen.toNat →
      (∀ (k : Nat) ch, (contents .chr s)[k]? = some ch → units[k]? = fsqCode s.cfg ch ∧ (fsqCode s.cfg ch).isSome = true) →
      255 < units.flatten.length →
      ∃ t, exec .codeFsq s = .next t ∧ Raised (some .cod) .messageTooLong 255 s t)

/-- R85 item 3, R93: two FSQ messages with the same units are the same message. -/
def Obligations.FsqUnitsDetermineTheMessage : Prop :=
  ∀ (cfg : Cfg) (m m' : List Byte) (us us' : List (List Nat)), CfgOK cfg →
    m.map (fsqCode cfg) = us.map some → m'.map (fsqCode cfg) = us'.map some → us.flatten = us'.flatten → m = m'

/-! ## PACK -/

/-- R105 to R108: a PACK command puts the PackedField in PKD, most significant cell first, where PWR + T2 is not reduced
(R109). -/
def Obligations.PackCompletes : Prop :=
  ∀ (s : State) (i : Instr) (n : Nat) (m : PackCfg) (vs : List Nat), CfgOK s.cfg → s.status = 0#1 →
    (i, n, m) ∈ packStages s.cfg → s.codLen.toNat = n →
    FieldValues m (values .cod s) (s.pwr.toNat + s.flags.toNat) vs →
    ∃ t cells, exec i s = .next t ∧ Completed .pkd cells s t ∧ t.sr = s.sr ∧ cells.length = m.width / m.cellW ∧
      ∀ k, k < m.width / m.cellW →
        cells[k]? = some (packedField m.fields vs / 2 ^ (m.width - (k + 1) * m.cellW) % 2 ^ m.cellW)

/-- R105 to R108, R186: a PACK command raises MessageTooLong on too many codes, InvalidField(255) on too few, and
InvalidField(f) at the lowest field that is undefined or does not fit. -/
def Obligations.PackRaises : Prop :=
  ∀ (s : State) (i : Instr) (n : Nat) (m : PackCfg), s.status = 0#1 → (i, n, m) ∈ packStages s.cfg →
    (n < s.codLen.toNat → ∃ t, exec i s = .next t ∧ Raised (some .pkd) .messageTooLong n s t) ∧
    (s.codLen.toNat < n → ∃ t, exec i s = .next t ∧ Raised (some .pkd) .invalidField 255 s t) ∧
    (∀ (f : Nat) fld, s.codLen.toNat = n → m.fields[f]? = some fld →
      (∀ v, fieldValue (values .cod s) (s.pwr.toNat + s.flags.toNat) fld.value = some v → 2 ^ fld.width ≤ v) →
      (∀ (g : Nat) fld', g < f → m.fields[g]? = some fld' →
        ∃ v, fieldValue (values .cod s) (s.pwr.toNat + s.flags.toNat) fld'.value = some v ∧ v < 2 ^ fld'.width) →
      ∃ t, exec i s = .next t ∧ Raised (some .pkd) .invalidField f s t)

/-- R100, R101 item 4: the packer loses nothing: two states with the same CFG and power level whose PACK commands
complete with the same cells had the same codes. -/
def Obligations.PackLosesNothing : Prop :=
  ∀ (s s' t t' : State) (i : Instr), CfgOK s.cfg → s'.cfg = s.cfg → s.status = 0#1 → s'.status = 0#1 →
    i ∈ [Instr.packJt65, .packJt9, .packJt4, .packWspr] →
    s'.pwr.toNat + s'.flags.toNat = s.pwr.toNat + s.flags.toNat →
    exec i s = .next t → exec i s' = .next t' → t.status = 0#1 → t'.status = 0#1 →
    values .pkd t = values .pkd t' → values .cod s = values .cod s'

/-- R109, R101 items 2 and 3: PACK.WSPR depends on PWR and T2 through PWR + T2 alone, and the JT packers do not depend
on them. -/
def Obligations.PowerIsFolded : Prop :=
  ∀ (s s' : State) (i : Instr), CfgOK s.cfg → s'.cfg = s.cfg → s.status = 0#1 → s'.status = 0#1 →
    values .cod s' = values .cod s →
    (i = .packWspr ∧ s'.pwr.toNat + s'.flags.toNat = s.pwr.toNat + s.flags.toNat ∨
      i ∈ [Instr.packJt65, .packJt9, .packJt4]) →
    ∃ t t', exec i s = .next t ∧ exec i s' = .next t' ∧ t'.status = t.status ∧ t'.pkdLen = t.pkdLen ∧
      values .pkd t' = values .pkd t ∧ (t.status = 1#1 → t'.errcode = t.errcode ∧ t'.erridx = t.erridx)

/-! ## CONV -/

/-- R116, R118 to R120: a CONV command puts the coded bits in FEC, the G0 bit of each pair first, and leaves in SR the
last K input bits. -/
def Obligations.ConvCompletes : Prop :=
  ∀ (s : State) (i : Instr) (w : Nat) (c : ConvCfg), CfgOK s.cfg → s.status = 0#1 → (i, w, c) ∈ convStages s.cfg →
    s.pkdLen.toNat = w → (∀ v ∈ values .pkd s, v ≤ 1) →
    ∃ t out, exec i s = .next t ∧ Completed .fec out s t ∧ out.length = 2 * c.len ∧
      (∀ k, k < c.len → out[2 * k]? = some (tapParity c.k c.g0 (values .pkd s) k) ∧
        out[2 * k + 1]? = some (tapParity c.k c.g1 (values .pkd s) k)) ∧
      ∀ j, t.sr.testBit j = (decide (j < c.k) && decide (j < c.len) && (values .pkd s).getD (c.len - 1 - j) 0 == 1)

/-- R118 to R120, R186: a CONV command raises ConfigurationError on a wrong length, and then at the lowest cell that is
not a bit. That SR stands then (a clause of `Raised`) is the model's choice (log 9: R31 sets SR to 0 at the start of
every CONV command). -/
def Obligations.ConvRaises : Prop :=
  ∀ (s : State) (i : Instr) (w : Nat) (c : ConvCfg), s.status = 0#1 → (i, w, c) ∈ convStages s.cfg →
    (s.pkdLen.toNat ≠ w → ∃ t, exec i s = .next t ∧ Raised (some .fec) .configurationError s.pkdLen.toNat s t) ∧
    (∀ (k : Nat) v, s.pkdLen.toNat = w → (values .pkd s)[k]? = some v → 1 < v →
      (∀ (j : Nat) u, j < k → (values .pkd s)[j]? = some u → u ≤ 1) →
      ∃ t, exec i s = .next t ∧ Raised (some .fec) .configurationError k s t)

/-- R117: CONVENC is linear: the encoding of a bitwise exclusive-or is the exclusive-or of the encodings. -/
def Obligations.ConvIsLinear : Prop :=
  ∀ (c : ConvCfg) (d d' : List Nat), d.length = d'.length → (∀ v ∈ d, v ≤ 1) → (∀ v ∈ d', v ≤ 1) →
    (convEnc c (List.zipWith (· ^^^ ·) d d')).1 = List.zipWith (· ^^^ ·) (convEnc c d).1 (convEnc c d').1

/-- R117: the all-zero input gives the all-zero output, the output has length 2N, and SR is 0 at the end when at least K
padding bits follow the data. -/
def Obligations.ConvZeroLengthAndFlush : Prop :=
  ∀ (c : ConvCfg) (d : List Nat), d.length ≤ c.len → (∀ v ∈ d, v ≤ 1) →
    (convEnc c d).1.length = 2 * c.len ∧
    ((∀ v ∈ d, v = 0) → (convEnc c d).1 = List.replicate (2 * c.len) 0) ∧
    (c.k ≤ c.len - d.length → (convEnc c d).2 = 0)

/-! ## ILV -/

/-- R139, R143 to R146: an ILV command Gray codes the cells where the mode says so, scatters them by PERM, formats them
and Gray codes the symbols where the mode says so. -/
def Obligations.IlvCompletes : Prop :=
  ∀ (s : State) (i : Instr) (c : IlvCfg), CfgOK s.cfg → s.status = 0#1 → (i, c) ∈ ilvStages s.cfg →
    s.fecLen.toNat = c.fecN → (∀ v ∈ values .fec s, v < 2 ^ c.cellW) →
    ∃ t b e, exec i s = .next t ∧ Completed .prm e s t ∧ t.sr = s.sr ∧
      b.length = c.fecN ∧ e.length = (c.pre0 + c.fecN + c.post0) / c.grp ∧
      (∀ (p : Nat) q v, c.perm[p]? = some q → (values .fec s)[p]? = some v → b[q]? = some (grayAt .before c.gray v)) ∧
      ∀ q, q < (c.pre0 + c.fecN + c.post0) / c.grp → e[q]? = some (grayAt .after c.gray (joinedSymbol c b q))

/-- R146: ILV.WSPR moves the coded bit p to position BRSEL(162)[p], whatever the OPEN parameters, and PRM_LEN is 162. -/
def Obligations.IlvWsprMovesBits : Prop :=
  ∀ s : State, CfgOK s.cfg → s.status = 0#1 → s.fecLen.toNat = 162 → (∀ v ∈ values .fec s, v ≤ 1) →
    ∃ t e, exec .ilvWspr s = .next t ∧ Completed .prm e s t ∧ t.sr = s.sr ∧ e.length = 162 ∧
      ∀ (p : Nat) q, (brsel 162)[p]? = some q → e[q]? = (values .fec s)[p]?

/-- R143 to R146, R186: an ILV command raises ConfigurationError on a wrong length, and then at the lowest cell that is
too wide. -/
def Obligations.IlvRaises : Prop :=
  ∀ (s : State) (i : Instr) (c : IlvCfg), s.status = 0#1 → (i, c) ∈ ilvStages s.cfg →
    (s.fecLen.toNat ≠ c.fecN → ∃ t, exec i s = .next t ∧ Raised (some .prm) .configurationError s.fecLen.toNat s t) ∧
    (∀ (k : Nat) v, s.fecLen.toNat = c.fecN → (values .fec s)[k]? = some v → 2 ^ c.cellW ≤ v →
      (∀ (j : Nat) u, j < k → (values .fec s)[j]? = some u → u < 2 ^ c.cellW) →
      ∃ t, exec i s = .next t ∧ Raised (some .prm) .configurationError k s t)

/-- R147: for one mode the map from the contents of FEC to the contents of PRM is injective. -/
def Obligations.IlvLosesNothing : Prop :=
  ∀ (s s' t t' : State) (i : Instr), CfgOK s.cfg → s'.cfg = s.cfg → s.status = 0#1 → s'.status = 0#1 →
    i ∈ [Instr.ilvJt65, .ilvJt9, .ilvJt4, .ilvWspr] →
    exec i s = .next t → exec i s' = .next t' → t.status = 0#1 → t'.status = 0#1 →
    values .prm t = values .prm t' → values .fec s = values .fec s'

/-- R132: BRSEL(N) has N entries, each value below N once. -/
def Obligations.BrselIsABijection : Prop :=
  ∀ n, 1 ≤ n → n ≤ 256 → (brsel n).length = n ∧ (brsel n).Nodup ∧ ∀ v, v ∈ brsel n ↔ v < n

/-- R133: PERM[WSPR] is BRSEL(162); its first 24 and last six values. -/
def Obligations.WsprPermutationValues : Prop :=
  ∀ cfg : Cfg, CfgOK cfg → cfg.ilvWspr.perm = brsel 162 ∧
    (brsel 162).take 24 =
      [0, 128, 64, 32, 160, 96, 16, 144, 80, 48, 112, 8, 136, 72, 40, 104, 24, 152, 88, 56, 120, 4, 132, 68] ∧
    (brsel 162).drop 156 = [111, 31, 159, 95, 63, 127]

/-- R86: GRAY stays within w bits, is injective, and neighbours differ in exactly one bit. -/
def Obligations.GrayLaws : Prop :=
  gray 0 = 0 ∧ (∀ w n, n < 2 ^ w → gray n < 2 ^ w) ∧ (∀ m n, gray m = gray n → m = n) ∧
  ∀ n, ∃ k, gray n ^^^ gray (n + 1) = 2 ^ k

/-! ## MRG -/

/-- R151, R162 to R164: slot insertion puts the fixed value at each sync slot, and at each data slot the next symbol
plus DATA_OFS. -/
def Obligations.MrgSlotCompletes : Prop :=
  ∀ (s : State) (i : Instr) (c : IlvCfg) (m : MrgCfg), CfgOK s.cfg → s.status = 0#1 → (i, c, m) ∈ slotStages s.cfg →
    s.prmLen.toNat = (c.pre0 + c.fecN + c.post0) / c.grp → (∀ v ∈ values .prm s, v < 2 ^ (c.grp * c.cellW)) →
    ∃ t e, exec i s = .next t ∧ Completed .out e s t ∧ t.sr = s.sr ∧ e.length = m.outN ∧
      (∀ (k : Nat), m.syncIs[k]? = some true → e[k]? = m.syncVal[k]?) ∧
      ∀ (k : Nat), m.syncIs[k]? = some false →
        e[k]? = ((values .prm s)[(m.syncIs.take k).count false]?).map (· + m.dataOfs)

/-- R153, R154, R164, R165: additive combination puts `2 * sync + data` at each position, so that the sync bit is the
symbol div 2, the data bit the symbol mod 2, and each symbol is in 0..3. -/
def Obligations.MrgAddCompletes : Prop :=
  ∀ (s : State) (i : Instr) (c : IlvCfg) (m : MrgCfg), CfgOK s.cfg → s.status = 0#1 → (i, c, m) ∈ addStages s.cfg →
    s.prmLen.toNat = m.outN → (∀ v ∈ values .prm s, v ≤ 1) →
    ∃ t e, exec i s = .next t ∧ Completed .out e s t ∧ t.sr = s.sr ∧ e.length = m.outN ∧
      ∀ (k : Nat) sb x, m.syncVal[k]? = some sb → (values .prm s)[k]? = some x →
        ∃ y, e[k]? = some y ∧ y = 2 * sb + x ∧ y / 2 = sb ∧ y % 2 = x ∧ y ≤ 3

/-- R162 to R165: OUT_LEN after a MRG command that completes: 126, 85, 207, 162. -/
def Obligations.OutputLengths : Prop :=
  ∀ (s t : State) (i : Instr) (n : Nat), CfgOK s.cfg → s.status = 0#1 →
    (i, n) ∈ [(Instr.mrgJt65, 126), (.mrgJt9, 85), (.mrgJt4, 207), (.mrgWspr, 162)] →
    exec i s = .next t → t.status = 0#1 → t.outLen.toNat = n

/-- R162 to R165, R186: a MRG command raises ConfigurationError on a wrong length, and then at the lowest cell that is
too wide. -/
def Obligations.MrgRaises : Prop :=
  ∀ (s : State) (i : Instr) (c : IlvCfg), s.status = 0#1 →
    (i, c) ∈ [(Instr.mrgJt65, s.cfg.ilvJt65), (.mrgJt9, s.cfg.ilvJt9), (.mrgJt4, s.cfg.ilvJt4),
      (.mrgWspr, s.cfg.ilvWspr)] →
    (s.prmLen.toNat ≠ (c.pre0 + c.fecN + c.post0) / c.grp →
      ∃ t, exec i s = .next t ∧ Raised (some .out) .configurationError s.prmLen.toNat s t) ∧
    (∀ (k : Nat) v, s.prmLen.toNat = (c.pre0 + c.fecN + c.post0) / c.grp → (values .prm s)[k]? = some v →
      2 ^ (c.grp * c.cellW) ≤ v → (∀ (j : Nat) u, j < k → (values .prm s)[j]? = some u → u < 2 ^ (c.grp * c.cellW)) →
      ∃ t, exec i s = .next t ∧ Raised (some .out) .configurationError k s t)

/-- R152: the output of slot insertion has the length of the markers whatever the symbols are, carries the fixed value at
each sync slot for every input, and reading the data slots in ascending order and subtracting the offset gives back the
symbols. -/
def Obligations.SlotMergeIsStableAndReversible : Prop :=
  ∀ (ofs : Nat) (is : List Bool) (val x : List Nat), val.length = is.length → x.length = is.count false →
    (slotMerge ofs is val x).length = is.length ∧
    (∀ (k : Nat), is[k]? = some true → (slotMerge ofs is val x)[k]? = val[k]?) ∧
    ((is.zip (slotMerge ofs is val x)).filterMap fun e => if e.1 then none else some (e.2 - ofs)) = x

/-- R154: of the sum `2 * sync + data` the sync bit is the quotient by 2 and the data bit the remainder, so that the sync
part does not depend on the data, and each symbol is in 0..3. -/
def Obligations.AddMergeIsStableAndReversible : Prop :=
  ∀ sync x : List Nat, sync.length = x.length → (∀ v ∈ sync, v ≤ 1) → (∀ v ∈ x, v ≤ 1) →
    (addMerge sync x).map (· / 2) = sync ∧ (addMerge sync x).map (· % 2) = x ∧ ∀ y ∈ addMerge sync x, y ≤ 3

/-- R166: MRG.FSQ appends the units of COD to OUT, as they are. -/
def Obligations.MrgFsqAppends : Prop :=
  ∀ s : State, CfgOK s.cfg → s.status = 0#1 → (∀ v ∈ values .cod s, v < 32) →
    s.outLen.toNat + s.codLen.toNat ≤ 255 →
    ∃ t, exec .mrgFsq s = .next t ∧ Completed .out (values .out s ++ values .cod s) s t ∧ t.sr = s.sr ∧
      (s.codLen = 0#8 → t = s)

/-- R166, R186: MRG.FSQ raises ConfigurationError at the lowest cell that is no unit, and otherwise MessageTooLong with
index 255 when the units do not fit; either empties OUT. -/
def Obligations.MrgFsqRaises : Prop :=
  ∀ s : State, CfgOK s.cfg → s.status = 0#1 →
    (∀ (k : Nat) v, (values .cod s)[k]? = some v → 32 ≤ v → (∀ (j : Nat) u, j < k → (values .cod s)[j]? = some u → u < 32) →
      ∃ t, exec .mrgFsq s = .next t ∧ Raised (some .out) .configurationError k s t) ∧
    ((∀ v ∈ values .cod s, v < 32) → 255 < s.outLen.toNat + s.codLen.toNat →
      ∃ t, exec .mrgFsq s = .next t ∧ Raised (some .out) .messageTooLong 255 s t)

/-! ## The whole machine -/

/-- R184, R185: a command that ends with a new error has done exactly the error entry, with its own destination. Which
index ERRIDX holds, the statements of the single commands say. That SR stands after a CONV command that raises is the
model's choice (log 9: R31 sets SR to 0 at the start of every CONV command). -/
def Obligations.EveryErrorIsTheErrorEntry : Prop :=
  ∀ (i : Instr) (s t : State), s.status = 0#1 → exec i s = .next t → t.status = 1#1 →
    ∃ kind idx, Raised (destOf i) kind idx s t ∧ t.outLen = 0#8

/-- R64: a command that ends without an error, other than CLR, has changed nothing but its destination buffer and
length, and SR if it is a CONV command. -/
def Obligations.CommandsWriteOnlyTheirDestination : Prop :=
  ∀ (i : Instr) (s t : State), i ≠ .clr → exec i s = .next t → t.status = 0#1 →
    Frame (destOf i).toList s t ∧ t.errcode = s.errcode ∧ t.erridx = s.erridx ∧ s.status = 0#1 ∧
      (i.op ≠ .conv → t.sr = s.sr)

/-- R23, R27: no command writes PWR or FLAGS. -/
def Obligations.NoCommandWritesPwrOrFlags : Prop :=
  ∀ (i : Instr) (s t : State), exec i s = .next t → t.pwr = s.pwr ∧ t.flags = s.flags

/-- R28, R31, R14: no command reads a cell at or beyond its buffer's length, nor SR: from two states that agree on the
registers, the lengths and the contents below them, a command gives two such states. -/
def Obligations.CommandsReadOnlyContents : Prop :=
  ∀ (i : Instr) (s s' t t' : State), SameInputs s s' → exec i s = .next t → exec i s' = .next t' → SameInputs t t'

/-- R171, R187: once ERR is 1, ERR, ERRCODE and ERRIDX stand until the host writes CLR's byte to CMD. -/
def Obligations.FirstErrorIsKept : Prop :=
  ∀ s t : State, s.status = 1#1 → step s = .next t →
    (t.status = 1#1 ∧ t.errcode = s.errcode ∧ t.erridx = s.erridx) ∨
    ∃ rest, s.pending = .write 0x000#11 0x10#8 :: rest

/-- 00_scope.md R7, 10_state.md R39: no command and no host access changes CFG (the model's own field, log 1). -/
def Obligations.ConfigurationIsConstant : Prop :=
  ∀ s t : State, step s = .next t → t.cfg = s.cfg

/-- The reset state meets the invariant (it includes CfgOK of REF, log 1). -/
def Obligations.ResetMeetsInvariant : Prop := Invariant State.reset

/-- Every step keeps the invariant: CFG well formed, memory canonical and within the buffers, the error registers
consistent (10_state.md R24 to R26), SR within its width (R31), the cells that the host has written in ascending order
and each with a value (R28; log 7). -/
def Obligations.StepKeepsInvariant : Prop :=
  ∀ s t : State, Invariant s → step s = .next t → Invariant t
end

