-- ==== Sys2Proof/Laws/Memory.lean ====
section
/-! SUPPORT. The laws of the canonical memory: what each operation makes of a read of one cell, and that each keeps the
canonical form `Memory.WF`. -/

namespace Sys2Proof.Machine

@[simp] theorem Memory.read_nil (a : Nat) : Memory.read [] a = none := rfl

theorem Memory.read_cons (k : Nat) (v : Byte) (m : List Host.Cell) (a : Nat) :
    Memory.read ((k, v) :: m) a = if k = a then some v else Memory.read m a := rfl

theorem Memory.read_append (m n : List Host.Cell) (a : Nat) :
    Memory.read (m ++ n) a = (Memory.read m a).or (Memory.read n a) := by
  induction m with
  | nil => simp
  | cons c m ih =>
    obtain ⟨k, v⟩ := c
    by_cases h : k = a <;> simp [Memory.read_cons, h, ih]

/-- A read in a memory from which cells were filtered by address. -/
theorem Memory.read_filter (p : Nat → Bool) (m : List Host.Cell) (a : Nat) :
    Memory.read (m.filter fun c => p c.1) a = if p a then Memory.read m a else none := by
  induction m with
  | nil => simp
  | cons c m ih =>
    obtain ⟨k, v⟩ := c
    by_cases hk : p k = true
    · rw [List.filter_cons_of_pos (by simpa using hk), Memory.read_cons, Memory.read_cons, ih]
      by_cases h : k = a
      · subst h; simp [hk]
      · simp [h]
    · rw [List.filter_cons_of_neg (by simpa using hk), Memory.read_cons, ih]
      by_cases h : k = a
      · subst h; simp [hk]
      · simp [h]

theorem Memory.read_forget (m : List Host.Cell) (keep : List Nat) (lo hi a : Nat) :
    Memory.read (Memory.forget m keep lo hi) a =
      if a < lo ∨ hi ≤ a ∨ a ∈ keep then Memory.read m a else none := by
  unfold Memory.forget
  rw [Memory.read_filter (fun k => decide (k < lo) || decide (hi ≤ k) || decide (k ∈ keep))]
  simp [or_assoc]

theorem Memory.read_cells (lo : Nat) (vs : List Nat) (a : Nat) :
    Memory.read (Memory.cells lo vs) a =
      if lo ≤ a then (vs[a - lo]?).map (BitVec.ofNat 8) else none := by
  induction vs generalizing lo with
  | nil => simp [Memory.cells]
  | cons v vs ih =>
    rw [Memory.cells, Memory.read_cons, ih]
    by_cases h : lo = a
    · subst h; simp
    · by_cases h2 : lo ≤ a
      · have h3 : a - lo = (a - (lo + 1)) + 1 := by omega
        simp [h, h2, h3, show lo + 1 ≤ a by omega]
      · simp [h, h2, show ¬ lo + 1 ≤ a by omega]

/-- A read after a splice: below the window and above it as before, inside it the stored values, and nothing else. -/
theorem Memory.read_splice (m : List Host.Cell) (lo hi : Nat) (vs : List Nat) (a : Nat) (hlh : lo ≤ hi) :
    Memory.read (Memory.splice m lo hi vs) a =
      if lo ≤ a ∧ a < hi then (vs[a - lo]?).map (BitVec.ofNat 8) else Memory.read m a := by
  unfold Memory.splice
  rw [Memory.read_append, Memory.read_append, Memory.read_filter (fun k => decide (k < lo)),
    Memory.read_filter (fun k => decide (hi ≤ k)), Memory.read_cells]
  by_cases h1 : a < lo
  · simp [h1, show ¬ lo ≤ a by omega, show ¬ hi ≤ a by omega]
  · by_cases h2 : hi ≤ a
    · have h3 : ¬ (a - lo < hi - lo) := by omega
      simp [h1, h2, show lo ≤ a by omega, show ¬ a < hi by omega, h3]
    · have h3 : a - lo < hi - lo := by omega
      simp [h1, h2, show lo ≤ a by omega, show a < hi by omega, h3]

/-- A read after one cell is set. -/
theorem Memory.read_insert (m : List Host.Cell) (a : Nat) (v : Byte) (x : Nat) :
    Memory.read (Memory.insert m a v) x = if a = x then some v else Memory.read m x := by
  induction m with
  | nil => simp [Memory.insert, Memory.read_cons]
  | cons c m ih =>
    obtain ⟨k, w⟩ := c
    by_cases h1 : a < k
    · simp [Memory.insert, h1, Memory.read_cons]
    · by_cases h2 : a = k
      · subst h2; by_cases h : a = x <;> simp [Memory.insert, Memory.read_cons, h]
      · by_cases h : k = x
        · subst h; simp [Memory.insert, h1, h2, Memory.read_cons]
        · simp [Memory.insert, h1, h2, Memory.read_cons, h, ih]

theorem Memory.mem_insert (m : List Host.Cell) (a : Nat) (v : Byte) (c : Host.Cell) (hc : c ∈ Memory.insert m a v) :
    c = (a, v) ∨ c ∈ m := by
  induction m with
  | nil => simpa [Memory.insert] using hc
  | cons d m ih =>
    obtain ⟨k, w⟩ := d
    unfold Memory.insert at hc
    split_ifs at hc with h1 h2
    · simpa using hc
    · simp only [List.mem_cons] at hc ⊢; tauto
    · simp only [List.mem_cons] at hc ⊢
      rcases hc with h | h
      · tauto
      · rcases ih h with h | h <;> tauto

/-- Storing one buffer cell keeps the canonical form. -/
theorem Memory.wf_insert (m : List Host.Cell) (a : Nat) (v : Byte) (ha : isCellAddr a = true) (hm : Memory.WF m) :
    Memory.WF (Memory.insert m a v) := by
  refine ⟨?_, fun c hc => ?_⟩
  · have hp := hm.1
    clear hm
    induction m with
    | nil => simp [Memory.insert]
    | cons c m ih =>
      obtain ⟨k, w⟩ := c
      have hp' := List.pairwise_cons.1 hp
      unfold Memory.insert
      split_ifs with h1 h2
      · refine List.pairwise_cons.2 ⟨fun d hd => ?_, hp⟩
        rcases List.mem_cons.1 hd with h | h
        · subst h; exact h1
        · exact lt_trans h1 (hp'.1 d h)
      · subst h2; exact List.pairwise_cons.2 ⟨hp'.1, hp'.2⟩
      · refine List.pairwise_cons.2 ⟨fun d hd => ?_, ih hp'.2⟩
        rcases Memory.mem_insert m a v d hd with h | h
        · subst h; simp only; omega
        · exact hp'.1 d h
  · rcases Memory.mem_insert m a v c hc with h | h
    · subst h; exact ha
    · exact hm.2 c h

/-- Forgetting cells keeps the canonical form. -/
theorem Memory.wf_forget (m : List Host.Cell) (keep : List Nat) (lo hi : Nat) (hm : Memory.WF m) :
    Memory.WF (Memory.forget m keep lo hi) :=
  ⟨hm.1.filter _, fun c hc => hm.2 c (List.mem_filter.1 hc).1⟩

theorem Memory.mem_cells (lo : Nat) (vs : List Nat) (c : Host.Cell) (hc : c ∈ Memory.cells lo vs) :
    lo ≤ c.1 ∧ c.1 < lo + vs.length := by
  induction vs generalizing lo with
  | nil => simp [Memory.cells] at hc
  | cons v vs ih =>
    rcases List.mem_cons.1 hc with h | h
    · subst h; simp
    · have := ih _ h; simp only [List.length_cons]; omega

theorem Memory.pairwise_cells (lo : Nat) (vs : List Nat) : (Memory.cells lo vs).Pairwise fun c d => c.1 < d.1 := by
  induction vs generalizing lo with
  | nil => simp [Memory.cells]
  | cons v vs ih => exact List.pairwise_cons.2 ⟨fun d hd => (Memory.mem_cells _ _ _ hd).1, ih _⟩

/-- Storing a sequence of values in a window of buffer cells keeps the canonical form. -/
theorem Memory.wf_splice (m : List Host.Cell) (lo hi : Nat) (vs : List Nat)
    (hlh : lo ≤ hi) (hw : ∀ a, lo ≤ a → a < hi → isCellAddr a = true) (hm : Memory.WF m) :
    Memory.WF (Memory.splice m lo hi vs) := by
  have hlen : (vs.take (hi - lo)).length ≤ hi - lo := by simp
  have hin : ∀ c ∈ Memory.cells lo (vs.take (hi - lo)), lo ≤ c.1 ∧ c.1 < hi := fun c hc => by
    have := Memory.mem_cells _ _ _ hc; omega
  refine ⟨?_, fun c hc => ?_⟩
  · unfold Memory.splice
    rw [List.pairwise_append, List.pairwise_append]
    refine ⟨⟨hm.1.filter _, Memory.pairwise_cells _ _, ?_⟩, hm.1.filter _, ?_⟩
    · intro c hc d hd
      have h1 := (List.mem_filter.1 hc).2
      have h2 := hin d hd
      simp only [decide_eq_true_eq] at h1
      omega
    · intro c hc d hd
      have h1 := (List.mem_filter.1 hd).2
      simp only [decide_eq_true_eq] at h1
      rcases List.mem_append.1 hc with h | h
      · have h2 := (List.mem_filter.1 h).2
        simp only [decide_eq_true_eq] at h2
        omega
      · have h2 := hin c h; omega
  · unfold Memory.splice at hc
    rcases List.mem_append.1 hc with h | h
    · rcases List.mem_append.1 h with h | h
      · exact hm.2 c (List.mem_filter.1 h).1
      · have := hin c h; exact hw c.1 this.1 this.2
    · exact hm.2 c (List.mem_filter.1 h).1

end Sys2Proof.Machine
end

