-- ==== Sys2Proof/Laws/State.lean ====
section
/-! SUPPORT. One lemma per field per update of the state, tagged for simp, so that no later proof unfolds a record
update. -/

namespace Sys2Proof.Machine

@[simp] theorem withLen_status (s : State) (b : Buf) (n : BitVec 8) : (s.withLen b n).status = s.status := by cases b <;> rfl
@[simp] theorem withLen_errcode (s : State) (b : Buf) (n : BitVec 8) : (s.withLen b n).errcode = s.errcode := by cases b <;> rfl
@[simp] theorem withLen_erridx (s : State) (b : Buf) (n : BitVec 8) : (s.withLen b n).erridx = s.erridx := by cases b <;> rfl
@[simp] theorem withLen_pwr (s : State) (b : Buf) (n : BitVec 8) : (s.withLen b n).pwr = s.pwr := by cases b <;> rfl
@[simp] theorem withLen_flags (s : State) (b : Buf) (n : BitVec 8) : (s.withLen b n).flags = s.flags := by cases b <;> rfl
@[simp] theorem withLen_sr (s : State) (b : Buf) (n : BitVec 8) : (s.withLen b n).sr = s.sr := by cases b <;> rfl
@[simp] theorem withLen_cfg (s : State) (b : Buf) (n : BitVec 8) : (s.withLen b n).cfg = s.cfg := by cases b <;> rfl
@[simp] theorem withLen_draw (s : State) (b : Buf) (n : BitVec 8) : (s.withLen b n).draw = s.draw := by cases b <;> rfl
@[simp] theorem withLen_pending (s : State) (b : Buf) (n : BitVec 8) : (s.withLen b n).pending = s.pending := by cases b <;> rfl
@[simp] theorem withLen_readData (s : State) (b : Buf) (n : BitVec 8) : (s.withLen b n).readData = s.readData := by cases b <;> rfl
@[simp] theorem withLen_mem (s : State) (b : Buf) (n : BitVec 8) : (s.withLen b n).mem = s.mem := by cases b <;> rfl

@[simp] theorem withLen_len (s : State) (b c : Buf) (n : BitVec 8) :
    (s.withLen b n).len c = if c = b then n else s.len c := by cases b <;> cases c <;> rfl

@[simp] theorem setLen_status (b : Buf) (n : BitVec 8) (s : State) : (setLen b n s).status = s.status := by simp [setLen]
@[simp] theorem setLen_errcode (b : Buf) (n : BitVec 8) (s : State) : (setLen b n s).errcode = s.errcode := by simp [setLen]
@[simp] theorem setLen_erridx (b : Buf) (n : BitVec 8) (s : State) : (setLen b n s).erridx = s.erridx := by simp [setLen]
@[simp] theorem setLen_pwr (b : Buf) (n : BitVec 8) (s : State) : (setLen b n s).pwr = s.pwr := by simp [setLen]
@[simp] theorem setLen_flags (b : Buf) (n : BitVec 8) (s : State) : (setLen b n s).flags = s.flags := by simp [setLen]
@[simp] theorem setLen_sr (b : Buf) (n : BitVec 8) (s : State) : (setLen b n s).sr = s.sr := by simp [setLen]
@[simp] theorem setLen_cfg (b : Buf) (n : BitVec 8) (s : State) : (setLen b n s).cfg = s.cfg := by simp [setLen]
@[simp] theorem setLen_draw (b : Buf) (n : BitVec 8) (s : State) : (setLen b n s).draw = s.draw := by simp [setLen]
@[simp] theorem setLen_pending (b : Buf) (n : BitVec 8) (s : State) : (setLen b n s).pending = s.pending := by simp [setLen]
@[simp] theorem setLen_readData (b : Buf) (n : BitVec 8) (s : State) : (setLen b n s).readData = s.readData := by simp [setLen]

@[simp] theorem setLen_mem (b : Buf) (n : BitVec 8) (s : State) :
    (setLen b n s).mem = Memory.forget s.mem s.hostCells (b.addr n.toNat) (b.addr (s.len b).toNat) := by simp [setLen]

@[simp] theorem setLen_len (b c : Buf) (n : BitVec 8) (s : State) :
    (setLen b n s).len c = if c = b then n else s.len c := by cases b <;> cases c <;> rfl

@[simp] theorem storeCell_status (a : Nat) (v : Byte) (s : State) : (storeCell a v s).status = s.status := rfl
@[simp] theorem storeCell_errcode (a : Nat) (v : Byte) (s : State) : (storeCell a v s).errcode = s.errcode := rfl
@[simp] theorem storeCell_erridx (a : Nat) (v : Byte) (s : State) : (storeCell a v s).erridx = s.erridx := rfl
@[simp] theorem storeCell_pwr (a : Nat) (v : Byte) (s : State) : (storeCell a v s).pwr = s.pwr := rfl
@[simp] theorem storeCell_flags (a : Nat) (v : Byte) (s : State) : (storeCell a v s).flags = s.flags := rfl
@[simp] theorem storeCell_sr (a : Nat) (v : Byte) (s : State) : (storeCell a v s).sr = s.sr := rfl
@[simp] theorem storeCell_cfg (a : Nat) (v : Byte) (s : State) : (storeCell a v s).cfg = s.cfg := rfl
@[simp] theorem storeCell_draw (a : Nat) (v : Byte) (s : State) : (storeCell a v s).draw = s.draw := rfl
@[simp] theorem storeCell_pending (a : Nat) (v : Byte) (s : State) : (storeCell a v s).pending = s.pending := rfl
@[simp] theorem storeCell_readData (a : Nat) (v : Byte) (s : State) : (storeCell a v s).readData = s.readData := rfl

@[simp] theorem storeCell_mem (a : Nat) (v : Byte) (s : State) : (storeCell a v s).mem = Memory.insert s.mem a v := rfl

@[simp] theorem storeCell_len (a : Nat) (v : Byte) (s : State) (b : Buf) : (storeCell a v s).len b = s.len b := by
  cases b <;> rfl

@[simp] theorem commit_status (b : Buf) (vs : List Nat) (s : State) : (commit b vs s).status = s.status := by simp [commit]
@[simp] theorem commit_errcode (b : Buf) (vs : List Nat) (s : State) : (commit b vs s).errcode = s.errcode := by simp [commit]
@[simp] theorem commit_erridx (b : Buf) (vs : List Nat) (s : State) : (commit b vs s).erridx = s.erridx := by simp [commit]
@[simp] theorem commit_pwr (b : Buf) (vs : List Nat) (s : State) : (commit b vs s).pwr = s.pwr := by simp [commit]
@[simp] theorem commit_flags (b : Buf) (vs : List Nat) (s : State) : (commit b vs s).flags = s.flags := by simp [commit]
@[simp] theorem commit_sr (b : Buf) (vs : List Nat) (s : State) : (commit b vs s).sr = s.sr := by simp [commit]
@[simp] theorem commit_cfg (b : Buf) (vs : List Nat) (s : State) : (commit b vs s).cfg = s.cfg := by simp [commit]
@[simp] theorem commit_draw (b : Buf) (vs : List Nat) (s : State) : (commit b vs s).draw = s.draw := by simp [commit]
@[simp] theorem commit_pending (b : Buf) (vs : List Nat) (s : State) : (commit b vs s).pending = s.pending := by simp [commit]
@[simp] theorem commit_readData (b : Buf) (vs : List Nat) (s : State) : (commit b vs s).readData = s.readData := by simp [commit]

@[simp] theorem commit_mem (b : Buf) (vs : List Nat) (s : State) :
    (commit b vs s).mem = Memory.splice s.mem b.base (b.base + Config.cap) vs := by simp [commit]

@[simp] theorem commit_len (b c : Buf) (vs : List Nat) (s : State) :
    (commit b vs s).len c = if c = b then BitVec.ofNat 8 vs.length else s.len c := by
  cases b <;> cases c <;> rfl

@[simp] theorem append_status (b : Buf) (vs : List Nat) (s : State) : (append b vs s).status = s.status := by
  unfold append; split <;> simp
@[simp] theorem append_errcode (b : Buf) (vs : List Nat) (s : State) : (append b vs s).errcode = s.errcode := by
  unfold append; split <;> simp
@[simp] theorem append_erridx (b : Buf) (vs : List Nat) (s : State) : (append b vs s).erridx = s.erridx := by
  unfold append; split <;> simp
@[simp] theorem append_pwr (b : Buf) (vs : List Nat) (s : State) : (append b vs s).pwr = s.pwr := by
  unfold append; split <;> simp
@[simp] theorem append_flags (b : Buf) (vs : List Nat) (s : State) : (append b vs s).flags = s.flags := by
  unfold append; split <;> simp
@[simp] theorem append_sr (b : Buf) (vs : List Nat) (s : State) : (append b vs s).sr = s.sr := by
  unfold append; split <;> simp
@[simp] theorem append_cfg (b : Buf) (vs : List Nat) (s : State) : (append b vs s).cfg = s.cfg := by
  unfold append; split <;> simp
@[simp] theorem append_draw (b : Buf) (vs : List Nat) (s : State) : (append b vs s).draw = s.draw := by
  unfold append; split <;> simp
@[simp] theorem append_pending (b : Buf) (vs : List Nat) (s : State) : (append b vs s).pending = s.pending := by
  unfold append; split <;> simp
@[simp] theorem append_readData (b : Buf) (vs : List Nat) (s : State) : (append b vs s).readData = s.readData := by
  unfold append; split <;> simp
@[simp] theorem recordError_status (r : Raise) (s : State) : (recordError r s).status = 1#1 := rfl
@[simp] theorem recordError_errcode (r : Raise) (s : State) : (recordError r s).errcode = r.kind.code := rfl
@[simp] theorem recordError_erridx (r : Raise) (s : State) : (recordError r s).erridx = BitVec.ofNat 8 r.idx := rfl
@[simp] theorem recordError_pwr (r : Raise) (s : State) : (recordError r s).pwr = s.pwr := rfl
@[simp] theorem recordError_flags (r : Raise) (s : State) : (recordError r s).flags = s.flags := rfl
@[simp] theorem recordError_sr (r : Raise) (s : State) : (recordError r s).sr = s.sr := rfl
@[simp] theorem recordError_cfg (r : Raise) (s : State) : (recordError r s).cfg = s.cfg := rfl
@[simp] theorem recordError_draw (r : Raise) (s : State) : (recordError r s).draw = s.draw := rfl
@[simp] theorem recordError_pending (r : Raise) (s : State) : (recordError r s).pending = s.pending := rfl
@[simp] theorem recordError_readData (r : Raise) (s : State) : (recordError r s).readData = s.readData := rfl
@[simp] theorem recordError_mem (r : Raise) (s : State) : (recordError r s).mem = s.mem := rfl
@[simp] theorem recordError_len (r : Raise) (s : State) (b : Buf) : (recordError r s).len b = s.len b := by cases b <;> rfl

@[simp] theorem enterError_status (d : Option Buf) (r : Raise) (s : State) : (enterError d r s).status = 1#1 := by
  cases d <;> simp [enterError]
@[simp] theorem enterError_errcode (d : Option Buf) (r : Raise) (s : State) : (enterError d r s).errcode = r.kind.code := by
  cases d <;> simp [enterError]
@[simp] theorem enterError_erridx (d : Option Buf) (r : Raise) (s : State) : (enterError d r s).erridx = BitVec.ofNat 8 r.idx := by
  cases d <;> simp [enterError]
@[simp] theorem enterError_pwr (d : Option Buf) (r : Raise) (s : State) : (enterError d r s).pwr = s.pwr := by
  cases d <;> simp [enterError]
@[simp] theorem enterError_flags (d : Option Buf) (r : Raise) (s : State) : (enterError d r s).flags = s.flags := by
  cases d <;> simp [enterError]
@[simp] theorem enterError_sr (d : Option Buf) (r : Raise) (s : State) : (enterError d r s).sr = s.sr := by
  cases d <;> simp [enterError]
@[simp] theorem enterError_cfg (d : Option Buf) (r : Raise) (s : State) : (enterError d r s).cfg = s.cfg := by
  cases d <;> simp [enterError]
@[simp] theorem enterError_draw (d : Option Buf) (r : Raise) (s : State) : (enterError d r s).draw = s.draw := by
  cases d <;> simp [enterError]
@[simp] theorem enterError_pending (d : Option Buf) (r : Raise) (s : State) : (enterError d r s).pending = s.pending := by
  cases d <;> simp [enterError]
@[simp] theorem enterError_readData (d : Option Buf) (r : Raise) (s : State) : (enterError d r s).readData = s.readData := by
  cases d <;> simp [enterError]

@[simp] theorem clearCall_status (s : State) : (clearCall s).status = 0#1 := rfl
@[simp] theorem clearCall_errcode (s : State) : (clearCall s).errcode = 0#3 := rfl
@[simp] theorem clearCall_erridx (s : State) : (clearCall s).erridx = 0#8 := rfl
@[simp] theorem clearCall_sr (s : State) : (clearCall s).sr = 0 := rfl
@[simp] theorem clearCall_mem (s : State) : (clearCall s).mem = [] := rfl
@[simp] theorem clearCall_pwr (s : State) : (clearCall s).pwr = s.pwr := rfl
@[simp] theorem clearCall_flags (s : State) : (clearCall s).flags = s.flags := rfl
@[simp] theorem clearCall_cfg (s : State) : (clearCall s).cfg = s.cfg := rfl
@[simp] theorem clearCall_draw (s : State) : (clearCall s).draw = s.draw := rfl
@[simp] theorem clearCall_pending (s : State) : (clearCall s).pending = s.pending := rfl
@[simp] theorem clearCall_readData (s : State) : (clearCall s).readData = s.readData := rfl
@[simp] theorem clearCall_len (s : State) (b : Buf) : (clearCall s).len b = 0#8 := by cases b <;> rfl

/-! The addresses that the host has written, `State.hostCells`. -/

@[simp] theorem withLen_hostCells (s : State) (b : Buf) (n : BitVec 8) : (s.withLen b n).hostCells = s.hostCells := by
  cases b <;> rfl
@[simp] theorem setLen_hostCells (b : Buf) (n : BitVec 8) (s : State) : (setLen b n s).hostCells = s.hostCells := by
  simp [setLen]
@[simp] theorem storeCell_hostCells (a : Nat) (v : Byte) (s : State) :
    (storeCell a v s).hostCells = mark s.hostCells a := rfl
@[simp] theorem commit_hostCells (b : Buf) (vs : List Nat) (s : State) :
    (commit b vs s).hostCells = unmark b s.hostCells := by simp [commit]
theorem append_hostCells (b : Buf) (vs : List Nat) (s : State) :
    (append b vs s).hostCells = if vs.isEmpty then s.hostCells else unmark b s.hostCells := by
  unfold append; split <;> simp
@[simp] theorem recordError_hostCells (r : Raise) (s : State) : (recordError r s).hostCells = s.hostCells := rfl
@[simp] theorem enterError_hostCells (d : Option Buf) (r : Raise) (s : State) :
    (enterError d r s).hostCells = s.hostCells := by cases d <;> simp [enterError]
@[simp] theorem clearCall_hostCells (s : State) : (clearCall s).hostCells = [] := rfl

/-! The six spellings of a length register. They carry no simp tag: `State.len` is the simp normal form. -/

theorem len_chr (s : State) : s.len .chr = s.chrLen := rfl
theorem len_cod (s : State) : s.len .cod = s.codLen := rfl
theorem len_pkd (s : State) : s.len .pkd = s.pkdLen := rfl
theorem len_fec (s : State) : s.len .fec = s.fecLen := rfl
theorem len_prm (s : State) : s.len .prm = s.prmLen := rfl
theorem len_out (s : State) : s.len .out = s.outLen := rfl

end Sys2Proof.Machine
end

