-- ==== Sys2Proof/Laws/Ops.lean ====
section
/-! SUPPORT. What each shared operation can do, said once: the commit of a result, the append, the error entry, the
write of a length, the gate. -/

namespace Sys2Proof.Machine

theorem holds_iff (b : Buf) (a : Nat) : b.holds a = true ↔ b.base ≤ a ∧ a < b.base + 255 := by
  unfold Buf.holds Config.cap
  rw [Bool.and_eq_true, decide_eq_true_eq, decide_eq_true_eq]

theorem holds_addr (b : Buf) (i : Nat) (hi : i < 255) : b.holds (b.addr i) = true := by
  rw [holds_iff]; unfold Buf.addr; omega

/-- The windows of two buffers do not meet (20_memory.md R45). -/
theorem holds_ne (b c : Buf) (a : Nat) (h : b ≠ c) (hb : b.holds a = true) : c.holds a = false := by
  rw [Bool.eq_false_iff]
  intro hc
  rw [holds_iff] at hb hc
  cases b <;> cases c <;> simp [Buf.base, Buf.num] at hb hc h <;> omega

theorem isCellAddr_of_holds (b : Buf) (a : Nat) (h : b.holds a = true) : isCellAddr a = true := by
  rw [holds_iff] at h
  unfold isCellAddr Config.cap
  simp only [Bool.and_eq_true, decide_eq_true_eq]
  cases b <;> simp [Buf.base, Buf.num] at h <;> omega

theorem len_lt (s : State) (b : Buf) : (s.len b).toNat < 256 := (s.len b).isLt

/-- A cell depends on the listed value and the draw alone. -/
theorem cell_congr (s t : State) (a : Nat) (hm : Memory.read t.mem a = Memory.read s.mem a) (hd : t.draw = s.draw) :
    t.cell a = s.cell a := by
  unfold State.cell; rw [hm, hd]

/-- A cell after a commit: inside the window the stored value or a free one, outside it as before. -/
theorem cell_commit (b : Buf) (vs : List Nat) (s : State) (a : Nat) :
    (commit b vs s).cell a =
      if b.holds a then
        match vs[a - b.base]? with
        | some v => BitVec.ofNat 8 v
        | none => Config.freeCell s.draw a
      else s.cell a := by
  unfold State.cell
  rw [commit_mem, commit_draw, Memory.read_splice _ _ _ _ _ (by omega)]
  by_cases h : b.holds a = true
  · have h' := (holds_iff b a).1 h
    rw [if_pos (show _ ∧ a < b.base + Config.cap from h'), if_pos h]
    cases vs[a - b.base]? <;> rfl
  · have h' : ¬ (b.base ≤ a ∧ a < b.base + Config.cap) := fun hc => h ((holds_iff b a).2 hc)
    rw [if_neg h', if_neg h]

theorem commit_cell_other (b c : Buf) (vs : List Nat) (s : State) (i : Nat) (h : c ≠ b) (hi : i < 255) :
    (commit b vs s).cell (c.addr i) = s.cell (c.addr i) := by
  rw [cell_commit, holds_ne c b _ h (holds_addr c i hi)]; rfl

/-- The contents of a buffer are those of another state when its length and its cells are. -/
theorem contents_congr (s t : State) (b : Buf) (hl : t.len b = s.len b)
    (hc : ∀ i, i < (s.len b).toNat → t.cell (b.addr i) = s.cell (b.addr i)) : contents b t = contents b s := by
  unfold contents
  rw [hl]
  exact List.map_congr_left fun i hi => hc i (List.mem_range.1 hi)

theorem contents_length (b : Buf) (s : State) : (contents b s).length = (s.len b).toNat := by simp [contents]

theorem values_length (b : Buf) (s : State) : (values b s).length = (s.len b).toNat := by simp [values, contents_length]

theorem values_lt (b : Buf) (s : State) : ∀ v ∈ values b s, v < 256 := by
  intro v hv
  obtain ⟨x, -, rfl⟩ := List.mem_map.1 hv
  exact x.isLt

theorem contents_getElem? (b : Buf) (s : State) (i : Nat) (hi : i < (s.len b).toNat) :
    (contents b s)[i]? = some (s.cell (b.addr i)) := by
  simp [contents, hi]

/-- The values of a buffer after a commit of values that fit cells. -/
theorem values_commit (b : Buf) (vs : List Nat) (s : State) (hn : vs.length ≤ 255) (hv : ∀ v ∈ vs, v < 256) :
    values b (commit b vs s) = vs := by
  apply List.ext_getElem?
  intro i
  have hl : ((commit b vs s).len b).toNat = vs.length := by
    rw [commit_len, if_pos rfl, BitVec.toNat_ofNat]; omega
  by_cases hi : i < vs.length
  · have h2 : (b.addr i - b.base) = i := by unfold Buf.addr; omega
    unfold values
    rw [List.getElem?_map, contents_getElem? _ _ _ (by omega), cell_commit, holds_addr b i (by omega), h2,
      List.getElem?_eq_getElem hi]
    simp [Nat.mod_eq_of_lt (hv _ (List.getElem_mem hi))]
  · rw [List.getElem?_eq_none (by rw [values_length]; omega), List.getElem?_eq_none (by omega)]

theorem contents_commit_other (b c : Buf) (vs : List Nat) (s : State) (h : c ≠ b)
    (hc : (s.len c).toNat ≤ 255) : contents c (commit b vs s) = contents c s := by
  apply contents_congr
  · simp [h]
  · intro i hi
    exact commit_cell_other b c vs s i h (by omega)

/-! The list of the addresses that the host has written. -/

theorem mem_mark (l : List Nat) (a x : Nat) : x ∈ mark l a ↔ x = a ∨ x ∈ l := by
  unfold mark
  simp only [List.mem_append, List.mem_cons, List.mem_filter, decide_eq_true_eq]
  rcases Nat.lt_trichotomy x a with h | h | h
  · simp [h, h.ne, Nat.not_lt.2 h.le]
  · simp [h]
  · simp [h, h.ne', Nat.not_lt.2 h.le]

theorem mem_unmark (b : Buf) (l : List Nat) (x : Nat) : x ∈ unmark b l ↔ x ∈ l ∧ b.holds x = false := by
  unfold unmark
  simp [List.mem_filter]

theorem mark_sorted (l : List Nat) (a : Nat) (h : l.Pairwise (· < ·)) : (mark l a).Pairwise (· < ·) := by
  unfold mark
  rw [List.pairwise_append, List.pairwise_cons]
  refine ⟨h.filter _, ⟨fun x hx => ?_, h.filter _⟩, fun x hx y hy => ?_⟩
  · exact of_decide_eq_true (List.mem_filter.1 hx).2
  · have hxa : x < a := of_decide_eq_true (List.mem_filter.1 hx).2
    rcases List.mem_cons.1 hy with h1 | h1
    · omega
    · have : a < y := of_decide_eq_true (List.mem_filter.1 h1).2
      omega

theorem unmark_sorted (b : Buf) (l : List Nat) (h : l.Pairwise (· < ·)) : (unmark b l).Pairwise (· < ·) := h.filter _

/-- THE COMMIT: with values that fit, exactly the result stands in the buffer and the frame holds. -/
theorem commit_completed (b : Buf) (vs : List Nat) (s : State) (hn : vs.length ≤ 255) (hv : ∀ v ∈ vs, v < 256) :
    Completed b vs s (commit b vs s) where
  len := by rw [commit_len, if_pos rfl, BitVec.toNat_ofNat]; omega
  vals := values_commit b vs s hn hv
  status := by simp
  errcode := by simp
  erridx := by simp
  frame :=
    { pwr := by simp, flags := by simp, cfg := by simp, draw := by simp, pending := by simp, readData := by simp
      len := fun c hc => by simp at hc; simp [hc]
      cell := fun a ha => by rw [cell_commit, ha b (by simp)]; rfl
      host := fun a ha => by rw [commit_hostCells, mem_unmark]; simp [ha b (by simp)] }

theorem read_setLen (b : Buf) (n : BitVec 8) (s : State) (a : Nat) :
    Memory.read (setLen b n s).mem a =
      if a < b.addr n.toNat ∨ b.addr (s.len b).toNat ≤ a ∨ a ∈ s.hostCells then Memory.read s.mem a else none := by
  rw [setLen_mem, Memory.read_forget]

/-- Writing a length leaves every cell outside the buffer's window, and every cell below the new length, and
every cell that the host has written since the last command that wrote its buffer, as it was. -/
theorem cell_setLen (b : Buf) (n : BitVec 8) (s : State) (a : Nat)
    (h : b.holds a = false ∨ a < b.addr n.toNat ∨ b.addr (s.len b).toNat ≤ a ∨ a ∈ s.hostCells) :
    (setLen b n s).cell a = s.cell a := by
  apply cell_congr _ _ _ _ (by simp)
  rw [read_setLen]
  split_ifs with hc
  · rfl
  · have hl := len_lt s b
    rcases h with h | h
    · rw [Bool.eq_false_iff, Ne, holds_iff] at h
      have := n.isLt
      unfold Buf.addr at hc
      omega
    · exact absurd h hc

/-- THE ERROR ENTRY says exactly what 60_exceptions.md R184 says. -/
theorem enterError_raised (d : Option Buf) (r : Raise) (s : State) :
    Raised d r.kind r.idx s (enterError d r s) where
  errcode := by simp
  erridx := by simp
  status := by simp
  emptied := by
    intro b hb
    cases d with
    | none => simp [emptied] at hb; simp [enterError, hb]
    | some c =>
      simp only [emptied, List.mem_cons, List.not_mem_nil, or_false] at hb
      by_cases h : b = .out <;> simp [enterError, h]
      rcases hb with hb | hb
      · exact fun hc => absurd hb hc
      · exact absurd hb h
  sr := by simp
  host := by simp
  kept := by
    intro a ha
    have h1 : a ∈ (recordError r s).hostCells := ha
    cases d with
    | none => exact cell_setLen .out 0#8 (recordError r s) a (.inr (.inr (.inr h1)))
    | some c =>
      exact (cell_setLen .out 0#8 (setLen c 0#8 (recordError r s)) a (.inr (.inr (.inr (by simpa using h1))))).trans
        (cell_setLen c 0#8 (recordError r s) a (.inr (.inr (.inr h1))))
  frame :=
    { pwr := by simp, flags := by simp, cfg := by simp, draw := by simp, pending := by simp, readData := by simp
      len := by
        intro b hb
        cases d with
        | none => simp [emptied] at hb; simp [enterError, hb]
        | some c => simp [emptied] at hb; simp [enterError, hb]
      cell := by
        intro a ha
        cases d with
        | none =>
          have h1 := ha .out (by simp [emptied])
          unfold enterError
          rw [cell_setLen _ _ _ _ (.inl h1)]
          rfl
        | some c =>
          have h1 := ha .out (by simp [emptied])
          have h2 := ha c (by simp [emptied])
          unfold enterError
          simp only
          rw [cell_setLen _ _ _ _ (.inl h1), cell_setLen _ _ _ _ (.inl h2)]
          rfl
      host := by simp }

/-- A cell after an append that fits: the contents before stand, then the new values. -/
theorem cell_append (b : Buf) (vs : List Nat) (s : State) (a : Nat) (hne : vs ≠ [])
    (hl : (s.len b).toNat ≤ 255) :
    (append b vs s).cell a =
      if b.addr (s.len b).toNat ≤ a ∧ a < b.base + 255 then
        match vs[a - b.addr (s.len b).toNat]? with
        | some v => BitVec.ofNat 8 v
        | none => Config.freeCell s.draw a
      else s.cell a := by
  have hmem : (append b vs s).mem = Memory.splice s.mem (b.addr (s.len b).toNat) (b.base + Config.cap) vs := by
    simp [append, hne]
  unfold State.cell
  rw [hmem, append_draw, Memory.read_splice _ _ _ _ _ (by unfold Buf.addr Config.cap; omega)]
  unfold Config.cap
  by_cases h : b.addr (s.len b).toNat ≤ a ∧ a < b.base + 255
  · rw [if_pos h, if_pos h]
    cases vs[a - b.addr (s.len b).toNat]? <;> rfl
  · rw [if_neg h, if_neg h]

theorem append_len (b c : Buf) (vs : List Nat) (s : State) :
    (append b vs s).len c = if c = b then BitVec.ofNat 8 ((s.len b).toNat + vs.length) else s.len c := by
  unfold append
  split_ifs with h1 h2 h2
  · subst h2
    simp only [List.isEmpty_iff] at h1
    simp [h1]
  · rfl
  · subst h2; simp
  · simp only [withLen_len, h2, if_false]; cases c <;> rfl

/-- THE APPEND: the buffer's contents before, then the new values; the frame holds. -/
theorem append_completed (b : Buf) (vs : List Nat) (s : State) (hn : (s.len b).toNat + vs.length ≤ 255)
    (hv : ∀ v ∈ vs, v < 256) : Completed b (values b s ++ vs) s (append b vs s) where
  len := by rw [append_len, if_pos rfl, BitVec.toNat_ofNat, List.length_append, values_length]; omega
  vals := by
    by_cases hne : vs = []
    · subst hne; simp [append]
    · apply List.ext_getElem?
      intro i
      have hl : ((append b vs s).len b).toNat = (s.len b).toNat + vs.length := by
        rw [append_len, if_pos rfl, BitVec.toNat_ofNat]; omega
      by_cases hi : i < (s.len b).toNat + vs.length
      · unfold values
        rw [List.getElem?_map, contents_getElem? _ _ _ (by omega), cell_append _ _ _ _ hne (by omega)]
        by_cases h2 : i < (s.len b).toNat
        · rw [if_neg (by unfold Buf.addr; omega), List.getElem?_append_left (by simp [contents_length, h2]),
            List.getElem?_map, contents_getElem? _ _ _ h2]
        · have h3 : b.addr i - b.addr (s.len b).toNat = i - (s.len b).toNat := by unfold Buf.addr; omega
          have h4 : i - (s.len b).toNat < vs.length := by omega
          rw [if_pos (by unfold Buf.addr; omega), h3, List.getElem?_append_right (by simp [contents_length]; omega),
            List.length_map, contents_length, List.getElem?_eq_getElem h4]
          simp [Nat.mod_eq_of_lt (hv _ (List.getElem_mem h4))]
      · rw [List.getElem?_eq_none (by rw [values_length]; omega),
          List.getElem?_eq_none (by rw [List.length_append, values_length]; omega)]
  status := by simp
  errcode := by simp
  erridx := by simp
  frame :=
    { pwr := by simp, flags := by simp, cfg := by simp, draw := by simp, pending := by simp, readData := by simp
      len := fun c hc => by simp at hc; rw [append_len, if_neg hc]
      cell := fun a ha => by
        by_cases hne : vs = []
        · subst hne; simp [append]
        · rw [cell_append _ _ _ _ hne (by omega), if_neg]
          have := ha b (by simp)
          rw [Bool.eq_false_iff, Ne, holds_iff] at this
          unfold Buf.addr; omega
      host := fun a ha => by
        rw [append_hostCells]
        split_ifs
        · rfl
        · rw [mem_unmark]; simp [ha b (by simp)] }

/-! Every operation on the memory keeps the canonical form, and reset has it (20_memory.md R45; log 6). -/

theorem wf_reset : Memory.WF State.reset.mem := ⟨List.Pairwise.nil, fun _ h => absurd h List.not_mem_nil⟩

theorem wf_storeCell (b : Buf) (i : Nat) (v : Byte) (s : State) (hi : i < 255) (h : Memory.WF s.mem) :
    Memory.WF (storeCell (b.addr i) v s).mem :=
  Memory.wf_insert _ _ _ (isCellAddr_of_holds b _ (holds_addr b i hi)) h

theorem wf_setLen (b : Buf) (n : BitVec 8) (s : State) (h : Memory.WF s.mem) : Memory.WF (setLen b n s).mem := by
  rw [setLen_mem]; exact Memory.wf_forget _ _ _ _ h

theorem wf_enterError (d : Option Buf) (e : Raise) (s : State) (h : Memory.WF s.mem) :
    Memory.WF (enterError d e s).mem := by
  cases d with
  | none => exact wf_setLen _ _ _ h
  | some b => exact wf_setLen _ _ _ (wf_setLen _ _ _ h)

theorem wf_commit (b : Buf) (vs : List Nat) (s : State) (h : Memory.WF s.mem) : Memory.WF (commit b vs s).mem := by
  rw [commit_mem]
  refine Memory.wf_splice _ _ _ _ (by omega) (fun a h1 h2 => isCellAddr_of_holds b a ?_) h
  rw [holds_iff]; exact ⟨h1, h2⟩

theorem wf_append (b : Buf) (vs : List Nat) (s : State) (h : Memory.WF s.mem) : Memory.WF (append b vs s).mem := by
  have hl := len_lt s b
  unfold append
  split_ifs
  · exact h
  · simp only [withLen_mem]
    refine Memory.wf_splice _ _ _ _ (by unfold Buf.addr Config.cap; omega)
      (fun a h1 h2 => isCellAddr_of_holds b a ?_) h
    rw [holds_iff]; unfold Buf.addr at h1; exact ⟨by omega, h2⟩

/-! Every operation keeps the host's addresses in order, and listed in the memory (10_state.md R28; log 7). -/

theorem listed_storeCell (b : Buf) (i : Nat) (v : Byte) (s : State)
    (h : ∀ a ∈ s.hostCells, (Memory.read s.mem a).isSome = true) :
    ∀ a ∈ (storeCell (b.addr i) v s).hostCells, (Memory.read (storeCell (b.addr i) v s).mem a).isSome = true := by
  intro a ha
  rw [storeCell_hostCells, mem_mark] at ha
  rw [storeCell_mem, Memory.read_insert]
  split_ifs with hc
  · rfl
  · exact h a (ha.resolve_left fun h1 => hc h1.symm)

theorem listed_setLen (b : Buf) (n : BitVec 8) (s : State)
    (h : ∀ a ∈ s.hostCells, (Memory.read s.mem a).isSome = true) :
    ∀ a ∈ (setLen b n s).hostCells, (Memory.read (setLen b n s).mem a).isSome = true := by
  intro a ha
  rw [setLen_hostCells] at ha
  rw [read_setLen, if_pos (.inr (.inr ha))]
  exact h a ha

theorem listed_enterError (d : Option Buf) (e : Raise) (s : State)
    (h : ∀ a ∈ s.hostCells, (Memory.read s.mem a).isSome = true) :
    ∀ a ∈ (enterError d e s).hostCells, (Memory.read (enterError d e s).mem a).isSome = true := by
  cases d with
  | none => exact listed_setLen .out _ _ h
  | some b => exact listed_setLen .out _ _ (listed_setLen b _ (recordError e s) h)

theorem listed_commit (b : Buf) (vs : List Nat) (s : State)
    (h : ∀ a ∈ s.hostCells, (Memory.read s.mem a).isSome = true) :
    ∀ a ∈ (commit b vs s).hostCells, (Memory.read (commit b vs s).mem a).isSome = true := by
  intro a ha
  rw [commit_hostCells, mem_unmark] at ha
  have hb : ¬ (b.base ≤ a ∧ a < b.base + Config.cap) := fun hc => by
    have := (holds_iff b a).2 hc
    simp [ha.2] at this
  rw [commit_mem, Memory.read_splice _ _ _ _ _ (by omega), if_neg hb]
  exact h a ha.1

theorem listed_append (b : Buf) (vs : List Nat) (s : State)
    (h : ∀ a ∈ s.hostCells, (Memory.read s.mem a).isSome = true) :
    ∀ a ∈ (append b vs s).hostCells, (Memory.read (append b vs s).mem a).isSome = true := by
  intro a ha
  have hl := len_lt s b
  unfold append at ha ⊢
  split_ifs at ha ⊢ with hv
  · exact h a ha
  · simp only [withLen_hostCells, withLen_mem] at ha ⊢
    rw [mem_unmark] at ha
    have hb : ¬ (b.addr (s.len b).toNat ≤ a ∧ a < b.base + Config.cap) := fun hc => by
      have := (holds_iff b a).2 ⟨by unfold Buf.addr at hc; omega, hc.2⟩
      simp [ha.2] at this
    rw [Memory.read_splice _ _ _ _ _ (by unfold Buf.addr Config.cap; omega), if_neg hb]
    exact h a ha.1

theorem sorted_append (b : Buf) (vs : List Nat) (s : State) (h : s.hostCells.Pairwise (· < ·)) :
    (append b vs s).hostCells.Pairwise (· < ·) := by
  rw [append_hostCells]
  split_ifs
  · exact h
  · exact unmark_sorted b _ h

/-- THE GATE, with ERR 0: the command runs. -/
theorem gated_clear (k : State → State) (s : State) (h : s.status = 0#1) : gated k s = .next (k s) := by
  simp [gated, State.err, h]

/-- THE GATE, with ERR 1: nothing (45_control.md R171). -/
theorem gated_set (k : State → State) (s : State) (h : s.status = 1#1) : gated k s = .next s := by
  simp [gated, State.err, h]

/-- What a gated command can do: nothing while ERR is 1, its effect otherwise. -/
theorem gated_cases (k : State → State) (s t : State) (h : gated k s = .next t) :
    (s.status = 1#1 ∧ t = s) ∨ (s.status = 0#1 ∧ t = k s) := by
  have hs : s.status = 0#1 ∨ s.status = 1#1 := by
    have := s.status.isLt
    rcases (show s.status.toNat = 0 ∨ s.status.toNat = 1 by omega) with h | h
    · exact .inl (BitVec.eq_of_toNat_eq (by simpa using h))
    · exact .inr (BitVec.eq_of_toNat_eq (by simpa using h))
  rcases hs with h0 | h1
  · rw [gated_clear k s h0] at h; cases h; exact .inr ⟨h0, rfl⟩
  · rw [gated_set k s h1] at h; cases h; exact .inl ⟨h1, rfl⟩

/-- The end of a stage command: an error entry, or a commit. -/
theorem finish_cases (b : Buf) (r : Except Raise (List Nat)) (s : State) :
    (∃ e, r = .error e ∧ finish b r s = enterError (some b) e s) ∨
    (∃ vs, r = .ok vs ∧ finish b r s = commit b vs s) := by
  cases r with
  | error e => exact .inl ⟨e, rfl, rfl⟩
  | ok vs => exact .inr ⟨vs, rfl, rfl⟩

end Sys2Proof.Machine
end

