-- ==== Sys2Proof/Laws/Scan.lean ====
section
/-! SUPPORT. What the ascending scan can do (60_exceptions.md R186): it answers results in order exactly when no element
raises, and otherwise the error of the lowest element that raises. -/

namespace Sys2Proof.Machine

variable {α β : Type}

/-- The scan succeeds exactly when every element does, with the results in order. -/
theorem scan_ok_iff (f : Nat → α → Except Raise β) (n : Nat) (l : List α) (ys : List β) :
    scan f n l = .ok ys ↔
      ys.length = l.length ∧ ∀ (k : Nat) x, l[k]? = some x → ∃ y, ys[k]? = some y ∧ f (n + k) x = .ok y := by
  induction l generalizing n ys with
  | nil => simp [scan, eq_comm]
  | cons x xs ih =>
    unfold scan
    cases hf : f n x with
    | error r =>
      simp only [reduceCtorEq, false_iff, not_and]
      intro _ h
      obtain ⟨y, -, hy⟩ := h 0 x rfl
      simp [hf] at hy
    | ok y =>
      cases hs : scan f (n + 1) xs with
      | error r =>
        simp only [reduceCtorEq, false_iff, not_and]
        intro hl h
        cases ys with
        | nil => simp at hl
        | cons y' ys =>
          have : scan f (n + 1) xs = .ok ys := (ih (n + 1) ys).2
            ⟨by simpa using hl, fun k z hz => by
              obtain ⟨w, h1, h2⟩ := h (k + 1) z (by simpa using hz)
              exact ⟨w, by simpa using h1, by rw [← h2]; congr 1; omega⟩⟩
          rw [hs] at this; cases this
      | ok zs =>
        simp only [Except.ok.injEq]
        constructor
        · rintro rfl
          obtain ⟨h1, h2⟩ := (ih (n + 1) zs).1 hs
          refine ⟨by simp [h1], fun k z hz => ?_⟩
          cases k with
          | zero => simp only [List.getElem?_cons_zero, Option.some.injEq] at hz; subst hz; exact ⟨y, rfl, hf⟩
          | succ k =>
            obtain ⟨w, h3, h4⟩ := h2 k z (by simpa using hz)
            exact ⟨w, by simpa using h3, by rw [← h4]; congr 1; omega⟩
        · rintro ⟨hl, h⟩
          cases ys with
          | nil => simp at hl
          | cons y' ys =>
            obtain ⟨w, h1, h2⟩ := h 0 x rfl
            simp only [List.getElem?_cons_zero, Option.some.injEq] at h1
            subst h1
            rw [Nat.add_zero, hf] at h2
            cases h2
            have : scan f (n + 1) xs = .ok ys := (ih (n + 1) ys).2
              ⟨by simpa using hl, fun k z hz => by
                obtain ⟨w, h1, h2⟩ := h (k + 1) z (by simpa using hz)
                exact ⟨w, by simpa using h1, by rw [← h2]; congr 1; omega⟩⟩
            rw [hs] at this; cases this; rfl

theorem scan_ok_length (f : Nat → α → Except Raise β) (n : Nat) (l : List α) (ys : List β) (h : scan f n l = .ok ys) :
    ys.length = l.length := ((scan_ok_iff f n l ys).1 h).1

/-- The error of the lowest element that raises is the error of the scan. -/
theorem scan_error_of_first (f : Nat → α → Except Raise β) (n : Nat) (l : List α) (k : Nat) (x : α) (r : Raise)
    (hk : l[k]? = some x) (hr : f (n + k) x = .error r)
    (hlow : ∀ (j : Nat) z, j < k → l[j]? = some z → ∃ y, f (n + j) z = .ok y) : scan f n l = .error r := by
  induction l generalizing n k with
  | nil => simp at hk
  | cons a l ih =>
    unfold scan
    cases k with
    | zero =>
      simp only [List.getElem?_cons_zero, Option.some.injEq] at hk
      subst hk
      rw [Nat.add_zero] at hr
      rw [hr]
    | succ k =>
      obtain ⟨y, hy⟩ := hlow 0 a (by omega) rfl
      rw [Nat.add_zero] at hy
      rw [hy]
      simp only
      rw [ih (n + 1) k (by simpa using hk) (by rw [← hr]; congr 1; omega) fun j z hj hz => by
        obtain ⟨y, hy⟩ := hlow (j + 1) z (by omega) (by simpa using hz)
        exact ⟨y, by rw [← hy]; congr 1; omega⟩]

/-- The scan with results that a function of the element gives. -/
theorem scan_eq_ok (f : Nat → α → Except Raise β) (n : Nat) (l : List α) (ys : List β) (hl : ys.length = l.length)
    (h : ∀ (k : Nat) x, l[k]? = some x → ∃ y, ys[k]? = some y ∧ f (n + k) x = .ok y) : scan f n l = .ok ys :=
  (scan_ok_iff f n l ys).2 ⟨hl, h⟩

/-- The scan depends on the function at the elements alone. -/
theorem scan_congr (f g : Nat → α → Except Raise β) (n : Nat) (l : List α)
    (h : ∀ i, ∀ x ∈ l, f i x = g i x) : scan f n l = scan g n l := by
  induction l generalizing n with
  | nil => rfl
  | cons x xs ih =>
    simp only [scan]
    rw [h n x (by simp), ih (n + 1) fun i z hz => h i z (by simp [hz])]

/-- The width check passes every cell through unchanged, exactly when all are narrow. -/
theorem scan_cellBelow (w n : Nat) (l ys : List Nat) :
    scan (cellBelow w) n l = .ok ys ↔ ys = l ∧ ∀ v ∈ l, v < 2 ^ w := by
  induction l generalizing n ys with
  | nil => simp [scan, eq_comm]
  | cons x xs ih =>
    unfold scan
    by_cases hx : x ≥ 2 ^ w
    · rw [show cellBelow w n x = .error ⟨.configurationError, n⟩ from if_pos hx]
      simp [hx]
    · rw [show cellBelow w n x = .ok x from if_neg hx]
      cases hs : scan (cellBelow w) (n + 1) xs with
      | error r =>
        simp only [reduceCtorEq, false_iff, not_and]
        intro hy hall
        have := (ih (n + 1) xs).2 ⟨rfl, fun v hv => hall v (by simp [hv])⟩
        rw [hs] at this; cases this
      | ok zs =>
        obtain ⟨rfl, h2⟩ := (ih (n + 1) zs).1 hs
        simp only [Except.ok.injEq, List.mem_cons, forall_eq_or_imp]
        exact ⟨fun h => ⟨h.symm, by omega, h2⟩, fun h => h.1.symm⟩

/-- The lowest wide cell raises ConfigurationError with its index. -/
theorem scan_cellBelow_error (w : Nat) (l : List Nat) (k v : Nat) (hk : l[k]? = some v) (hv : 2 ^ w ≤ v)
    (hlow : ∀ (j : Nat) u, j < k → l[j]? = some u → u < 2 ^ w) :
    scan (cellBelow w) 0 l = .error ⟨.configurationError, k⟩ := by
  refine scan_error_of_first _ 0 l k v _ hk ?_ fun j z hj hz => ⟨z, ?_⟩
  · simp [cellBelow, hv]
  · have := hlow j z hj hz
    simp [cellBelow, show ¬ 2 ^ w ≤ z by omega]

end Sys2Proof.Machine
end

