-- ==== Sys2Proof/Laws/Stages.lean ====
section
/-! SUPPORT. What each stage's shared computation gives, said once: the ends of the commands, the codec's results, the
packer's concatenation, the encoder's lengths and final register, the scatter and the formatter, the two merges. -/

namespace Sys2Proof.Machine

/-! ## The ends of the commands -/

theorem finish_completed (b : Buf) (vs : List Nat) (s : State) (r : Except Raise (List Nat)) (hr : r = .ok vs)
    (hn : vs.length ≤ 255) (hv : ∀ v ∈ vs, v < 256) :
    Completed b vs s (finish b r s) ∧ (finish b r s).sr = s.sr := by
  subst hr; exact ⟨commit_completed b vs s hn hv, by simp [finish]⟩

theorem finish_raised (b : Buf) (e : Raise) (s : State) (r : Except Raise (List Nat)) (hr : r = .error e) :
    Raised (some b) e.kind e.idx s (finish b r s) := by
  subst hr; exact enterError_raised _ _ _

theorem finishConv_completed (bits : List Nat) (sr : Nat) (s : State) (r : Except Raise (List Nat × Nat))
    (hr : r = .ok (bits, sr)) (hn : bits.length ≤ 255) (hv : ∀ v ∈ bits, v < 256) :
    Completed .fec bits s (finishConv r s) ∧ (finishConv r s).sr = sr := by
  subst hr
  have h := commit_completed .fec bits s hn hv
  exact ⟨⟨h.len, h.vals, h.status, h.errcode, h.erridx,
    ⟨h.frame.pwr, h.frame.flags, h.frame.cfg, h.frame.draw, h.frame.pending, h.frame.readData, h.frame.len,
      h.frame.cell, h.frame.host⟩⟩, rfl⟩

theorem finishConv_raised (e : Raise) (s : State) (r : Except Raise (List Nat × Nat)) (hr : r = .error e) :
    Raised (some .fec) e.kind e.idx s (finishConv r s) := by
  subst hr; exact enterError_raised _ _ _

theorem finishAppend_completed (vs : List Nat) (s : State) (r : Except Raise (List Nat)) (hr : r = .ok vs)
    (hn : (s.len .out).toNat + vs.length ≤ 255) (hv : ∀ v ∈ vs, v < 256) :
    Completed .out (values .out s ++ vs) s (finishAppend r s) ∧ (finishAppend r s).sr = s.sr := by
  subst hr; exact ⟨append_completed .out vs s hn hv, by simp [finishAppend]⟩

theorem finishAppend_raised (e : Raise) (s : State) (r : Except Raise (List Nat)) (hr : r = .error e) :
    Raised (some .out) e.kind e.idx s (finishAppend r s) := by
  subst hr; exact enterError_raised _ _ _

/-! ## The codec -/

/-- The result of a JT message whose characters are all in ROM_JT. -/
theorem codeJt_eq_ok (cfg : Cfg) (cap : Nat) (chr : List Byte) (codes : List Nat) (hl : chr.length ≤ cap)
    (hc : chr.map (jtCode cfg) = codes.map some) :
    codeJt cfg cap chr = .ok (codes ++ List.replicate (cap - chr.length) (spaceCode cfg)) := by
  have hs : scan (jtChar cfg) 0 chr = .ok codes := by
    apply scan_eq_ok _ _ _ _ (by simpa using (congrArg List.length hc).symm)
    intro k x hx
    have h := congrArg (·[k]?) hc
    simp only [List.getElem?_map, hx, Option.map_some] at h
    cases hy : codes[k]? with
    | none => simp [hy] at h
    | some y =>
      simp only [hy, Option.map_some, Option.some.injEq] at h
      exact ⟨y, rfl, by simp [jtChar, h]⟩
  unfold codeJt
  rw [if_neg (by omega), hs]

/-- The units of an FSQ message whose characters are all in ROM_FSQ. -/
theorem scan_fsqChar (cfg : Cfg) (chr : List Byte) (units : List (List Nat)) (hc : chr.map (fsqCode cfg) = units.map some) :
    scan (fsqChar cfg) 0 chr = .ok units := by
  apply scan_eq_ok _ _ _ _ (by simpa using (congrArg List.length hc).symm)
  intro k x hx
  have h := congrArg (·[k]?) hc
  simp only [List.getElem?_map, hx, Option.map_some] at h
  cases hy : units[k]? with
  | none => simp [hy] at h
  | some y =>
    simp only [hy, Option.map_some, Option.some.injEq] at h
    exact ⟨y, rfl, by simp [fsqChar, h]⟩

/-! ## The packer -/

/-- The scan of the fields, from their values. -/
theorem scan_fieldCheck (fields : List Field) (vs codes : List Nat) (p : Nat) (hl : vs.length = fields.length)
    (h : ∀ (f : Nat) fld v, fields[f]? = some fld → vs[f]? = some v →
      fieldValue codes p fld.value = some v ∧ v < 2 ^ fld.width) :
    scan (fieldCheck codes p) 0 fields = .ok ((fields.map Field.width).zip vs) := by
  apply scan_eq_ok _ _ _ _ (by simp [hl])
  intro k fld hk
  have hv : k < vs.length := by rw [hl]; exact (List.getElem?_eq_some_iff.1 hk).1
  obtain ⟨h1, h2⟩ := h k fld _ hk (List.getElem?_eq_getElem hv)
  refine ⟨(fld.width, vs[k]), ?_, ?_⟩
  · rw [List.zip, List.getElem?_zipWith]; simp [hk, hv]
  · unfold fieldCheck; rw [h1]; simp only; rw [if_neg (by omega)]

/-- The concatenation from an accumulator shifts it by the widths. -/
theorem concatFields_acc (acc : Nat) (l : List (Nat × Nat)) :
    concatFields acc l = acc * 2 ^ (l.map Prod.fst).sum + concatFields 0 l := by
  induction l generalizing acc with
  | nil => simp [concatFields]
  | cons e l ih =>
    obtain ⟨w, v⟩ := e
    unfold concatFields
    rw [ih (acc * 2 ^ w + v), ih (0 * 2 ^ w + v), List.map_cons, List.sum_cons, pow_add]
    ring

/-- The concatenation stays within the sum of the widths. -/
theorem concatFields_lt (l : List (Nat × Nat)) (h : ∀ e ∈ l, e.2 < 2 ^ e.1) :
    concatFields 0 l < 2 ^ (l.map Prod.fst).sum := by
  induction l with
  | nil => simp [concatFields]
  | cons e l ih =>
    obtain ⟨w, v⟩ := e
    have h1 : v < 2 ^ w := h (w, v) (by simp)
    have h2 := ih fun e he => h e (by simp [he])
    unfold concatFields
    rw [concatFields_acc, List.map_cons, List.sum_cons, pow_add]
    have : (v + 1) * 2 ^ (l.map Prod.fst).sum ≤ 2 ^ w * 2 ^ (l.map Prod.fst).sum := Nat.mul_le_mul_right _ h1
    simp only [Nat.zero_mul, Nat.zero_add]
    nlinarith

theorem emitCells_length (width cellW pf : Nat) : (emitCells width cellW pf).length = width / cellW := by simp [emitCells]

theorem emitCells_getElem? (width cellW pf k : Nat) (hk : k < width / cellW) :
    (emitCells width cellW pf)[k]? = some (pf / 2 ^ (width - (k + 1) * cellW) % 2 ^ cellW) := by
  simp [emitCells, hk]

theorem emitCells_lt (width cellW pf : Nat) : ∀ v ∈ emitCells width cellW pf, v < 2 ^ cellW := by
  intro v hv
  obtain ⟨x, -, rfl⟩ := List.mem_map.1 hv
  exact Nat.mod_lt _ (by positivity)

/-! ## The convolutional encoder -/

theorem parity_le (w v : Nat) : parity w v ≤ 1 := by
  induction w generalizing v with
  | zero => simp [parity]
  | succ w ih =>
    unfold parity
    have h1 := ih (v / 2)
    have h2 : v % 2 < 2 := Nat.mod_lt _ (by decide)
    generalize v % 2 = a at *
    generalize parity w (v / 2) = b at *
    interval_cases a <;> interval_cases b <;> decide

theorem convSteps_length (c : ConvCfg) (sr : Nat) (bits : List Nat) : (convSteps c sr bits).1.length = 2 * bits.length := by
  induction bits generalizing sr with
  | nil => rfl
  | cons b bits ih => simp only [convSteps, List.length_cons, ih]; omega

theorem convSteps_bits (c : ConvCfg) (sr : Nat) (bits : List Nat) : ∀ v ∈ (convSteps c sr bits).1, v ≤ 1 := by
  induction bits generalizing sr with
  | nil => simp [convSteps]
  | cons b bits ih =>
    intro v hv
    simp only [convSteps, List.mem_cons] at hv
    rcases hv with h | h | h
    · rw [h]; exact parity_le _ _
    · rw [h]; exact parity_le _ _
    · exact ih _ v h

/-- The register stays within K bits. -/
theorem convSteps_sr_lt (c : ConvCfg) (sr : Nat) (bits : List Nat) (h : sr < 2 ^ c.k) :
    (convSteps c sr bits).2 < 2 ^ c.k := by
  induction bits generalizing sr with
  | nil => exact h
  | cons b bits ih => exact ih _ (Nat.mod_lt _ (by positivity))

/-- CONVENC gives 2 * CONV_LEN bits when the data fit. -/
theorem convEnc_length (c : ConvCfg) (d : List Nat) (h : d.length ≤ c.len) : (convEnc c d).1.length = 2 * c.len := by
  unfold convEnc
  rw [convSteps_length, List.length_append, List.length_replicate]
  omega

/-- A CONV command's computation, from its cells. -/
theorem convCells_eq_ok (packW : Nat) (c : ConvCfg) (pkd : List Nat) (hl : pkd.length = packW) (hb : ∀ v ∈ pkd, v ≤ 1) :
    convCells packW c pkd = .ok (convEnc c pkd) := by
  have hs : scan (cellBelow 1) 0 pkd = .ok pkd := (scan_cellBelow 1 0 pkd pkd).2 ⟨rfl, fun v hv => by
    have := hb v hv; omega⟩
  unfold convCells
  rw [if_neg (by simp [hl]), hs]

/-! ## The interleaver -/

theorem foldl_set_length (l : List (Nat × Nat)) (b : List Nat) :
    (l.foldl (fun b qv => b.set qv.1 qv.2) b).length = b.length := by
  induction l generalizing b with
  | nil => rfl
  | cons e l ih => simp only [List.foldl_cons]; rw [ih, List.length_set]

theorem foldl_set_getElem?_other (l : List (Nat × Nat)) (b : List Nat) (q : Nat) (h : q ∉ l.map Prod.fst) :
    (l.foldl (fun b qv => b.set qv.1 qv.2) b)[q]? = b[q]? := by
  induction l generalizing b with
  | nil => rfl
  | cons e l ih =>
    simp only [List.map_cons, List.mem_cons, not_or] at h
    simp only [List.foldl_cons]
    rw [ih _ h.2, List.getElem?_set_ne (Ne.symm h.1)]

theorem foldl_set_getElem? (l : List (Nat × Nat)) (b : List Nat) (hn : (l.map Prod.fst).Nodup)
    (hr : ∀ e ∈ l, e.1 < b.length) : ∀ e ∈ l, (l.foldl (fun b qv => b.set qv.1 qv.2) b)[e.1]? = some e.2 := by
  induction l generalizing b with
  | nil => simp
  | cons d l ih =>
    simp only [List.map_cons, List.nodup_cons] at hn
    intro e he
    simp only [List.foldl_cons]
    rcases List.mem_cons.1 he with h | h
    · subst h
      rw [foldl_set_getElem?_other _ _ _ hn.1, List.getElem?_set_self (hr e (by simp))]
    · exact ih _ hn.2 (fun x hx => by rw [List.length_set]; exact hr x (by simp [hx])) e h

theorem zip_fst_sublist (l m : List Nat) : ((l.zip m).map Prod.fst).Sublist l := by
  induction l generalizing m with
  | nil => simp
  | cons x l ih =>
    cases m with
    | nil => simp
    | cons y m => simpa using ih m

theorem scatter_length (n : Nat) (perm a : List Nat) : (scatter n perm a).length = n := by
  unfold scatter; rw [foldl_set_length, List.length_replicate]

/-- THE SCATTER of 43_interleaver.md R131: cell PERM[p] holds a[p]. -/
theorem scatter_getElem? (n : Nat) (perm a : List Nat) (hn : perm.Nodup) (hr : ∀ q ∈ perm, q < n) (p q v : Nat)
    (hq : perm[p]? = some q) (hv : a[p]? = some v) : (scatter n perm a)[q]? = some v := by
  unfold scatter
  refine foldl_set_getElem? (perm.zip a) _ ?_ ?_ (q, v) ?_
  · exact hn.sublist (zip_fst_sublist perm a)
  · intro e he
    rw [List.length_replicate]
    exact hr _ (List.of_mem_zip he).1
  · rw [List.mem_iff_getElem?]
    exact ⟨p, by rw [List.zip, List.getElem?_zipWith]; simp [hq, hv]⟩

/-- The join from an accumulator shifts it by the cells. -/
theorem joinCells_acc (w : Nat) (l : List Nat) (acc : Nat) :
    l.foldl (fun acc v => acc * 2 ^ w + v) acc = acc * 2 ^ (w * l.length) + joinCells w l := by
  unfold joinCells
  induction l generalizing acc with
  | nil => simp
  | cons v l ih =>
    simp only [List.foldl_cons]
    rw [ih (acc * 2 ^ w + v), ih (0 * 2 ^ w + v), List.length_cons, Nat.mul_add, pow_add]
    ring

theorem joinCells_cons (w v : Nat) (l : List Nat) : joinCells w (v :: l) = v * 2 ^ (w * l.length) + joinCells w l := by
  have h := joinCells_acc w l v
  unfold joinCells at *
  simpa using h

theorem joinCells_lt (w : Nat) (l : List Nat) (h : ∀ v ∈ l, v < 2 ^ w) : joinCells w l < 2 ^ (w * l.length) := by
  induction l with
  | nil => simp [joinCells]
  | cons v l ih =>
    have h1 := h v (by simp)
    have h2 := ih fun x hx => h x (by simp [hx])
    rw [joinCells_cons, List.length_cons, Nat.mul_add, Nat.mul_one, Nat.add_comm (w * l.length), pow_add]
    have : (v + 1) * 2 ^ (w * l.length) ≤ 2 ^ w * 2 ^ (w * l.length) := Nat.mul_le_mul_right _ h1
    nlinarith

theorem formatCells_length (c : IlvCfg) (b : List Nat) : (formatCells c b).length = c.prmN := by simp [formatCells]

theorem ilvStage_length (c : IlvCfg) (a : List Nat) : (ilvStage c a).length = c.prmN := by
  unfold ilvStage grayAfter
  cases c.gray <;> simp [formatCells_length]

/-- An ILV command's computation, from its cells. -/
theorem ilvCells_eq_ok (c : IlvCfg) (fec : List Nat) (hl : fec.length = c.fecN) (hb : ∀ v ∈ fec, v < 2 ^ c.cellW) :
    ilvCells c fec = .ok (ilvStage c fec) := by
  unfold ilvCells
  rw [if_neg (by simp [hl]), (scan_cellBelow c.cellW 0 fec fec).2 ⟨rfl, hb⟩]

/-! ## The merger -/

theorem mrgCheck_eq_ok (prmN symW : Nat) (prm : List Nat) (hl : prm.length = prmN) (hb : ∀ v ∈ prm, v < 2 ^ symW) :
    mrgCheck prmN symW prm = .ok prm := by
  unfold mrgCheck
  rw [if_neg (by simp [hl]), (scan_cellBelow symW 0 prm prm).2 ⟨rfl, hb⟩]

theorem slotMerge_length (ofs : Nat) (is : List Bool) (val x : List Nat) (h : val.length = is.length) :
    (slotMerge ofs is val x).length = is.length := by
  induction is generalizing val x with
  | nil => rfl
  | cons b is ih =>
    cases val with
    | nil => simp at h
    | cons v val =>
      have h' : val.length = is.length := by simpa using h
      cases b <;> simp [slotMerge, ih _ _ h']

/-- A sync slot of a slot merge holds the fixed value. -/
theorem slotMerge_sync (ofs : Nat) (is : List Bool) (val x : List Nat) (h : val.length = is.length) (k : Nat)
    (hk : is[k]? = some true) : (slotMerge ofs is val x)[k]? = val[k]? := by
  induction is generalizing val x k with
  | nil => simp at hk
  | cons b is ih =>
    cases val with
    | nil => simp at h
    | cons v val =>
      have h' : val.length = is.length := by simpa using h
      cases k with
      | zero => simp only [List.getElem?_cons_zero, Option.some.injEq] at hk; subst hk; rfl
      | succ k =>
        have hk' : is[k]? = some true := by simpa using hk
        cases b <;> simp [slotMerge, ih _ _ h' k hk']

theorem addMerge_length (sync x : List Nat) (h : x.length = sync.length) : (addMerge sync x).length = sync.length := by
  simp [addMerge, h]

end Sys2Proof.Machine
end

