-- ==== Sys2Proof/Laws/Exec.lean ====
section
/-! SUPPORT. What a command can do, said once (the inversion of `exec`), and what one step can do (the inversion of
`step`). -/

namespace Sys2Proof.Machine

/-- What a command that runs its stage can do: an error entry, a commit, a commit with a new SR, or an append. -/
inductive StageEnds (i : Instr) (s t : State) : Prop where
  | error (d : Buf) (e : Raise) (hd : destOf i = some d) (ht : t = enterError (some d) e s)
  | commit (d : Buf) (vs : List Nat) (hd : destOf i = some d) (hi : i.op ≠ .conv) (ht : t = Machine.commit d vs s)
  | conv (c : ConvCfg) (pkd : List Nat) (hi : i.op = .conv)
      (hc : c = s.cfg.convJt9 ∨ c = s.cfg.convJt4 ∨ c = s.cfg.convWspr)
      (ht : t = { Machine.commit .fec (convEnc c pkd).1 s with sr := (convEnc c pkd).2 })
  | append (vs : List Nat) (hi : i = .mrgFsq) (hl : s.outLen.toNat + vs.length ≤ 255) (ht : t = Machine.append .out vs s)

theorem finish_ends (i : Instr) (d : Buf) (r : Except Raise (List Nat)) (s : State) (hd : destOf i = some d)
    (hi : i.op ≠ .conv) : StageEnds i s (finish d r s) := by
  cases r with
  | error e => exact .error d e hd rfl
  | ok vs => exact .commit d vs hd hi rfl

theorem finishConv_ends (i : Instr) (w : Nat) (c : ConvCfg) (pkd : List Nat) (s : State) (hi : i.op = .conv)
    (hd : destOf i = some .fec) (hc : c = s.cfg.convJt9 ∨ c = s.cfg.convJt4 ∨ c = s.cfg.convWspr) :
    StageEnds i s (finishConv (convCells w c pkd) s) := by
  unfold convCells
  split_ifs with h
  · exact .error .fec _ hd rfl
  · cases scan (cellBelow 1) 0 pkd with
    | error e => exact .error .fec e hd rfl
    | ok d => exact .conv c d hi hc rfl

theorem finishAppend_ends (w : Nat) (cod : List Nat) (s : State) :
    StageEnds .mrgFsq s (finishAppend (mrgFsq w (outLength s) cod) s) := by
  unfold mrgFsq
  cases scan (cellBelow w) 0 cod with
  | error e => exact .error .out e rfl rfl
  | ok units =>
    by_cases h : outLength s + units.length > Config.cap
    · simp only [if_pos h]; exact .error .out _ rfl rfl
    · simp only [if_neg h]
      exact .append units rfl (by unfold outLength Config.cap at h; omega) rfl

/-- THE INVERSION OF exec: NOP, CLR, a gated command, or the end of a stage. -/
theorem exec_cases (i : Instr) (s t : State) (h : exec i s = .next t) :
    (i = .nop ∧ t = s) ∨ (i = .clr ∧ t = clearCall s) ∨ (i ≠ .clr ∧ s.status = 1#1 ∧ t = s) ∨
    (i ≠ .nop ∧ i ≠ .clr ∧ s.status = 0#1 ∧ StageEnds i s t) := by
  have key : ∀ k : State → State, exec i s = gated k s → i ≠ .nop → i ≠ .clr → StageEnds i s (k s) →
      (i = .nop ∧ t = s) ∨ (i = .clr ∧ t = clearCall s) ∨ (i ≠ .clr ∧ s.status = 1#1 ∧ t = s) ∨
      (i ≠ .nop ∧ i ≠ .clr ∧ s.status = 0#1 ∧ StageEnds i s t) := by
    intro k hk h1 h2 he
    rcases gated_cases k s t (by rw [← hk]; exact h) with ⟨hs, rfl⟩ | ⟨hs, rfl⟩
    · exact .inr (.inr (.inl ⟨h2, hs, rfl⟩))
    · exact .inr (.inr (.inr ⟨h1, h2, hs, he⟩))
  cases i
  case nop => cases h; exact .inl ⟨rfl, rfl⟩
  case clr => cases h; exact .inr (.inl ⟨rfl, rfl⟩)
  case convJt9 => exact key _ rfl (by decide) (by decide) (finishConv_ends _ _ _ _ _ rfl rfl (.inl rfl))
  case convJt4 => exact key _ rfl (by decide) (by decide) (finishConv_ends _ _ _ _ _ rfl rfl (.inr (.inl rfl)))
  case convWspr => exact key _ rfl (by decide) (by decide) (finishConv_ends _ _ _ _ _ rfl rfl (.inr (.inr rfl)))
  case mrgFsq => exact key _ rfl (by decide) (by decide) (finishAppend_ends _ _ _)
  all_goals exact key _ rfl (by decide) (by decide) (finish_ends _ _ _ _ rfl (by decide))

/-- THE INVERSION OF step: idle, a host access that is no command, a command, or a reserved byte. -/
theorem step_cases (s t : State) (h : step s = .next t) :
    (s.pending = [] ∧ t = s) ∨
    ∃ acc rest, s.pending = acc :: rest ∧
      ((commandOf acc = none ∧ t = serve acc { s with pending := rest, draw := s.draw + 1 }) ∨
        (∃ b i rs, commandOf acc = some b ∧ decode [b] = .ok (i, rs) ∧
          exec i { s with pending := rest, draw := s.draw + 1 } = .next t) ∨
        (∃ b e, commandOf acc = some b ∧ decode [b] = .error e ∧
          execReserved b { s with pending := rest, draw := s.draw + 1 } = .next t)) := by
  unfold step takeAccess at h
  cases hp : s.pending with
  | nil => rw [hp] at h; cases h; exact .inl ⟨rfl, rfl⟩
  | cons acc rest =>
    rw [hp] at h
    simp only at h
    refine .inr ⟨acc, rest, rfl, ?_⟩
    cases hc : commandOf acc with
    | none => rw [hc] at h; cases h; exact .inl ⟨rfl, rfl⟩
    | some b =>
      rw [hc] at h
      simp only at h
      cases hd : decode [b] with
      | error e => rw [hd] at h; exact .inr (.inr ⟨b, e, rfl, hd, h⟩)
      | ok x =>
        obtain ⟨i, rs⟩ := x
        rw [hd] at h
        exact .inr (.inl ⟨b, i, rs, rfl, hd, h⟩)

end Sys2Proof.Machine
end

