-- ==== Sys2Proof/Laws/PerInstr.lean ====
section
/-! SUPPORT. The per-instruction family `EncodedWord`: each command names a stage that exists, its command word passes
every check of 30_encoding.md R61 to R66, splitting its byte gives that word back, and the word decodes to the command. -/

namespace Sys2Proof.Laws.EncodedWord

/-- What the family says of one command. -/
def Statement (i : Instr) : Prop :=
  i.wellFormed = true ∧ (encodeWord i).wellFormed = true ∧ splitByte (encodeByte i) = encodeWord i ∧
    decodeWord (encodeWord i) = .ok i

theorem nop : Statement .nop := ⟨rfl, rfl, rfl, rfl⟩
theorem clr : Statement .clr := ⟨rfl, rfl, rfl, rfl⟩
theorem codeJt65 : Statement .codeJt65 := ⟨rfl, rfl, rfl, rfl⟩
theorem codeJt9 : Statement .codeJt9 := ⟨rfl, rfl, rfl, rfl⟩
theorem codeJt4 : Statement .codeJt4 := ⟨rfl, rfl, rfl, rfl⟩
theorem codeWspr : Statement .codeWspr := ⟨rfl, rfl, rfl, rfl⟩
theorem codeFsq : Statement .codeFsq := ⟨rfl, rfl, rfl, rfl⟩
theorem packJt65 : Statement .packJt65 := ⟨rfl, rfl, rfl, rfl⟩
theorem packJt9 : Statement .packJt9 := ⟨rfl, rfl, rfl, rfl⟩
theorem packJt4 : Statement .packJt4 := ⟨rfl, rfl, rfl, rfl⟩
theorem packWspr : Statement .packWspr := ⟨rfl, rfl, rfl, rfl⟩
theorem convJt9 : Statement .convJt9 := ⟨rfl, rfl, rfl, rfl⟩
theorem convJt4 : Statement .convJt4 := ⟨rfl, rfl, rfl, rfl⟩
theorem convWspr : Statement .convWspr := ⟨rfl, rfl, rfl, rfl⟩
theorem ilvJt65 : Statement .ilvJt65 := ⟨rfl, rfl, rfl, rfl⟩
theorem ilvJt9 : Statement .ilvJt9 := ⟨rfl, rfl, rfl, rfl⟩
theorem ilvJt4 : Statement .ilvJt4 := ⟨rfl, rfl, rfl, rfl⟩
theorem ilvWspr : Statement .ilvWspr := ⟨rfl, rfl, rfl, rfl⟩
theorem mrgJt65 : Statement .mrgJt65 := ⟨rfl, rfl, rfl, rfl⟩
theorem mrgJt9 : Statement .mrgJt9 := ⟨rfl, rfl, rfl, rfl⟩
theorem mrgJt4 : Statement .mrgJt4 := ⟨rfl, rfl, rfl, rfl⟩
theorem mrgWspr : Statement .mrgWspr := ⟨rfl, rfl, rfl, rfl⟩
theorem mrgFsq : Statement .mrgFsq := ⟨rfl, rfl, rfl, rfl⟩

end Sys2Proof.Laws.EncodedWord
end

