-- ==== Sys2Proof/Laws/Reference.lean ====
section
/-! SUPPORT. REF meets `CfgOK`: the premise of the statements is not empty. General lemmas about table lookups and the
mixed-radix values of 41_packer.md R110 stand first. -/

namespace Sys2Proof.Machine

/-! ## Lookups and mixed-radix values -/

theorem lookup_mem {β : Type} (key : Byte) (t : List (Byte × β)) (v : β) (h : lookup key t = some v) : (key, v) ∈ t := by
  induction t with
  | nil => simp [lookup] at h
  | cons e t ih =>
    obtain ⟨k, w⟩ := e
    unfold lookup at h
    split_ifs at h with hk
    · cases h; subst hk; exact List.mem_cons_self
    · exact List.mem_cons_of_mem _ (ih h)

theorem lookup_isSome {β : Type} (key : Byte) (t : List (Byte × β)) :
    (lookup key t).isSome = true ↔ key ∈ t.map Prod.fst := by
  induction t with
  | nil => simp [lookup]
  | cons e t ih =>
    obtain ⟨k, w⟩ := e
    unfold lookup
    split_ifs with hk
    · simp [hk]
    · simp [ih, Ne.symm hk]

/-- A table with no value twice is injective. -/
theorem lookup_injective {β : Type} (t : List (Byte × β)) (hn : (t.map Prod.snd).Nodup) (a b : Byte) (v : β)
    (ha : lookup a t = some v) (hb : lookup b t = some v) : a = b := by
  obtain ⟨i, hi, h1⟩ := List.mem_iff_getElem.1 (lookup_mem a t v ha)
  obtain ⟨j, hj, h2⟩ := List.mem_iff_getElem.1 (lookup_mem b t v hb)
  have h3 : i = j := (List.Nodup.getElem_inj_iff hn (hi := by simpa using hi) (hj := by simpa using hj)).1 (by simp [h1, h2])
  subst h3
  rw [h1] at h2
  exact congrArg Prod.fst h2

/-- Equal mixed-radix values come from equal digits. -/
theorem radixValue_injective (xs ys : List Nat) (parts : List (Nat × Nat)) (a a' n : Nat)
    (h : radixValue xs a parts = some n) (h' : radixValue ys a' parts = some n) :
    a = a' ∧ ∀ e ∈ parts, xs[e.2]? = ys[e.2]? := by
  induction parts generalizing a a' with
  | nil => simp only [radixValue, Option.some.injEq] at h h'; simp [h, h']
  | cons e parts ih =>
    obtain ⟨r, j⟩ := e
    unfold radixValue at h h'
    cases hc : xs[j]? with
    | none => simp [hc] at h
    | some d =>
      cases hc' : ys[j]? with
      | none => simp [hc'] at h'
      | some d' =>
        simp only [hc, hc'] at h h'
        split_ifs at h with h1
        split_ifs at h' with h2
        obtain ⟨h3, h4⟩ := ih _ _ h h'
        have h5 : d = d' := by
          have := congrArg (· % r) h3
          simpa [Nat.mod_eq_of_lt h1, Nat.mod_eq_of_lt h2] using this
        subst h5
        have h6 : a = a' := Nat.eq_of_mul_eq_mul_right (by omega) (Nat.add_right_cancel h3)
        refine ⟨h6, fun e he => ?_⟩
        rcases List.mem_cons.1 he with h7 | h7
        · subst h7; exact hc.trans hc'.symm
        · exact h4 e h7

theorem radixValue_lt (xs : List Nat) (parts : List (Nat × Nat)) (a n : Nat) (h : radixValue xs a parts = some n) :
    n < (a + 1) * (parts.map Prod.fst).prod := by
  induction parts generalizing a with
  | nil => simp only [radixValue, Option.some.injEq] at h; simp [h]
  | cons e parts ih =>
    obtain ⟨r, j⟩ := e
    unfold radixValue at h
    cases hc : xs[j]? with
    | none => simp [hc] at h
    | some d =>
      simp only [hc] at h
      split_ifs at h with h1
      refine lt_of_lt_of_le (ih _ h) ?_
      rw [List.map_cons, List.prod_cons, ← Nat.mul_assoc]
      exact Nat.mul_le_mul_right _ (by nlinarith)

/-- A field function of the codes is the same for two code sequences that agree on the codes it reads. -/
theorem radixValue_congr (xs ys : List Nat) (parts : List (Nat × Nat)) (a : Nat)
    (h : ∀ e ∈ parts, xs[e.2]? = ys[e.2]?) : radixValue xs a parts = radixValue ys a parts := by
  induction parts generalizing a with
  | nil => rfl
  | cons e parts ih =>
    obtain ⟨r, j⟩ := e
    have h1 : xs[j]? = ys[j]? := h (r, j) (by simp)
    unfold radixValue
    rw [h1]
    cases ys[j]? with
    | none => rfl
    | some d =>
      simp only
      rw [ih _ fun e he => h e (by simp [he])]

theorem fieldCheck_ok (c : List Nat) (p f : Nat) (fld : Field) (y : Nat × Nat) (h : fieldCheck c p f fld = .ok y) :
    fieldValue c p fld.value = some y.2 ∧ y.2 < 2 ^ fld.width := by
  unfold fieldCheck at h
  cases hv : fieldValue c p fld.value with
  | none => simp [hv] at h
  | some v =>
    simp only [hv] at h
    split_ifs at h with h1
    cases h
    exact ⟨rfl, by omega⟩

/-! ## The parts of REF -/

set_option maxRecDepth 20000 in
theorem jtRomOK_ref : JtRomOK refCfg where
  defined := by
    have h : ∀ n : Fin 256, (isUpper (BitVec.ofNat 8 n.1) || isDigit (BitVec.ofNat 8 n.1) || isSpace (BitVec.ofNat 8 n.1)) = true →
        BitVec.ofNat 8 n.1 ∈ refRomJt.map Prod.fst := by decide +kernel
    intro ch hc
    have := h ⟨ch.toNat, ch.isLt⟩
    simp only [BitVec.ofNat_toNat, BitVec.setWidth_eq] at this
    exact (lookup_isSome _ _).2 (this hc)
  others := by
    have h : ∀ k ∈ refRomJt.map Prod.fst, (isUpper k || isDigit k || isSpace k || isPunct k) = true := by decide +kernel
    exact fun ch hc => h ch ((lookup_isSome _ _).1 hc)
  injective := fun a b c => lookup_injective refRomJt (by decide +kernel) a b c
  image := by
    intro c
    constructor
    · rintro ⟨ch, hc⟩
      have h : ∀ e ∈ refRomJt, e.2 < 42 := by decide +kernel
      exact h _ (lookup_mem _ _ _ hc)
    · intro hc
      have h : ∀ n : Fin 42, lookup ((refRomJt.map Prod.fst).getD n.1 0) refRomJt = some n.1 := by decide +kernel
      exact ⟨_, h ⟨c, hc⟩⟩
  size := by decide +kernel

/-- A WSPR code of REF stands in the table of its position. -/
theorem wsprCode_ref (pos : Nat) (ch : Byte) (c : Nat) (h : wsprCode refCfg pos ch = some c) :
    ∃ t ∈ refRomWspr, lookup ch t = some c := by
  unfold wsprCode at h
  cases ht : refCfg.romWspr[pos]? with
  | none => simp [ht] at h
  | some t => simp only [ht] at h; exact ⟨t, List.mem_of_getElem? ht, h⟩

set_option maxRecDepth 20000 in
theorem wsprRomOK_ref : WsprRomOK refCfg where
  alphabet := by
    intro pos ch c h
    obtain ⟨t, ht, hl⟩ := wsprCode_ref pos ch c h
    have hall : ∀ t ∈ refRomWspr, ∀ e ∈ t, alphaWspr e.1 = true := by decide +kernel
    exact hall t ht _ (lookup_mem _ _ _ hl)
  injective := by
    intro pos a b c ha hb
    unfold wsprCode at ha hb
    cases ht : refCfg.romWspr[pos]? with
    | none => simp [ht] at ha
    | some t =>
      simp only [ht] at ha hb
      have hall : ∀ t ∈ refRomWspr, (t.map Prod.snd).Nodup := by decide +kernel
      exact lookup_injective t (hall t (List.mem_of_getElem? ht)) a b c ha hb
  kinds := rfl
  letters := by
    have hall : ∀ i : Fin 4, refCfg.locLetter[i.1]? = some true → ∀ e ∈ refRomWspr.getD (6 + i.1) [], isDigit e.1 = false := by
      decide +kernel
    intro i hi ch hd
    have h4 : i < 4 := by
      have := (List.getElem?_eq_some_iff.1 hi).1
      exact this
    cases hw : wsprCode refCfg (refCfg.callLen + i) ch with
    | none => rfl
    | some c =>
      unfold wsprCode at hw
      cases ht : refCfg.romWspr[refCfg.callLen + i]? with
      | none => simp [ht] at hw
      | some t =>
        simp only [ht] at hw
        have h1 : refRomWspr.getD (6 + i) [] = t := by
          rw [List.getD_eq_getElem?_getD]
          exact congrArg (Option.getD · []) ht
        have := hall ⟨i, h4⟩ hi (ch, c) (h1 ▸ lookup_mem _ _ _ hw)
        simp [hd] at this
  small := by
    intro pos ch c h
    obtain ⟨t, ht, hl⟩ := wsprCode_ref pos ch c h
    have hall : ∀ t ∈ refRomWspr, ∀ e ∈ t, e.2 < 256 := by decide +kernel
    exact hall t ht _ (lookup_mem _ _ _ hl)

theorem fsqCode_isSome (cfg : Cfg) (ch : Byte) : (fsqCode cfg ch).isSome = true ↔ ch ∈ cfg.romFsq.map Prod.fst := by
  unfold fsqCode fsqEntry
  rw [Option.isSome_map]
  exact lookup_isSome _ _

set_option maxRecDepth 20000 in
theorem fsqRomOK_ref : FsqRomOK refCfg where
  printable := by
    have h : ∀ n : Fin 256, isPrintable (BitVec.ofNat 8 n.1) = true → BitVec.ofNat 8 n.1 ∈ toyRomFsq.map Prod.fst := by
      decide +kernel
    intro ch hc
    have := h ⟨ch.toNat, ch.isLt⟩
    simp only [BitVec.ofNat_toNat, BitVec.setWidth_eq] at this
    exact (fsqCode_isSome _ _).2 (this hc)
  controls := by
    have h : ∀ ch ∈ fsqControls, ch ∈ toyRomFsq.map Prod.fst := by decide +kernel
    exact fun ch hc => (fsqCode_isSome _ _).2 (h ch hc)
  others := by
    have h : ∀ ch ∈ [0x00#8, 0xB1#8, 0xD7#8, 0xA3#8, 0xB0#8, 0xF7#8],
        isPrintable ch = false ∧ ch ∉ fsqControls ∧ ch ∈ toyRomFsq.map Prod.fst := by decide +kernel
    refine ⟨[0x00#8, 0xB1#8, 0xD7#8, 0xA3#8, 0xB0#8, 0xF7#8], rfl, by decide, fun ch hc => ?_⟩
    obtain ⟨h1, h2, h3⟩ := h ch hc
    exact ⟨h1, h2, (fsqCode_isSome _ _).2 h3⟩
  injective := by
    intro a b u ha hb
    have hn : ((toyRomFsq.map fun e => (e.1, varicodeUnits e.2)).map Prod.snd).Nodup := by decide +kernel
    have hl : ∀ (t : List (Byte × Varicode)) ch, (lookup ch t).map varicodeUnits =
        lookup ch (t.map fun e => (e.1, varicodeUnits e.2)) := by
      intro t ch
      induction t with
      | nil => rfl
      | cons e t ih =>
        obtain ⟨k, w⟩ := e
        unfold lookup
        simp only [List.map_cons]
        split_ifs
        · rfl
        · exact ih
    refine lookup_injective _ hn a b u ?_ ?_
    · rw [← hl]; exact ha
    · rw [← hl]; exact hb
  cont := by
    refine ⟨[29, 30, 31], fun ch e he => ?_⟩
    have h : ∀ e ∈ toyRomFsq, e.2.first ∉ [29, 30, 31] ∧ ∀ u2 ∈ e.2.second, u2 ∈ [29, 30, 31] := by decide +kernel
    exact h _ (lookup_mem _ _ _ he)
  width := by
    intro ch u hu x hx
    have h : ∀ e ∈ toyRomFsq, ∀ x ∈ varicodeUnits e.2, x < 32 := by decide +kernel
    unfold fsqCode at hu
    obtain ⟨e, he, rfl⟩ := Option.map_eq_some_iff.1 hu
    exact h _ (lookup_mem _ _ _ he) x hx

/-- The codes of a JT message can be recovered from the REF fields (41_packer.md R101 item 4). -/
theorem refJtPack_injective (w : Nat) (xs ys : List Nat) (p : Nat) (vs : List (Nat × Nat)) (hc : xs.length = 13)
    (hc' : ys.length = 13) (h : scan (fieldCheck xs p) 0 (refJtPack w).fields = .ok vs)
    (h' : scan (fieldCheck ys p) 0 (refJtPack w).fields = .ok vs) : xs = ys := by
  rw [scan_ok_iff] at h h'
  have field : ∀ (k : Nat) fld, (refJtPack w).fields[k]? = some fld →
      ∃ v, fieldValue xs p fld.value = some v ∧ fieldValue ys p fld.value = some v := by
    intro k fld hk
    obtain ⟨y, h1, h2⟩ := h.2 k fld hk
    obtain ⟨y', h3, h4⟩ := h'.2 k fld hk
    rw [h1] at h3; cases h3
    exact ⟨y.2, (fieldCheck_ok _ _ _ _ _ h2).1, (fieldCheck_ok _ _ _ _ _ h4).1⟩
  obtain ⟨v0, h0, h0'⟩ := field 0 _ rfl
  obtain ⟨v1, h1, h1'⟩ := field 1 _ rfl
  obtain ⟨v2, h2, h2'⟩ := field 2 _ rfl
  simp only [fieldValue] at h0 h0' h1 h1' h2 h2'
  cases e1 : radixValue xs 0 [(42, 0), (42, 1), (42, 2), (42, 3), (42, 4)] with
  | none => simp [e1] at h0
  | some n1 =>
  cases e1' : radixValue ys 0 [(42, 0), (42, 1), (42, 2), (42, 3), (42, 4)] with
  | none => simp [e1'] at h0'
  | some n1' =>
  cases e2 : radixValue xs 0 [(42, 5), (42, 6), (42, 7), (42, 8), (42, 9)] with
  | none => simp [e2] at h1
  | some n2 =>
  cases e2' : radixValue ys 0 [(42, 5), (42, 6), (42, 7), (42, 8), (42, 9)] with
  | none => simp [e2'] at h1'
  | some n2' =>
  cases e3 : radixValue xs 0 [(42, 10), (42, 11), (42, 12)] with
  | none => simp [e3] at h2
  | some n3 =>
  cases e3' : radixValue ys 0 [(42, 10), (42, 11), (42, 12)] with
  | none => simp [e3'] at h2'
  | some n3' =>
  simp only [e1, e1', e2, e2', e3, e3', Option.some.injEq] at h0 h0' h1 h1' h2 h2'
  have b3 := radixValue_lt _ _ _ _ e3
  have b3' := radixValue_lt _ _ _ _ e3'
  norm_num at b3 b3' h0 h0' h1 h1' h2 h2'
  have q1 : n1 = n1' := by omega
  have q2 : n2 = n2' := by omega
  have q3 : n3 = n3' := by omega
  subst q1 q2 q3
  have r1 := (radixValue_injective _ _ _ _ _ _ e1 e1').2
  have r2 := (radixValue_injective _ _ _ _ _ _ e2 e2').2
  have r3 := (radixValue_injective _ _ _ _ _ _ e3 e3').2
  simp only [List.mem_cons, List.not_mem_nil, or_false, forall_eq_or_imp, forall_eq] at r1 r2 r3
  apply List.ext_getElem?
  intro i
  by_cases hi : i < 13
  · interval_cases i <;> tauto
  · rw [List.getElem?_eq_none (by omega), List.getElem?_eq_none (by omega)]

/-- The codes of a WSPR message can be recovered from the REF fields (41_packer.md R101 item 4). -/
theorem refWsprPack_injective (xs ys : List Nat) (p : Nat) (vs : List (Nat × Nat)) (hc : xs.length = 10)
    (hc' : ys.length = 10) (h : scan (fieldCheck xs p) 0 refWsprPack.fields = .ok vs)
    (h' : scan (fieldCheck ys p) 0 refWsprPack.fields = .ok vs) : xs = ys := by
  rw [scan_ok_iff] at h h'
  have field : ∀ (k : Nat) fld, refWsprPack.fields[k]? = some fld →
      ∃ v, fieldValue xs p fld.value = some v ∧ fieldValue ys p fld.value = some v := by
    intro k fld hk
    obtain ⟨y, h1, h2⟩ := h.2 k fld hk
    obtain ⟨y', h3, h4⟩ := h'.2 k fld hk
    rw [h1] at h3; cases h3
    exact ⟨y.2, (fieldCheck_ok _ _ _ _ _ h2).1, (fieldCheck_ok _ _ _ _ _ h4).1⟩
  obtain ⟨v0, h0, h0'⟩ := field 0 _ rfl
  obtain ⟨v1, h1, h1'⟩ := field 1 _ rfl
  simp only [fieldValue] at h0 h0' h1 h1'
  have r0 := (radixValue_injective _ _ _ _ _ _ h0 h0').2
  have r1 := (radixValue_injective _ _ _ _ _ _ h1 h1').2
  simp only [List.mem_cons, List.not_mem_nil, or_false, forall_eq_or_imp, forall_eq] at r0 r1
  apply List.ext_getElem?
  intro i
  by_cases hi : i < 10
  · interval_cases i <;> tauto
  · rw [List.getElem?_eq_none (by omega), List.getElem?_eq_none (by omega)]

theorem packOK_refJt6 : PackOK 13 (refJtPack 6) where
  widths := rfl
  divides := by decide +kernel
  message := by decide +kernel
  cells := by decide +kernel
  injective := refJtPack_injective 6

theorem packOK_refJt1 : PackOK 13 (refJtPack 1) where
  widths := rfl
  divides := by decide +kernel
  message := by decide +kernel
  cells := by decide +kernel
  injective := refJtPack_injective 1

theorem packOK_refWspr : PackOK 10 refWsprPack where
  widths := rfl
  divides := by decide +kernel
  message := by decide +kernel
  cells := by decide +kernel
  injective := refWsprPack_injective

theorem jtFieldsOK_ref (w : Nat) : JtFieldsOK (refJtPack w) := by
  intro fld hf c p p'
  simp only [refJtPack, List.mem_cons, List.not_mem_nil, or_false] at hf
  rcases hf with rfl | rfl | rfl <;> rfl

theorem wsprFieldsOK_ref : WsprFieldsOK refCfg where
  count := rfl
  call := by
    intro fld hf xs ys p p' h
    cases hf
    simp only [fieldValue]
    apply radixValue_congr
    intro e he
    have h1 : ∀ j, j < 6 → xs[j]? = ys[j]? := fun j hj => by
      have := congrArg (·[j]?) h
      simpa [List.getElem?_take, show j < refCfg.callLen from hj] using this
    simp only [List.mem_cons, List.not_mem_nil, or_false] at he
    rcases he with rfl | rfl | rfl | rfl | rfl | rfl <;> exact h1 _ (by decide)
  loc := by
    intro fld hf xs ys p p' h
    cases hf
    simp only [fieldValue]
    apply radixValue_congr
    intro e he
    have h1 : ∀ j, j < 4 → xs[6 + j]? = ys[6 + j]? := fun j hj => by
      have := congrArg (·[j]?) h
      simpa [List.getElem?_take, show j < refCfg.locLen from hj, show refCfg.callLen = 6 from rfl] using this
    simp only [List.mem_cons, List.not_mem_nil, or_false] at he
    rcases he with rfl | rfl | rfl | rfl
    · exact h1 0 (by decide)
    · exact h1 2 (by decide)
    · exact h1 1 (by decide)
    · exact h1 3 (by decide)
  power := by
    intro fld hf xs ys p
    cases hf
    rfl

theorem convOK_refJt : ConvOK 72 206 (refConv 103) := by constructor <;> decide +kernel

theorem convOK_refWspr : ConvOK 50 162 (refConv 81) := by constructor <;> decide +kernel

set_option maxRecDepth 20000 in
theorem ilvOK_refJt65 : IlvOK refCfg.ilvJt65 := by constructor <;> decide +kernel

set_option maxRecDepth 20000 in
theorem ilvOK_refJt9 : IlvOK refCfg.ilvJt9 := by constructor <;> decide +kernel

theorem ilvOK_refJt4 : IlvOK refCfg.ilvJt4 :=
  ⟨ilvOK_refJt9.length, ilvOK_refJt9.nodup, ilvOK_refJt9.range, by decide, by decide, by decide⟩

set_option maxRecDepth 20000 in
theorem ilvOK_refWspr : IlvOK refCfg.ilvWspr := by constructor <;> decide +kernel

set_option maxRecDepth 20000 in
theorem mrgOK_refJt65 : MrgOK refCfg.ilvJt65 refCfg.mrgJt65 where
  slot := fun _ => by constructor <;> decide +kernel
  add := fun h => by simp [refCfg] at h
  cap := by decide +kernel

set_option maxRecDepth 20000 in
theorem mrgOK_refJt9 : MrgOK refCfg.ilvJt9 refCfg.mrgJt9 where
  slot := fun _ => by constructor <;> decide +kernel
  add := fun h => by simp [refCfg] at h
  cap := by decide +kernel

set_option maxRecDepth 20000 in
theorem mrgOK_refJt4 : MrgOK refCfg.ilvJt4 refCfg.mrgJt4 where
  slot := fun h => by simp [refCfg] at h
  add := fun _ => by constructor <;> decide +kernel
  cap := by decide +kernel

set_option maxRecDepth 20000 in
theorem mrgOK_refWspr : MrgOK refCfg.ilvWspr refCfg.mrgWspr where
  slot := fun h => by simp [refCfg] at h
  add := fun _ => by constructor <;> decide +kernel
  cap := by decide +kernel

theorem fixedOK_ref : FixedOK refCfg := by constructor <;> rfl

/-- REF is a well-formed configuration (00_scope.md R9). -/
theorem cfgOK_ref : CfgOK refCfg where
  fixed := fixedOK_ref
  romJt := jtRomOK_ref
  romWspr := wsprRomOK_ref
  romFsq := fsqRomOK_ref
  packJt65 := packOK_refJt6
  packJt9 := packOK_refJt1
  packJt4 := packOK_refJt1
  packWspr := packOK_refWspr
  fieldsJt65 := jtFieldsOK_ref 6
  fieldsJt9 := jtFieldsOK_ref 1
  fieldsJt4 := jtFieldsOK_ref 1
  fieldsWspr := wsprFieldsOK_ref
  convJt9 := convOK_refJt
  convJt4 := convOK_refJt
  convWspr := convOK_refWspr
  ilvJt65 := ilvOK_refJt65
  ilvJt9 := ilvOK_refJt9
  ilvJt4 := ilvOK_refJt4
  ilvWspr := ilvOK_refWspr
  mrgJt65 := mrgOK_refJt65
  mrgJt9 := mrgOK_refJt9
  mrgJt4 := mrgOK_refJt4
  mrgWspr := mrgOK_refWspr

end Sys2Proof.Machine
end

