-- ==== Sys2Proof/Machine/Pseudo.lean ====
section
/-! DEFINITION. The assembler's names and the pseudo-instructions of 30_encoding.md (R69, R74 to R79) as lists of host
accesses. The host's own work between them (normalising, the Reed-Solomon engine, the CRC, stopping on an error) is
outside the CORE (00_scope.md R5). -/

namespace Sys2Proof.Machine

/-- The mnemonic of a command (R65, R69). -/
def mnemonic : Instr → String
  | .nop => "NOP"
  | .clr => "CLR"
  | .codeJt65 => "CODE.JT65"
  | .codeJt9 => "CODE.JT9"
  | .codeJt4 => "CODE.JT4"
  | .codeWspr => "CODE.WSPR"
  | .codeFsq => "CODE.FSQ"
  | .packJt65 => "PACK.JT65"
  | .packJt9 => "PACK.JT9"
  | .packJt4 => "PACK.JT4"
  | .packWspr => "PACK.WSPR"
  | .convJt9 => "CONV.JT9"
  | .convJt4 => "CONV.JT4"
  | .convWspr => "CONV.WSPR"
  | .ilvJt65 => "ILV.JT65"
  | .ilvJt9 => "ILV.JT9"
  | .ilvJt4 => "ILV.JT4"
  | .ilvWspr => "ILV.WSPR"
  | .mrgJt65 => "MRG.JT65"
  | .mrgJt9 => "MRG.JT9"
  | .mrgJt4 => "MRG.JT4"
  | .mrgWspr => "MRG.WSPR"
  | .mrgFsq => "MRG.FSQ"

/-- A line of a program that is a mnemonic alone (R69). -/
def command (i : Instr) : HostAccess := issue (encodeByte i)

/-- The address of a length register (10_state.md R23). -/
def lenAddr : Buf → HostAddr
  | .chr => 0x008#11
  | .cod => 0x009#11
  | .pkd => 0x00A#11
  | .fec => 0x00B#11
  | .prm => 0x00C#11
  | .out => 0x00D#11

/-- `WR` of a sequence of values into a buffer, cell 0 first, then of its length (R69 `WRS`, R78, R79). -/
def writeBuffer (b : Buf) (vs : List Byte) : List HostAccess :=
  vs.zipIdx.map (fun e => HostAccess.write (BitVec.ofNat 11 (b.addr e.2)) e.1) ++
    [.write (lenAddr b) (BitVec.ofNat 8 vs.length)]

/-- `RD B_LEN` and `RD` of the first `n` cells of a buffer (R78). -/
def readBuffer (b : Buf) (n : Nat) : List HostAccess :=
  .read (lenAddr b) :: (List.range n).map fun i => .read (BitVec.ofNat 11 (b.addr i))

/-- `RD STATUS` (R69). -/
def readStatus : HostAccess := .read 0x001#11

/-- ENCODE.WSPR call, loc, pwr, t2 (R75). -/
def encodeWspr (call loc : List Byte) (pwr t2 : Byte) : List HostAccess :=
  [command .clr] ++ writeBuffer .chr (call ++ loc) ++ [.write 0x004#11 pwr, .write 0x005#11 t2] ++
    ([Instr.codeWspr, .packWspr, .convWspr, .ilvWspr, .mrgWspr].map command) ++ [readStatus]

/-- ENCODE.JT9 msg (R76). -/
def encodeJt9 (msg : List Byte) : List HostAccess :=
  [command .clr] ++ writeBuffer .chr msg ++
    ([Instr.codeJt9, .packJt9, .convJt9, .ilvJt9, .mrgJt9].map command) ++ [readStatus]

/-- ENCODE.JT4 msg (R77). -/
def encodeJt4 (msg : List Byte) : List HostAccess :=
  [command .clr] ++ writeBuffer .chr msg ++
    ([Instr.codeJt4, .packJt4, .convJt4, .ilvJt4, .mrgJt4].map command) ++ [readStatus]

/-- ENCODE.JT65 msg up to the Reed-Solomon engine, for `n` data symbols (R78). -/
def encodeJt65Front (msg : List Byte) (n : Nat) : List HostAccess :=
  [command .clr] ++ writeBuffer .chr msg ++ [command .codeJt65, command .packJt65, readStatus] ++ readBuffer .pkd n

/-- ENCODE.JT65 from the Reed-Solomon engine's codeword on (R78). -/
def encodeJt65Back (codeword : List Byte) : List HostAccess :=
  writeBuffer .fec codeword ++ [command .ilvJt65, command .mrgJt65, readStatus]

/-- ENCODE.FSQ msg (R79). -/
def encodeFsq (msg : List Byte) : List HostAccess :=
  [command .clr] ++ writeBuffer .chr msg ++ [command .codeFsq, command .mrgFsq, readStatus, .read (lenAddr .out)]

/-- ENCODE.FSQ_DIR hdr, crcunits, msg (R79). -/
def encodeFsqDir (hdr crcUnits msg : List Byte) : List HostAccess :=
  [command .clr] ++ writeBuffer .chr hdr ++ [command .codeFsq, command .mrgFsq] ++ writeBuffer .cod crcUnits ++
    [command .mrgFsq] ++ writeBuffer .chr msg ++ [command .codeFsq, command .mrgFsq, readStatus, .read (lenAddr .out)]

end Sys2Proof.Machine
end

