-- ==== Sys2Proof/Tests/Slice0.lean ====
section
/-! SUPPORT. Tests: the checks of WellFormed on ill-formed command words, the decoding of every command from a byte
written out from 30_encoding.md R65, single commands on REF against the vectors of 95_test_vectors.md, and for every
statement with hypotheses a state and operands that meet them. Expected values come from the spec. -/

set_option maxRecDepth 20000
set_option Elab.async false

namespace Sys2Proof.Tests

open Sys2Proof Sys2Proof.Machine Sys2Proof.Claims

/-! ## Helpers -/

/-- The reset state with values in one buffer. -/
def withBuf (b : Buf) (vs : List Nat) : State := commit b vs State.reset

/-- The contents of a buffer after an outcome. -/
def bufAfter (b : Buf) : Host.Outcome State Fault Refusal → Option (List Nat)
  | .next t => some (values b t)
  | .fault _ => none
  | .refused _ => none

/-- ERRCODE, ERRIDX and OUT_LEN after an outcome. -/
def errorAfter : Host.Outcome State Fault Refusal → Option (Nat × Nat × Nat)
  | .next t => some (t.errcode.toNat, t.erridx.toNat, t.outLen.toNat)
  | .fault _ => none
  | .refused _ => none

/-- The `n` digits of a number in a base, the most significant first: a compact spelling of a vector. -/
def digits (base n v : Nat) : List Nat := (List.range n).map fun i => v / base ^ (n - 1 - i) % base


/-! ## WellFormed: one ill-formed term for each check -/

/-- R61: bit 3 is 1 (0x28). -/
theorem test_ill_zeroBit :
    (CommandWord.zeroBit { op := 2#4, z := 1#1, mode := 0#3 }) = false ∧ (CommandWord.wellFormed { op := 2#4, z := 1#1, mode := 0#3 }) = false := by decide

/-- R63: OP 7 is reserved (0x70). -/
theorem test_ill_opDefined :
    (CommandWord.opDefined { op := 7#4, z := 0#1, mode := 0#3 }) = false ∧ (CommandWord.wellFormed { op := 7#4, z := 0#1, mode := 0#3 }) = false := by decide

/-- R62: MODE 5 is reserved (0x25). -/
theorem test_ill_modeDefined :
    (CommandWord.modeDefined { op := 2#4, z := 0#1, mode := 5#3 }) = false ∧ (CommandWord.wellFormed { op := 2#4, z := 0#1, mode := 5#3 }) = false := by decide

/-- R61: CLR with MODE 1 (0x11). -/
theorem test_ill_controlMode :
    (CommandWord.controlMode { op := 1#4, z := 0#1, mode := 1#3 }) = false ∧ (CommandWord.wellFormed { op := 1#4, z := 0#1, mode := 1#3 }) = false := by decide

/-- R65: no CONV for JT65 (0x40). -/
theorem test_ill_stageDefined_conv :
    (CommandWord.stageDefined { op := 4#4, z := 0#1, mode := 0#3 }) = false ∧ (CommandWord.wellFormed { op := 4#4, z := 0#1, mode := 0#3 }) = false := by decide

/-- R65: no PACK for FSQ (0x34). -/
theorem test_ill_stageDefined_pack :
    (CommandWord.stageDefined { op := 3#4, z := 0#1, mode := 4#3 }) = false ∧ (CommandWord.wellFormed { op := 3#4, z := 0#1, mode := 4#3 }) = false := by decide

/-- R65: the stages that do not exist. -/
theorem test_ill_stageExists :
    stageExists .conv .jt65 = false ∧ stageExists .pack .fsq = false ∧ stageExists .ilv .fsq = false ∧ stageExists .nop .jt9 = false := by decide

/-! ## Decoding: each command's byte written out from R65 -/

theorem test_decode_nop : decode [0b0000_0_000#8] = .ok (.nop, []) := by decide
theorem test_decode_clr : decode [0b0001_0_000#8] = .ok (.clr, []) := by decide
theorem test_decode_codeJt65 : decode [0b0010_0_000#8] = .ok (.codeJt65, []) := by decide
theorem test_decode_codeJt9 : decode [0b0010_0_001#8] = .ok (.codeJt9, []) := by decide
theorem test_decode_codeJt4 : decode [0b0010_0_010#8] = .ok (.codeJt4, []) := by decide
theorem test_decode_codeWspr : decode [0b0010_0_011#8] = .ok (.codeWspr, []) := by decide
theorem test_decode_codeFsq : decode [0b0010_0_100#8] = .ok (.codeFsq, []) := by decide
theorem test_decode_packJt65 : decode [0b0011_0_000#8] = .ok (.packJt65, []) := by decide
theorem test_decode_packJt9 : decode [0b0011_0_001#8] = .ok (.packJt9, []) := by decide
theorem test_decode_packJt4 : decode [0b0011_0_010#8] = .ok (.packJt4, []) := by decide
theorem test_decode_packWspr : decode [0b0011_0_011#8] = .ok (.packWspr, []) := by decide
theorem test_decode_convJt9 : decode [0b0100_0_001#8] = .ok (.convJt9, []) := by decide
theorem test_decode_convJt4 : decode [0b0100_0_010#8] = .ok (.convJt4, []) := by decide
theorem test_decode_convWspr : decode [0b0100_0_011#8] = .ok (.convWspr, []) := by decide
theorem test_decode_ilvJt65 : decode [0b0101_0_000#8] = .ok (.ilvJt65, []) := by decide
theorem test_decode_ilvJt9 : decode [0b0101_0_001#8] = .ok (.ilvJt9, []) := by decide
theorem test_decode_ilvJt4 : decode [0b0101_0_010#8] = .ok (.ilvJt4, []) := by decide
theorem test_decode_ilvWspr : decode [0b0101_0_011#8] = .ok (.ilvWspr, []) := by decide
theorem test_decode_mrgJt65 : decode [0b0110_0_000#8] = .ok (.mrgJt65, []) := by decide
theorem test_decode_mrgJt9 : decode [0b0110_0_001#8] = .ok (.mrgJt9, []) := by decide
theorem test_decode_mrgJt4 : decode [0b0110_0_010#8] = .ok (.mrgJt4, []) := by decide
theorem test_decode_mrgWspr : decode [0b0110_0_011#8] = .ok (.mrgWspr, []) := by decide
theorem test_decode_mrgFsq : decode [0b0110_0_100#8] = .ok (.mrgFsq, []) := by decide

/-- Reserved bytes are refused under the name of the field that makes them reserved (R66). -/
theorem test_decode_reserved :
    decode [0x08#8] = .error .mustBeZero ∧ decode [0x70#8] = .error (.reservedOp 7#4) ∧
      decode [0x25#8] = .error (.reservedMode 5#3) ∧ decode [0x11#8] = .error (.modeNotZero 1#3) ∧
      decode [0x40#8] = .error (.noSuchStage .conv .jt65) ∧ decode [0x44#8] = .error (.noSuchStage .conv .fsq) ∧
      decode [0x34#8] = .error (.noSuchStage .pack .fsq) ∧ decode [0x54#8] = .error (.noSuchStage .ilv .fsq) := by decide

/-- A command is one byte, so what follows it is left (R68). -/
theorem test_decode_rest : decode [0x23#8, 0xFF#8] = .ok (.codeWspr, [0xFF#8]) := by decide

theorem test_table_word : decodeTableWord 8 0x64 = some .mrgFsq := by decide

/-- The next step after reset runs the byte: CODE.JT65 on no characters gives 13 spaces (V3). -/
theorem test_withFetchWord : bufAfter .cod (step (State.reset.withFetchWord 8 0x20)) = some (List.replicate 13 36) := by
  decide +kernel

/-! ## Control: V60 to V64 -/

/-- V60. -/
theorem test_nop :
    exec .nop (withBuf .chr [0x41]) = .next (withBuf .chr [0x41]) := rfl

/-- V64: lengths and the error registers 0, PWR and FLAGS unchanged. -/
theorem test_clr :
    exec .clr (enterError none ⟨.unsupportedCharacter, 3⟩ { withBuf .chr [0x41] with pwr := 37#8, flags := 1#1 }) =
      .next { State.reset with pwr := 37#8, flags := 1#1 } := rfl

/-- V61. -/
theorem test_reserved :
    errorAfter (step (State.reset.withFetchWord 8 0x40)) = some (4, 0x40, 0) := by decide +kernel

/-- V63: while ERR is 1 a command does nothing. -/
theorem test_gate :
    exec .packJt65 (enterError none ⟨.unsupportedCharacter, 3⟩ State.reset) =
      .next (enterError none ⟨.unsupportedCharacter, 3⟩ State.reset) := rfl

/-- V66: FLAGS keeps bit 0. -/
theorem test_flags_write :
    (writeAddr 0x005#11 0xFF#8 State.reset).flags = 1#1 ∧ readAddr 0x005#11 (writeAddr 0x005#11 0xFF#8 State.reset) = 0x01#8 ∧
      writeAddr 0x001#11 0xFF#8 State.reset = State.reset := by decide +kernel

/-! ## CODE: V2 to V20 -/

/-- V2. -/
theorem test_codeJt65 :
    bufAfter .cod (exec .codeJt65 (withBuf .chr [0x43, 0x51])) = some [12, 26, 36, 36, 36, 36, 36, 36, 36, 36, 36, 36, 36] := by decide +kernel

/-- V6. -/
theorem test_codeJt65_lowercase :
    errorAfter (exec .codeJt65 (withBuf .chr [0x43, 0x51, 0x20, 0x6B])) = some (1, 3, 0) := by decide +kernel

/-- V4. -/
theorem test_codeJt9 :
    bufAfter .cod (exec .codeJt9 (withBuf .chr [0x47, 0x30, 0x55, 0x50, 0x4C, 0x20, 0x4E, 0x30, 0x43, 0x41, 0x4C, 0x4C])) =
      some [16, 0, 30, 25, 21, 36, 23, 0, 12, 10, 21, 21, 36] := by decide +kernel

/-- V5. -/
theorem test_codeJt4_long :
    errorAfter (exec .codeJt4 (withBuf .chr [0x61, 0x62, 0x63, 0x64, 0x65, 0x66, 0x67, 0x68, 0x69, 0x6A, 0x6B, 0x6C, 0x6D, 0x6E])) = some (2, 13, 0) := by decide +kernel

/-- V3. -/
theorem test_codeJt4 :
    bufAfter .cod (exec .codeJt4 (withBuf .chr [])) = some (List.replicate 13 36) := by decide +kernel

/-- V7. -/
theorem test_codeWspr :
    bufAfter .cod (exec .codeWspr (withBuf .chr [0x20, 0x4B, 0x31, 0x41, 0x42, 0x43, 0x46, 0x4E, 0x34, 0x32])) =
      some [36, 20, 1, 0, 1, 2, 12, 13, 5, 2] := by decide +kernel

/-- V8. -/
theorem test_codeWspr_position :
    errorAfter (exec .codeWspr (withBuf .chr [0x4B, 0x31, 0x41, 0x42, 0x43, 0x20, 0x46, 0x4E, 0x34, 0x32])) = some (3, 2, 0) := by decide +kernel

/-- V17. -/
theorem test_codeFsq :
    bufAfter .cod (exec .codeFsq (withBuf .chr [0x48, 0x69])) = some [8, 29, 9] := by decide +kernel

/-- V19. -/
theorem test_codeFsq_long :
    errorAfter (exec .codeFsq (withBuf .chr (List.replicate 128 0x41))) = some (2, 255, 0) := by decide +kernel

/-! ## PACK: V21 to V29d -/

/-- V21. -/
theorem test_packJt65 :
    bufAfter .pkd (exec .packJt65 (withBuf .cod [12, 26, 36, 36, 36, 36, 36, 36, 36, 36, 36, 36, 36])) =
      some [18, 48, 19, 45, 39, 26, 55, 61, 62, 15, 56, 28] := by decide +kernel

/-- V26. -/
theorem test_packJt9 :
    bufAfter .pkd (exec .packJt9 (withBuf .cod [12, 26, 36, 36, 36, 36, 36, 36, 36, 36, 36, 36, 36])) = some (digits 2 72 0x4B04ED9DADFDF8FE1C) := by decide +kernel

/-- V27. -/
theorem test_packJt9_undefined :
    errorAfter (exec .packJt9 (withBuf .cod (List.replicate 12 36 ++ [42]))) = some (3, 0, 0) := by decide +kernel

/-- V28. -/
theorem test_packJt4_short :
    errorAfter (exec .packJt4 (withBuf .cod (List.replicate 12 36))) = some (3, 255, 0) := by decide +kernel

/-- V21, V26: the JT packers share their fields under REF. -/
theorem test_packJt4 :
    bufAfter .pkd (exec .packJt4 (withBuf .cod [12, 26, 36, 36, 36, 36, 36, 36, 36, 36, 36, 36, 36])) = some (digits 2 72 0x4B04ED9DADFDF8FE1C) := by decide +kernel

/-- V29a: the type-2 fold. -/
theorem test_packWspr_type2 :
    bufAfter .pkd (exec .packWspr { withBuf .cod [36, 20, 1, 0, 1, 2, 12, 13, 5, 2] with pwr := 37#8, flags := 1#1 }) =
      some (digits 2 50 0x3DC308E2C3466) := by decide +kernel

/-- V29d: PWR + T2 is not reduced. -/
theorem test_packWspr_power :
    errorAfter (exec .packWspr { withBuf .cod [36, 20, 1, 0, 1, 2, 12, 13, 5, 2] with pwr := 255#8, flags := 1#1 }) = some (3, 2, 0) := by decide +kernel

/-! ## CONV: V30 to V36 -/

/-- V34. -/
theorem test_convEnc :
    convEnc ⟨3, 7, 5, 6⟩ [1, 0, 1, 1] = ([1, 1, 1, 0, 0, 0, 0, 1, 0, 1, 1, 1], 4) := by decide +kernel

/-- V30. -/
theorem test_convJt9 :
    bufAfter .fec (exec .convJt9 (withBuf .pkd (digits 2 72 0x4B04ED9DADFDF8FE1C))) =
      some (digits 2 206 0xD7E6FC7B36B81BC37F4EF83D3B64601A0F0EF0B0ED53583DB30) := by decide +kernel

/-- R119: a wrong length. -/
theorem test_convJt4_short :
    errorAfter (exec .convJt4 (withBuf .pkd (List.replicate 71 0))) = some (4, 71, 0) := by decide +kernel

/-- V30. -/
theorem test_convJt4 :
    (convCells 72 refCfg.convJt4 (digits 2 72 0x4B04ED9DADFDF8FE1C)).map Prod.fst =
      .ok (digits 2 206 0xD7E6FC7B36B81BC37F4EF83D3B64601A0F0EF0B0ED53583DB30) := by decide +kernel

/-- V31, with the final SR. -/
theorem test_convWspr :
    (match exec .convWspr (withBuf .pkd (digits 2 50 0x3DC308E2C3465)) with
      | .next t => some (values .fec t, t.sr)
      | .fault _ => none
      | .refused _ => none) =
    some (digits 2 162 0x3BE393552AE36C7E7FBAB5445E07F6A33DB55634F, 0x80000000) := by decide +kernel

/-- V33. -/
theorem test_convWspr_cell :
    errorAfter (exec .convWspr (withBuf .pkd (List.replicate 7 0 ++ [2] ++ List.replicate 42 0))) = some (4, 7, 0) := by decide +kernel

/-! ## ILV: V40 to V47 -/

/-- V40. -/
theorem test_brsel :
    brsel 5 = [0, 4, 2, 1, 3] ∧ brsel 8 = [0, 4, 2, 6, 1, 5, 3, 7] := by decide +kernel

/-- V41. -/
theorem test_ilvJt65 :
    bufAfter .prm (exec .ilvJt65 (withBuf .fec (List.range 63))) =
      some (digits 64 63 0x1097D2CBFA6404C21D4F6FAB943358711DFAAA708F654435EEE98639B570D39BE21CA697C7CE2D8C52DE5B3F68B21) := by decide +kernel

/-- V47. -/
theorem test_ilvJt65_cell :
    errorAfter (exec .ilvJt65 (withBuf .fec (List.replicate 5 0 ++ [64] ++ List.replicate 57 0))) = some (4, 5, 0) := by decide +kernel

/-- V42. -/
theorem test_ilvJt9 :
    ilvCells refCfg.ilvJt9 (digits 2 206 0xD7E6FC7B36B81BC37F4EF83D3B64601A0F0EF0B0ED53583DB30) =
      .ok (digits 8 69 0x16DB2756F1A66A951F3088C15DD54B3A7CADF109AF9CE0DE656) := by decide +kernel

/-- V43. -/
theorem test_ilvJt4 :
    ilvCells refCfg.ilvJt4 (digits 2 206 0xD7E6FC7B36B81BC37F4EF83D3B64601A0F0EF0B0ED53583DB30) =
      .ok (digits 2 207 0xDB6FEBDA89E278BEA9E4740BAB3C519EC7B5EC79AFA604A22E) := by decide +kernel

/-- V44. -/
theorem test_ilvWspr :
    ilvCells refCfg.ilvWspr (digits 2 162 0x3BE393552AE36C7E7FBAB5445E07F6A33DB55634F) =
      .ok (digits 2 162 0x320971DE8CF3C79B76A4AD9EEA8D1DAEE067EFF97) := by decide +kernel

/-- R144. -/
theorem test_ilvJt9_short :
    errorAfter (exec .ilvJt9 (withBuf .fec [1])) = some (4, 1, 0) := by decide +kernel

/-- R145. -/
theorem test_ilvJt4_short :
    errorAfter (exec .ilvJt4 (withBuf .fec [1, 0])) = some (4, 2, 0) := by decide +kernel

/-- V46. -/
theorem test_ilvWspr_short :
    errorAfter (exec .ilvWspr { State.reset with fecLen := 161#8 }) = some (4, 161, 0) := by decide +kernel

/-! ## MRG: V50 to V58 -/

/-- V50b. -/
theorem test_slotMerge :
    slotMerge 2 [true, false, false, true, false] [0, 0, 0, 0, 0] [5, 6, 7] = [0, 7, 8, 0, 9] := by decide +kernel

/-- V51. -/
theorem test_mrgJt65 :
    mrgSlot refCfg.ilvJt65 refCfg.mrgJt65 (digits 64 63 0x1097D2CBFA6404C21D4F6FAB943358711DFAAA708F654435EEE98639B570D39BE21CA697C7CE2D8C52DE5B3F68B21) =
      .ok (digits 66 126 0x5EF19B72628F13D3C5534A8BB8D1D7EACC0A1C99B07ED96A09C377E49A057944609E5C1870E6A5DAE34D351BED12FA012F121EF038E7746B1F431EE7C85C5E17E776BC34A53E35695807FD0EB1CBDC10420B958D2ECB72B768AB9ABF3F00) := by decide +kernel

/-- V52. -/
theorem test_mrgJt9 :
    bufAfter .out (exec .mrgJt9 (withBuf .prm (digits 8 69 0x16DB2756F1A66A951F3088C15DD54B3A7CADF109AF9CE0DE656))) =
      some (digits 9 85 0x111F5E4C9585A42526A51B04A652CC6DA76DF7E70B781A0BB707784BC5DF6DEE51) := by decide +kernel

/-- V53. -/
theorem test_mrgJt4 :
    mrgChosen refCfg.ilvJt4 refCfg.mrgJt4 (digits 2 207 0xDB6FEBDA89E278BEA9E4740BAB3C519EC7B5EC79AFA604A22E) =
      .ok (digits 4 207 0x285B6D365556C5514462CB76AE3560C7FE46617E9A1D1A22676EE727D89B8369FE50B7C5B9FCF83569E4D5EEB4A01A462CAE76) := by decide +kernel

/-- V54, P1. -/
theorem test_mrgWspr :
    mrgAdd refCfg.ilvWspr refCfg.mrgWspr (digits 2 162 0x320971DE8CF3C79B76A4AD9EEA8D1DAEE067EFF97) =
      .ok (digits 4 162 0xF04084B95837BD440D27505DA1F616D953CCC9864DB43DCD4C44871A9F1E656F40234B5547DDF4395) := by decide +kernel

/-- V58. -/
theorem test_mrgWspr_short :
    errorAfter (exec .mrgWspr (withBuf .prm [])) = some (4, 0, 0) := by decide +kernel

/-- R162. -/
theorem test_mrgJt65_short :
    errorAfter (exec .mrgJt65 (withBuf .prm [1])) = some (4, 1, 0) := by decide +kernel

/-- R164. -/
theorem test_mrgJt4_short :
    errorAfter (exec .mrgJt4 (withBuf .prm [1])) = some (4, 1, 0) := by decide +kernel

/-- V55. -/
theorem test_mrgFsq :
    bufAfter .out (exec .mrgFsq (commit .cod [1, 1, 29] (withBuf .out [7, 29]))) = some [7, 29, 1, 1, 29] := by decide +kernel

/-- V56. -/
theorem test_mrgFsq_long :
    errorAfter (exec .mrgFsq (commit .cod (List.replicate 6 1) (withBuf .out (List.replicate 250 1)))) = some (2, 255, 0) := by decide +kernel
/-! ## Witnesses: states and operands that meet the hypotheses of the statements -/

/-- A property of every indexed element, from a check of each. -/
theorem forall_getElem? {α : Type} {l : List α} {P : Nat → α → Prop} (h : ∀ e ∈ l.zipIdx, P e.2 e.1) :
    ∀ (k : Nat) x, l[k]? = some x → P k x := fun k x hk =>
  h (x, k) (List.mem_zipIdx_iff_getElem?.2 hk)

/-- The reset state with one host access pending. -/
def withAccess (acc : HostAccess) : State := { State.reset with pending := [acc] }

/-- The reset state after an error, with one host access pending. -/
def failedWith (acc : HostAccess) : State :=
  { enterError none ⟨.unsupportedCharacter, 3⟩ State.reset with pending := [acc] }

/-- OtherBytesAreReserved, ReservedByteRaises: 0x44, with ERR 0 and with ERR 1. -/
theorem test_meets_reserved :
    (0x44#8 : Byte) ∉ opcodeMap.map Prod.fst ∧
    (withAccess (.write 0x000#11 0x44#8)).pending = .write 0x000#11 0x44#8 :: [] ∧
    (withAccess (.write 0x000#11 0x44#8)).status = 0#1 ∧
    (failedWith (.write 0x000#11 0x44#8)).pending = .write 0x000#11 0x44#8 :: [] ∧
    (failedWith (.write 0x000#11 0x44#8)).status = 1#1 := by decide

/-- DecodeOfEncode, DecodedBytesAreTheEncoding. -/
theorem test_meets_encoding : Instr.mrgFsq.wellFormed = true ∧ decode [0x64#8, 0x01#8] = .ok (.mrgFsq, [0x01#8]) := by
  decide

/-- StepRunsTheCommand. -/
theorem test_meets_step : (withAccess (issue 0x23#8)).pending = .write 0x000#11 0x23#8 :: [] ∧
    decode [0x23#8] = .ok (.codeWspr, []) := ⟨rfl, by decide⟩

/-- IdleStepChangesNothing. -/
theorem test_meets_idle : State.reset.pending = [] := rfl

/-- HostReadReturnsAndChangesNothing: a register, and the last cell of OUT below a length of 255. -/
theorem test_meets_hostRead :
    (withAccess (.read 0x00D#11)).pending = .read 0x00D#11 :: [] ∧
    (let s := { withBuf .out (List.replicate 255 7) with pending := [.read 0x6FE#11] }
     s.pending = .read 0x6FE#11 :: [] ∧ 254 < (s.len .out).toNat ∧
      (0x6FE#11 : HostAddr).toNat = Buf.num .out * 0x100 + 254 ∧
      Memory.read s.mem (Buf.num .out * 0x100 + 254) = some 7#8) := by decide +kernel

/-- HostWritesRegisters: each clause, the last at the ends of its ranges. -/
theorem test_meets_hostWritesRegisters :
    (withAccess (.write 0x004#11 0xFF#8)).pending = .write 0x004#11 0xFF#8 :: [] ∧
    (withAccess (.write 0x005#11 0xFE#8)).pending = .write 0x005#11 0xFE#8 :: [] ∧
    (∀ a ∈ [0x001#11, 0x002#11, 0x003#11], (withAccess (.write a 1#8)).pending = .write a 1#8 :: []) ∧
    (∀ a ∈ [0x006#11, 0x007#11, 0x00E#11, 0x0FF#11, 0x1FF#11, 0x6FF#11, 0x700#11, 0x7FF#11],
      (withAccess (.write a 1#8)).pending = .write a 1#8 :: [] ∧
      (a = 0x006#11 ∨ a = 0x007#11 ∨ (0x00E ≤ a.toNat ∧ a.toNat ≤ 0x0FF) ∨ 0x700 ≤ a.toNat ∨
        (0x100 ≤ a.toNat ∧ a.toNat % 0x100 = 0xFF))) := by decide +kernel

/-- HostWriteStoresOneCell: the first cell of CHR and the last of OUT, the latter below the length. -/
theorem test_meets_hostWriteCell :
    (withAccess (.write 0x100#11 1#8)).pending = .write 0x100#11 1#8 :: [] ∧
    (0x100#11 : HostAddr).toNat = Buf.num .chr * 0x100 + 0 ∧
    (0x6FE#11 : HostAddr).toNat = Buf.num .out * 0x100 + 254 ∧
    (let s := { State.reset with outLen := 255#8, pending := [.write 0x6FE#11 1#8] }
     s.pending = .write 0x6FE#11 1#8 :: [] ∧ 254 < (s.len .out).toNat) := by decide +kernel

/-- HostWriteSetsOneLength: the last length register, lowered from 3 to 2, so that cells 0 and 1 stand and cell 2, which
a command wrote, is left behind; cell 0 is one that the host has written. -/
theorem test_meets_hostWriteLength :
    let s := { storeCell 0x600 9#8 (withBuf .out [1, 2, 3]) with pending := [.write 0x00D#11 2#8] }
    s.pending = .write 0x00D#11 2#8 :: [] ∧ (0x00D#11 : HostAddr).toNat = 7 + Buf.num .out ∧
      1 < (2#8 : Byte).toNat ∧ (2#8 : Byte).toNat ≤ 2 ∧ 2 < (s.len .out).toNat ∧ Buf.addr .out 2 ∉ s.hostCells ∧ Buf.addr .out 0 ∈ s.hostCells ∧
      Buf.holds .out 0x100 = false := by decide +kernel

/-- HostWrittenCellsAreKept: a host-written cell of OUT, and a step that serves a lower OUT_LEN. -/
theorem test_meets_hostCellsKept :
    let s := { storeCell 0x602 9#8 (withBuf .out [1, 2, 3]) with pending := [.write 0x00D#11 2#8] }
    step s = .next (setLen .out 2#8 (served s [])) ∧ 0x602 ∈ s.hostCells := ⟨rfl, by decide +kernel⟩

/-- HostWrittenCellReturnsWithTheLength: the last cell of OUT, the length set to 0 and then to 255. -/
theorem test_meets_hostCellReturns :
    let q := [.write 0x6FE#11 9#8, .write 0x00D#11 0#8, .write 0x00D#11 255#8, .read 0x6FE#11]
    ({ State.reset with pending := q } : State).pending =
      .write 0x6FE#11 9#8 :: .write 0x00D#11 0#8 :: .write 0x00D#11 255#8 :: .read 0x6FE#11 :: [] ∧
    (0x6FE#11 : HostAddr).toNat = Buf.num .out * 0x100 + 254 ∧ 254 < (255#8 : Byte).toNat ∧
    (0x00D#11 : HostAddr).toNat = 7 + Buf.num .out := by decide

/-- R49, R28, R184: the host writes COD[1], a command raises with destination COD, and the host sets COD_LEN again. -/
theorem test_host_cell_survives_error :
    readAddr 0x201#11 (setLen .cod 2#8 (enterError (some .cod) ⟨.messageTooLong, 13⟩
      { storeCell 0x201 7#8 State.reset with codLen := 2#8 })) = 7#8 := by decide +kernel

/-- R28: a cell that a command wrote, lost below a shorter length, holds no specified value when the length rises. -/
theorem test_command_cell_left_behind :
    Memory.read (setLen .cod 2#8 (setLen .cod 1#8 (withBuf .cod [5, 6]))).mem 0x201 = none := by decide +kernel

/-- ErrorGatesEveryByteButClr. -/
theorem test_meets_gate :
    (failedWith (.write 0x000#11 0x20#8)).pending = .write 0x000#11 0x20#8 :: [] ∧
    (failedWith (.write 0x000#11 0x20#8)).status = 1#1 ∧ (0x20#8 : Byte) ≠ 0x10#8 := by decide +kernel

/-- CodeJtCompletes: "CQ", of 2 characters and padded. -/
theorem test_meets_codeJt : CfgOK State.reset.cfg ∧ (withBuf .chr [0x43, 0x51]).status = 0#1 ∧
    (Instr.codeJt65, 13) ∈ [(Instr.codeJt65, refCfg.msgLenJt65), (.codeJt9, refCfg.msgLenJt9),
      (.codeJt4, refCfg.msgLenJt4)] ∧
    (withBuf .chr [0x43, 0x51]).chrLen.toNat ≤ 13 ∧
    (∀ ch ∈ contents .chr (withBuf .chr [0x43, 0x51]), (jtCode refCfg ch).isSome = true) :=
  ⟨cfgOK_ref, rfl, by decide +kernel, by decide +kernel, by decide +kernel⟩

/-- CodeWsprCompletes: " K1ABCFN42". -/
theorem test_meets_codeWspr :
    let s := withBuf .chr [0x20, 0x4B, 0x31, 0x41, 0x42, 0x43, 0x46, 0x4E, 0x34, 0x32]
    CfgOK s.cfg ∧ s.status = 0#1 ∧ s.chrLen.toNat = s.cfg.callLen + s.cfg.locLen ∧
    (∀ (k : Nat) ch, (contents .chr s)[k]? = some ch → alphaWspr ch = true ∧ (wsprCode s.cfg k ch).isSome = true) :=
  ⟨cfgOK_ref, rfl, by decide +kernel, forall_getElem? (by decide +kernel)⟩

/-- CodeFsqCompletes: "aA". -/
theorem test_meets_codeFsq :
    let s := withBuf .chr [0x61, 0x41]
    CfgOK s.cfg ∧ s.status = 0#1 ∧ [[1], [1, 29]].length = s.chrLen.toNat ∧
    (∀ (k : Nat) ch, (contents .chr s)[k]? = some ch →
      [[1], [1, 29]][k]? = fsqCode s.cfg ch ∧ (fsqCode s.cfg ch).isSome = true) ∧
    [[1], [1, 29]].flatten.length ≤ 255 :=
  ⟨cfgOK_ref, rfl, by decide +kernel, forall_getElem? (by decide +kernel), by decide⟩

/-- CodeJtRaises: one character too many; and 13 characters whose last is lowercase. -/
theorem test_meets_codeJtRaises :
    13 < (withBuf .chr (List.replicate 14 0x61)).chrLen.toNat ∧
    (let s := withBuf .chr (List.replicate 12 0x41 ++ [0x6B])
     s.status = 0#1 ∧ s.chrLen.toNat ≤ 13 ∧ (contents .chr s)[12]? = some 0x6B#8 ∧ jtCode s.cfg 0x6B#8 = none ∧
      ∀ x ∈ (contents .chr s).take 12, (jtCode s.cfg x).isSome = true) := by decide +kernel

/-- CodeWsprRaises: 11 characters, 9 characters; a lowercase letter at position 1; a letter at the digit position 2. -/
theorem test_meets_codeWsprRaises :
    10 < (withBuf .chr (List.replicate 11 0x41)).chrLen.toNat ∧
    (withBuf .chr (List.replicate 9 0x41)).chrLen.toNat < 10 ∧
    (let s := withBuf .chr [0x20, 0x6B, 0x31, 0x41, 0x42, 0x43, 0x46, 0x4E, 0x34, 0x32]
     s.status = 0#1 ∧ s.chrLen.toNat = s.cfg.callLen + s.cfg.locLen ∧ (contents .chr s)[1]? = some 0x6B#8 ∧
      alphaWspr 0x6B#8 = false ∧ (contents .chr s)[0]? = some 0x20#8 ∧ alphaWspr 0x20#8 = true ∧
      (wsprCode s.cfg 0 0x20#8).isSome = true) ∧
    (let s := withBuf .chr [0x4B, 0x31, 0x41, 0x42, 0x43, 0x20, 0x46, 0x4E, 0x34, 0x32]
     s.chrLen.toNat = s.cfg.callLen + s.cfg.locLen ∧ (contents .chr s)[2]? = some 0x41#8 ∧ alphaWspr 0x41#8 = true ∧
      wsprCode s.cfg 2 0x41#8 = none ∧ (wsprCode s.cfg 0 0x4B#8).isSome = true ∧
      (wsprCode s.cfg 1 0x31#8).isSome = true) := by decide +kernel

/-- CodeFsqRaises: the byte 0x80; and 128 characters of two units, one unit too many. -/
theorem test_meets_codeFsqRaises :
    (let s := withBuf .chr [0x80]
     s.status = 0#1 ∧ (contents .chr s)[0]? = some 0x80#8 ∧ fsqCode s.cfg 0x80#8 = none) ∧
    (let s := withBuf .chr (List.replicate 128 0x41)
     let units := List.replicate 128 [1, 29]
     s.status = 0#1 ∧ units.length = s.chrLen.toNat ∧ 255 < units.flatten.length ∧
      ∀ x ∈ (contents .chr s).zip units, fsqCode s.cfg x.1 = some x.2) := by decide +kernel

/-- FsqUnitsDetermineTheMessage. -/
theorem test_meets_fsqUnits : CfgOK refCfg ∧
    [0x61#8, 0x41#8].map (fsqCode refCfg) = [[1], [1, 29]].map some := ⟨cfgOK_ref, by decide +kernel⟩

/-- PackCompletes: PACK.WSPR of " K1ABCFN42" at power level 63, the last that PWRENC of REF takes. -/
theorem test_meets_packWspr :
    let s := { withBuf .cod [36, 20, 1, 0, 1, 2, 12, 13, 5, 2] with pwr := 62#8, flags := 1#1 }
    CfgOK s.cfg ∧ s.status = 0#1 ∧ (Instr.packWspr, 10, s.cfg.packWspr) ∈ packStages s.cfg ∧ s.codLen.toNat = 10 ∧
    FieldValues s.cfg.packWspr (values .cod s) (s.pwr.toNat + s.flags.toNat) [0xF70C238, 0x5868, 127] := by
  refine ⟨cfgOK_ref, rfl, by decide +kernel, by decide +kernel, by decide +kernel, ?_⟩
  intro f fld v hf
  revert v
  revert f fld
  exact forall_getElem? fun e he v hv => by
    have h : ∀ e ∈ refCfg.packWspr.fields.zipIdx, ∀ v ∈ [0xF70C238, 0x5868, 127][e.2]?,
        fieldValue (values .cod (withBuf .cod [36, 20, 1, 0, 1, 2, 12, 13, 5, 2])) 63 e.1.value = some v ∧
          v < 2 ^ e.1.width := by decide +kernel
    exact h e he v hv

/-- PackCompletes: PACK.JT65, PACK.JT9 and PACK.JT4 are stages of REF, and thirteen codes 41, the largest value, have
the fields of V25. -/
theorem test_meets_packJt :
    let s := withBuf .cod (List.replicate 13 41)
    (Instr.packJt65, 13, s.cfg.packJt65) ∈ packStages s.cfg ∧ (Instr.packJt9, 13, s.cfg.packJt9) ∈ packStages s.cfg ∧
    (Instr.packJt4, 13, s.cfg.packJt4) ∈ packStages s.cfg ∧ s.status = 0#1 ∧ s.codLen.toNat = 13 ∧
    s.cfg.packJt65.fields.map (fun fld => fieldValue (values .cod s) 0 fld.value) =
      [some 0xF94613E, some 0xF94613F, some 0xA167] := by decide +kernel

/-- PackRaises: 14 codes, 12 codes, and a power level of 64, which fails at field 2. -/
theorem test_meets_packRaises :
    13 < (withBuf .cod (List.replicate 14 0)).codLen.toNat ∧ (withBuf .cod (List.replicate 12 0)).codLen.toNat < 13 ∧
    (let s := { withBuf .cod [36, 20, 1, 0, 1, 2, 12, 13, 5, 2] with pwr := 63#8, flags := 1#1 }
     s.status = 0#1 ∧ s.codLen.toNat = 10 ∧ (Instr.packWspr, 10, s.cfg.packWspr) ∈ packStages s.cfg ∧
      s.cfg.packWspr.fields.map (fun fld => fieldValue (values .cod s) (s.pwr.toNat + s.flags.toNat) fld.value) =
        [some 0xF70C238, some 0x5868, none]) := by decide +kernel

/-- PackLosesNothing, PowerIsFolded: PACK.WSPR at PWR 37 with T2, and at PWR 38 without. -/
theorem test_meets_packLosesNothing :
    let cod := [36, 20, 1, 0, 1, 2, 12, 13, 5, 2]
    let s := { withBuf .cod cod with pwr := 37#8, flags := 1#1 }
    let s' := { withBuf .cod cod with pwr := 38#8 }
    CfgOK s.cfg ∧ s'.cfg = s.cfg ∧ s.status = 0#1 ∧ s'.status = 0#1 ∧
      s'.pwr.toNat + s'.flags.toNat = s.pwr.toNat + s.flags.toNat ∧ values .cod s' = values .cod s ∧
      errorAfter (exec .packWspr s) = some (0, 0, 0) ∧ errorAfter (exec .packWspr s') = some (0, 0, 0) ∧
      bufAfter .pkd (exec .packWspr s) = bufAfter .pkd (exec .packWspr s') :=
  ⟨cfgOK_ref, rfl, rfl, rfl, by decide +kernel, by decide +kernel, by decide +kernel, by decide +kernel,
    by decide +kernel⟩

/-- ConvCompletes: CONV.WSPR of 50 zeros and CONV.JT9, CONV.JT4 of 72 ones. -/
theorem test_meets_conv :
    CfgOK State.reset.cfg ∧ (Instr.convWspr, 50, refCfg.convWspr) ∈ convStages refCfg ∧
    (Instr.convJt9, 72, refCfg.convJt9) ∈ convStages refCfg ∧ (Instr.convJt4, 72, refCfg.convJt4) ∈ convStages refCfg ∧
    (withBuf .pkd (List.replicate 50 0)).status = 0#1 ∧ (withBuf .pkd (List.replicate 50 0)).pkdLen.toNat = 50 ∧
    (∀ v ∈ values .pkd (withBuf .pkd (List.replicate 50 0)), v ≤ 1) ∧
    (withBuf .pkd (List.replicate 72 1)).pkdLen.toNat = 72 ∧
    (∀ v ∈ values .pkd (withBuf .pkd (List.replicate 72 1)), v ≤ 1) :=
  ⟨cfgOK_ref, by decide +kernel, by decide +kernel, by decide +kernel, rfl, by decide +kernel, by decide +kernel,
    by decide +kernel, by decide +kernel⟩

/-- ConvRaises: 49 cells; and a 2 in the last of 50 cells. -/
theorem test_meets_convRaises :
    (withBuf .pkd (List.replicate 49 0)).pkdLen.toNat ≠ 50 ∧
    (let s := withBuf .pkd (List.replicate 49 1 ++ [2])
     s.status = 0#1 ∧ s.pkdLen.toNat = 50 ∧ (values .pkd s)[49]? = some 2 ∧ ∀ u ∈ (values .pkd s).take 49, u ≤ 1) := by
  decide +kernel

/-- ConvIsLinear, ConvZeroLengthAndFlush: K = 3, four data bits and three padding bits. -/
theorem test_meets_convLaws :
    [1, 0, 1, 1].length = [0, 1, 1, 0].length ∧ (∀ v ∈ [1, 0, 1, 1], v ≤ 1) ∧ (∀ v ∈ [0, 1, 1, 0], v ≤ 1) ∧
    [1, 0, 1, 1].length ≤ 7 ∧ 3 ≤ 7 - [1, 0, 1, 1].length ∧ ∀ v ∈ [0, 0, 0, 0], v = 0 := by decide

/-- IlvCompletes, IlvWsprMovesBits, IlvLosesNothing: ILV.WSPR of 162 ones, and ILV.JT65 of the cells 0 to 62. -/
theorem test_meets_ilv :
    CfgOK State.reset.cfg ∧ (Instr.ilvWspr, refCfg.ilvWspr) ∈ ilvStages refCfg ∧
    (Instr.ilvJt65, refCfg.ilvJt65) ∈ ilvStages refCfg ∧ (Instr.ilvJt9, refCfg.ilvJt9) ∈ ilvStages refCfg ∧
    (Instr.ilvJt4, refCfg.ilvJt4) ∈ ilvStages refCfg ∧
    (let s := withBuf .fec (List.replicate 162 1)
     s.status = 0#1 ∧ s.fecLen.toNat = 162 ∧ ∀ v ∈ values .fec s, v ≤ 1) ∧
    (let s := withBuf .fec (List.range 63)
     s.status = 0#1 ∧ s.fecLen.toNat = 63 ∧ (∀ v ∈ values .fec s, v < 2 ^ 6) ∧
      errorAfter (exec .ilvJt65 s) = some (0, 0, 0)) :=
  ⟨cfgOK_ref, by decide +kernel, by decide +kernel, by decide +kernel, by decide +kernel, by decide +kernel,
    by decide +kernel⟩

/-- IlvRaises: 161 cells; and a cell of 64, the first that is too wide, in the last of the 63 cells. -/
theorem test_meets_ilvRaises :
    (withBuf .fec (List.replicate 161 0)).fecLen.toNat ≠ refCfg.ilvWspr.fecN ∧
    (let s := withBuf .fec (List.replicate 62 63 ++ [64])
     s.status = 0#1 ∧ s.fecLen.toNat = s.cfg.ilvJt65.fecN ∧ (values .fec s)[62]? = some 64 ∧
      2 ^ s.cfg.ilvJt65.cellW ≤ 64 ∧ ∀ u ∈ (values .fec s).take 62, u < 2 ^ s.cfg.ilvJt65.cellW) := by decide +kernel

/-- GrayLaws: neighbours; BrselIsABijection at its largest N has N entries. -/
theorem test_meets_permute : (15 : Nat) < 2 ^ 4 ∧ gray 15 ^^^ gray 16 = 2 ^ 4 ∧ (brsel 256).length = 256 := by
  decide +kernel

/-- A configuration with slot insertion in JT4, one of the two that MERGE[JT4] allows (44_sync_merger.md R155):
207 data slots and no sync slot. -/
def slotJt4 : Cfg :=
  { refCfg with mrgJt4 := { refCfg.mrgJt4 with merge := .slot, syncIs := List.replicate 207 false } }

/-- That configuration is well formed, too. -/
theorem cfgOK_slotJt4 : CfgOK slotJt4 :=
  { cfgOK_ref with
    fixed := { fixedOK_ref with }
    romJt := { jtRomOK_ref with }
    romWspr := { wsprRomOK_ref with }
    romFsq := { fsqRomOK_ref with }
    fieldsWspr := { wsprFieldsOK_ref with }
    mrgJt4 :=
      { slot := fun _ => by constructor <;> decide +kernel
        add := fun h => by simp [slotJt4] at h
        cap := by decide +kernel } }

/-- MrgSlotCompletes: MRG.JT65, MRG.JT9 under REF, MRG.JT4 under `slotJt4`. -/
theorem test_meets_mrgSlot :
    CfgOK refCfg ∧ CfgOK slotJt4 ∧ (Instr.mrgJt65, refCfg.ilvJt65, refCfg.mrgJt65) ∈ slotStages refCfg ∧
    (Instr.mrgJt9, refCfg.ilvJt9, refCfg.mrgJt9) ∈ slotStages refCfg ∧
    (Instr.mrgJt4, slotJt4.ilvJt4, slotJt4.mrgJt4) ∈ slotStages slotJt4 ∧
    (let s := withBuf .prm (List.replicate 63 63)
     s.status = 0#1 ∧ s.prmLen.toNat = refCfg.ilvJt65.prmN ∧ ∀ v ∈ values .prm s, v < 2 ^ (1 * 6)) ∧
    (let s := withBuf .prm (List.replicate 69 7)
     s.prmLen.toNat = refCfg.ilvJt9.prmN ∧ ∀ v ∈ values .prm s, v < 2 ^ (3 * 1)) ∧
    (let s := { withBuf .prm (List.replicate 207 1) with cfg := slotJt4 }
     s.status = 0#1 ∧ s.prmLen.toNat = slotJt4.ilvJt4.prmN ∧ ∀ v ∈ values .prm s, v < 2 ^ (1 * 1)) :=
  ⟨cfgOK_ref, cfgOK_slotJt4, by decide +kernel, by decide +kernel, by decide +kernel, by decide +kernel,
    by decide +kernel, by decide +kernel⟩

/-- MrgAddCompletes: MRG.WSPR and MRG.JT4 under REF. -/
theorem test_meets_mrgAdd :
    CfgOK refCfg ∧ (Instr.mrgWspr, refCfg.ilvWspr, refCfg.mrgWspr) ∈ addStages refCfg ∧
    (Instr.mrgJt4, refCfg.ilvJt4, refCfg.mrgJt4) ∈ addStages refCfg ∧
    (let s := withBuf .prm (List.replicate 162 1)
     s.status = 0#1 ∧ s.prmLen.toNat = refCfg.mrgWspr.outN ∧ ∀ v ∈ values .prm s, v ≤ 1) ∧
    (let s := withBuf .prm (List.replicate 207 0)
     s.prmLen.toNat = refCfg.mrgJt4.outN ∧ ∀ v ∈ values .prm s, v ≤ 1) :=
  ⟨cfgOK_ref, by decide +kernel, by decide +kernel, by decide +kernel, by decide +kernel⟩

/-- OutputLengths: MRG.JT65 of 63 zeros ends without an error. -/
theorem test_meets_outputLengths : errorAfter (exec .mrgJt65 (withBuf .prm (List.replicate 63 0))) = some (0, 0, 126) := by
  decide +kernel

/-- MrgRaises: no cell at all; and a cell of 2, the first that is too wide, in the last of the 162 cells. -/
theorem test_meets_mrgRaises :
    State.reset.prmLen.toNat ≠ refCfg.ilvWspr.prmN ∧
    (let s := withBuf .prm (List.replicate 161 1 ++ [2])
     s.status = 0#1 ∧ s.prmLen.toNat = s.cfg.ilvWspr.prmN ∧ (values .prm s)[161]? = some 2 ∧
      ∀ u ∈ (values .prm s).take 161, u < 2 ^ s.cfg.ilvWspr.symW) := by decide +kernel

/-- SlotMergeIsStableAndReversible: V50b; AddMergeIsStableAndReversible: V50c. -/
theorem test_meets_mergeLaws :
    [0, 0, 0, 0, 0].length = [true, false, false, true, false].length ∧
    [5, 6, 7].length = [true, false, false, true, false].count false ∧
    [1, 1, 0, 0].length = [0, 1, 0, 1].length ∧ (∀ v ∈ [1, 1, 0, 0], v ≤ 1) ∧ (∀ v ∈ [0, 1, 0, 1], v ≤ 1) := by
  decide

/-- MrgFsqAppends: 250 cells in OUT and five units, the most that fit; and no units at all. -/
theorem test_meets_mrgFsq :
    let s := commit .cod [1, 31, 0, 2, 3] (withBuf .out (List.replicate 250 1))
    CfgOK s.cfg ∧ s.status = 0#1 ∧ (∀ v ∈ values .cod s, v < 32) ∧ s.outLen.toNat + s.codLen.toNat ≤ 255 ∧
      State.reset.codLen = 0#8 :=
  ⟨cfgOK_ref, rfl, by decide +kernel, by decide +kernel, rfl⟩

/-- MrgFsqRaises: the unit 32; and one unit too many. -/
theorem test_meets_mrgFsqRaises :
    (let s := withBuf .cod [1, 32]
     s.status = 0#1 ∧ (values .cod s)[1]? = some 32 ∧ (values .cod s)[0]? = some 1) ∧
    (let s := commit .cod (List.replicate 6 31) (withBuf .out (List.replicate 250 1))
     s.status = 0#1 ∧ (∀ v ∈ values .cod s, v < 32) ∧ 255 < s.outLen.toNat + s.codLen.toNat) := by decide +kernel

/-- EveryErrorIsTheErrorEntry, CommandsWriteOnlyTheirDestination, NoCommandWritesPwrOrFlags: CODE.WSPR on no characters
raises, CODE.FSQ on none completes. -/
theorem test_meets_wholeCommands :
    State.reset.status = 0#1 ∧
    (match exec .codeWspr State.reset with
      | .next t => t.status = 1#1
      | .fault _ => False
      | .refused _ => False) ∧
    (match exec .codeFsq State.reset with
      | .next t => t.status = 0#1
      | .fault _ => False
      | .refused _ => False) := ⟨rfl, rfl, rfl⟩

/-- CommandsReadOnlyContents: two states that differ in SR, in the draws, in the queue and in a cell beyond its
buffer's length. -/
theorem test_meets_sameInputs :
    SameInputs (withBuf .chr [0x43, 0x51])
      { storeCell (Buf.addr .chr 2) 0x58#8 (withBuf .chr [0x43, 0x51]) with
        sr := 5, draw := 3, pending := [.read 0x001#11] } where
  status := rfl
  errcode := rfl
  erridx := rfl
  pwr := rfl
  flags := rfl
  cfg := rfl
  len := fun b => by cases b <;> rfl
  contents := fun b => by cases b <;> rfl

/-- FirstErrorIsKept, ConfigurationIsConstant: a step while ERR is 1. -/
theorem test_meets_firstError :
    (failedWith (issue 0x44#8)).status = 1#1 ∧
    step (failedWith (issue 0x44#8)) = .next (served (failedWith (issue 0x44#8)) []) := ⟨rfl, rfl⟩

/-- StepKeepsInvariant: the state after an error, whose next access writes CLR's byte. -/
theorem test_meets_invariant : Invariant (failedWith (issue 0x10#8)) ∧
    step (failedWith (issue 0x10#8)) = .next { State.reset with draw := 1 } :=
  ⟨{ cfg := cfgOK_ref
     mem := ⟨List.Pairwise.nil, fun _ h => absurd h (List.not_mem_nil)⟩
     hostSorted := List.Pairwise.nil
     hostListed := fun _ h => absurd h (List.not_mem_nil)
     code := by decide +kernel
     flag := by decide +kernel
     index := by decide +kernel
     sr := .inl (by decide +kernel) }, rfl⟩

end Sys2Proof.Tests
end

section
/-! PROOFS. The family 00_scope.md: CFG is constant (R7), the reset state meets the invariant, and every step keeps it
(R9). The layer below says once what a host write can do, then what each operation of the machine makes of the
invariant; the step lemmas follow the inversions `step_cases`, `exec_cases` and `StageEnds`. -/

namespace Sys2Proof.Machine

/-! ## What a host access can do -/

theorem cellRegion_index_lt (a : Nat) (b : Buf) (i : Nat) (h : cellRegion a = .cell b i) : i < 255 := by
  unfold cellRegion at h
  split at h
  · cases h
  · split at h
    next hi => cases h; exact hi
    next => cases h

/-- The address map gives the cells 0 to 254 of a buffer only (20_memory.md R45). -/
theorem regionOf_index_lt (a : Nat) (b : Buf) (i : Nat) (h : regionOf a = .cell b i) : i < 255 := by
  unfold regionOf at h
  split at h
  case h_13 => exact cellRegion_index_lt a b i h
  all_goals cases h

/-- THE INVERSION OF writeAddr: an ignored write, a register, a length, or one of the 255 cells of a buffer. -/
theorem writeAddr_cases (a : HostAddr) (v : Byte) (s : State) :
    writeAddr a v s = s ∨ writeAddr a v s = { s with pwr := v } ∨
      writeAddr a v s = { s with flags := flagsOfByte v } ∨ (∃ b, writeAddr a v s = setLen b v s) ∨
      ∃ (b : Buf) (i : Nat), i < 255 ∧ writeAddr a v s = storeCell (b.addr i) v s := by
  unfold writeAddr
  cases hr : regionOf a.toNat with
  | cmd | status | errcode | erridx | reserved => exact .inl rfl
  | pwr => exact .inr (.inl rfl)
  | flags => exact .inr (.inr (.inl rfl))
  | length b => exact .inr (.inr (.inr (.inl ⟨b, rfl⟩)))
  | cell b i => exact .inr (.inr (.inr (.inr ⟨b, i, regionOf_index_lt _ b i hr, rfl⟩)))

/-! ## The configuration is constant (00_scope.md R7, 10_state.md R39) -/

@[simp] theorem writeAddr_cfg (a : HostAddr) (v : Byte) (s : State) : (writeAddr a v s).cfg = s.cfg := by
  obtain h | h | h | ⟨b, h⟩ | ⟨b, i, -, h⟩ := writeAddr_cases a v s <;> simp [h]

@[simp] theorem serve_cfg (acc : HostAccess) (s : State) : (serve acc s).cfg = s.cfg := by
  cases acc with
  | read a => rfl
  | write a v => exact writeAddr_cfg a v s

theorem stageEnds_cfg {i : Instr} {s t : State} (h : StageEnds i s t) : t.cfg = s.cfg := by
  cases h with
  | error d e _ ht => simp [ht]
  | commit d vs _ _ ht => simp [ht]
  | conv c pkd _ _ ht => simp [ht]
  | append vs _ _ ht => simp [ht]

theorem exec_cfg {i : Instr} {s t : State} (h : exec i s = .next t) : t.cfg = s.cfg := by
  obtain ⟨-, rfl⟩ | ⟨-, rfl⟩ | ⟨-, -, rfl⟩ | ⟨-, -, -, he⟩ := exec_cases i s t h
  · rfl
  · rfl
  · rfl
  · exact stageEnds_cfg he

/-- What a reserved byte can do: nothing while ERR is 1, the error entry without destination otherwise
(45_control.md R175). -/
theorem execReserved_cases {b : Byte} {s t : State} (h : execReserved b s = .next t) :
    (s.status = 1#1 ∧ t = s) ∨
      (s.status = 0#1 ∧ t = enterError none ⟨.configurationError, b.toNat⟩ s) :=
  gated_cases _ s t h

theorem execReserved_cfg {b : Byte} {s t : State} (h : execReserved b s = .next t) : t.cfg = s.cfg := by
  obtain ⟨-, rfl⟩ | ⟨-, rfl⟩ := execReserved_cases h
  · rfl
  · simp

theorem step_cfg {s t : State} (h : step s = .next t) : t.cfg = s.cfg := by
  obtain ⟨-, rfl⟩ | ⟨acc, rest, -, hserved⟩ := step_cases s t h
  · rfl
  · obtain ⟨-, rfl⟩ | ⟨b, i, rs, -, -, hexec⟩ | ⟨b, e, -, -, hres⟩ := hserved
    · exact serve_cfg acc _
    · exact (exec_cfg hexec).trans rfl
    · exact (execReserved_cfg hres).trans rfl

/-! ## What each operation makes of the invariant -/

/-- An operation on the memory alone: CFG, the error registers and SR stand, so the invariant needs only its three
clauses about the cells. -/
theorem invariant_of_memory {s t : State} (h : Invariant s) (hmem : Memory.WF t.mem)
    (hsorted : t.hostCells.Pairwise (· < ·))
    (hlisted : ∀ a ∈ t.hostCells, (Memory.read t.mem a).isSome = true)
    (hcfg : t.cfg = s.cfg := by simp) (hstatus : t.status = s.status := by simp)
    (herrcode : t.errcode = s.errcode := by simp) (herridx : t.erridx = s.erridx := by simp)
    (hsr : t.sr = s.sr := by simp) : Invariant t where
  cfg := hcfg ▸ h.cfg
  mem := hmem
  hostSorted := hsorted
  hostListed := hlisted
  code := by rw [herrcode]; exact h.code
  flag := by rw [hstatus, herrcode]; exact h.flag
  index := by rw [herrcode, herridx]; exact h.index
  sr := by rw [hcfg, hsr]; exact h.sr

/-- PWR, FLAGS, the draws, the host's queue and the last value read are free of the invariant. -/
theorem invariant_withHostFields {s : State} (h : Invariant s) (pwr : BitVec 8) (flags : BitVec 1) (draw : Nat)
    (pending : List HostAccess) (readData : Option Byte) :
    Invariant { s with pwr := pwr, flags := flags, draw := draw, pending := pending, readData := readData } :=
  invariant_of_memory h h.mem h.hostSorted h.hostListed

theorem invariant_setLen {s : State} (h : Invariant s) (b : Buf) (n : BitVec 8) : Invariant (setLen b n s) :=
  invariant_of_memory h (wf_setLen b n s h.mem) (by simpa using h.hostSorted) (listed_setLen b n s h.hostListed)

theorem invariant_storeCell {s : State} (h : Invariant s) (b : Buf) (i : Nat) (v : Byte) (hi : i < 255) :
    Invariant (storeCell (b.addr i) v s) :=
  invariant_of_memory h (wf_storeCell b i v s hi h.mem) (mark_sorted _ _ h.hostSorted)
    (listed_storeCell b i v s h.hostListed)

theorem invariant_commit {s : State} (h : Invariant s) (b : Buf) (vs : List Nat) : Invariant (commit b vs s) :=
  invariant_of_memory h (wf_commit b vs s h.mem) (by simpa using unmark_sorted b _ h.hostSorted)
    (listed_commit b vs s h.hostListed)

theorem invariant_append {s : State} (h : Invariant s) (b : Buf) (vs : List Nat) : Invariant (append b vs s) :=
  invariant_of_memory h (wf_append b vs s h.mem) (sorted_append b vs s h.hostSorted)
    (listed_append b vs s h.hostListed)

/-- The codes of the taxonomy are 1 to 4 (60_exceptions.md R180). -/
theorem errKind_code_range (k : ErrKind) : k.code.toNat ≤ 4 ∧ k.code ≠ 0#3 := by cases k <;> decide

/-- The error entry sets ERR together with a code that is not 0 (60_exceptions.md R184). -/
theorem invariant_enterError {s : State} (h : Invariant s) (d : Option Buf) (e : Raise) :
    Invariant (enterError d e s) := by
  obtain ⟨hle, hne⟩ := errKind_code_range e.kind
  exact
    { cfg := by simpa using h.cfg
      mem := wf_enterError d e s h.mem
      hostSorted := by simpa using h.hostSorted
      hostListed := listed_enterError d e s h.hostListed
      code := by simpa using hle
      flag := by simpa using hne
      index := fun h0 => absurd (by simpa using h0) hne
      sr := by simpa using h.sr }

theorem invariant_clearCall {s : State} (h : Invariant s) : Invariant (clearCall s) where
  cfg := h.cfg
  mem := wf_reset
  hostSorted := List.Pairwise.nil
  hostListed := fun _ ha => absurd ha List.not_mem_nil
  code := by simp
  flag := by simp
  index := fun _ => rfl
  sr := .inl (Nat.two_pow_pos _)

/-- CONVENC starts from 0 and keeps the register within its K bits (42_convolutional.md R116). -/
theorem convEnc_sr_lt (c : ConvCfg) (d : List Nat) : (convEnc c d).2 < 2 ^ c.k :=
  convSteps_sr_lt c 0 _ (Nat.two_pow_pos _)

/-- A new SR keeps the invariant when it is a final register of one of the three encoders (10_state.md R31). -/
theorem invariant_withSr {s : State} (h : Invariant s) (c : ConvCfg) (d : List Nat)
    (hc : c = s.cfg.convJt9 ∨ c = s.cfg.convJt4 ∨ c = s.cfg.convWspr) :
    Invariant { s with sr := (convEnc c d).2 } :=
  { h with
    sr := by
      have hlt := convEnc_sr_lt c d
      obtain rfl | rfl | rfl := hc
      · exact .inl hlt
      · exact .inr (.inl hlt)
      · exact .inr (.inr hlt) }

/-! ## Every command, every access and every step keeps the invariant -/

theorem invariant_stageEnds {i : Instr} {s t : State} (h : Invariant s) (he : StageEnds i s t) : Invariant t := by
  cases he with
  | error d e _ ht => subst ht; exact invariant_enterError h _ e
  | commit d vs _ _ ht => subst ht; exact invariant_commit h d vs
  | conv c pkd _ hc ht => subst ht; exact invariant_withSr (invariant_commit h .fec _) c pkd hc
  | append vs _ _ ht => subst ht; exact invariant_append h .out vs

theorem invariant_exec {i : Instr} {s t : State} (h : Invariant s) (hx : exec i s = .next t) : Invariant t := by
  obtain ⟨-, rfl⟩ | ⟨-, rfl⟩ | ⟨-, -, rfl⟩ | ⟨-, -, -, he⟩ := exec_cases i s t hx
  · exact h
  · exact invariant_clearCall h
  · exact h
  · exact invariant_stageEnds h he

theorem invariant_execReserved {b : Byte} {s t : State} (h : Invariant s) (hx : execReserved b s = .next t) :
    Invariant t := by
  obtain ⟨-, rfl⟩ | ⟨-, rfl⟩ := execReserved_cases hx
  · exact h
  · exact invariant_enterError h none _

theorem invariant_writeAddr {s : State} (h : Invariant s) (a : HostAddr) (v : Byte) : Invariant (writeAddr a v s) := by
  obtain hw | hw | hw | ⟨b, hw⟩ | ⟨b, i, hi, hw⟩ := writeAddr_cases a v s <;> rw [hw]
  · exact h
  · exact invariant_withHostFields h v _ _ _ _
  · exact invariant_withHostFields h _ (flagsOfByte v) _ _ _
  · exact invariant_setLen h b v
  · exact invariant_storeCell h b i v hi

theorem invariant_serve {s : State} (h : Invariant s) (acc : HostAccess) : Invariant (serve acc s) := by
  cases acc with
  | read a => exact invariant_withHostFields h _ _ _ _ (some (readAddr a s))
  | write a v => exact invariant_writeAddr h a v

theorem invariant_step {s t : State} (h : Invariant s) (hstep : step s = .next t) : Invariant t := by
  obtain ⟨-, rfl⟩ | ⟨acc, rest, -, hserved⟩ := step_cases s t hstep
  · exact h
  · have hs : Invariant { s with pending := rest, draw := s.draw + 1 } :=
      invariant_withHostFields h _ _ (s.draw + 1) rest _
    obtain ⟨-, rfl⟩ | ⟨b, i, rs, -, -, hexec⟩ | ⟨b, e, -, -, hres⟩ := hserved
    · exact invariant_serve hs acc
    · exact invariant_exec hs hexec
    · exact invariant_execReserved hs hres

/-- The invariant at reset: no cell holds a value, every register is 0 (10_state.md R37), and CFG is REF (log 1). -/
theorem invariant_reset : Invariant State.reset where
  cfg := cfgOK_ref
  mem := wf_reset
  hostSorted := List.Pairwise.nil
  hostListed := fun _ ha => absurd ha List.not_mem_nil
  code := Nat.zero_le 4
  flag := by decide
  index := fun _ => rfl
  sr := .inl (Nat.two_pow_pos _)

/-! ## The obligations -/

/-- Settles O54, by the inversion of `step`: each outcome is built of operations that keep the invariant. -/
theorem stepKeepsInvariant : Obligations.StepKeepsInvariant := fun _ _ h hstep => invariant_step h hstep

/-- Settles O52, by the inversion of `step`: no host access and no command end writes CFG. -/
theorem configurationIsConstant : Obligations.ConfigurationIsConstant := fun _ _ hstep => step_cfg hstep

/-- Settles O53; that REF meets CfgOK is `cfgOK_ref`. -/
theorem resetMeetsInvariant : Obligations.ResetMeetsInvariant := invariant_reset

end Sys2Proof.Machine
end

section
/-! PROOFS. The family 10_state.md: the state after reset (R37) and after CLR (R38), the registers that no command
writes (R23, R27), and that no command reads SR or a cell at or beyond its buffer's length (R28, R31). For the last, the
contents of a buffer after each operation are given as a function of the contents before alone; so each operation takes
two states that agree on what a command may read to two such states, and a command does because its result is computed
from such things. -/

namespace Sys2Proof.Machine

/-! ## The contents of a buffer after each operation -/

theorem contents_of_len_zero {b : Buf} {s : State} (h : s.len b = 0#8) : contents b s = [] := by
  simp [contents, h]

/-- The contents of a buffer outside a frame's windows stand. -/
theorem Frame.contents_eq {dests : List Buf} {s t : State} (h : Frame dests s t) {c : Buf} (hc : c ∉ dests) :
    contents c t = contents c s := by
  refine contents_congr s t c (h.len c hc) fun i hi => h.cell _ fun b hb => ?_
  have hlen := len_lt s c
  exact holds_ne c b _ (fun hcb => hc (hcb ▸ hb)) (holds_addr c i (by omega))

/-- What a commit leaves in its buffer, whether or not the values fit. -/
theorem contents_commit_self (b : Buf) (vs : List Nat) (s : State) :
    contents b (commit b vs s) = (vs.take (vs.length % 256)).map (BitVec.ofNat 8) := by
  have hlen : ((commit b vs s).len b).toNat = vs.length % 256 := by simp
  apply List.ext_getElem?
  intro i
  by_cases hi : i < vs.length % 256
  · have hidx : b.addr i - b.base = i := by simp [Buf.addr]
    have hv : i < vs.length := lt_of_lt_of_le hi (Nat.mod_le _ _)
    rw [contents_getElem? _ _ _ (hlen ▸ hi), cell_commit, holds_addr b i (by omega), hidx]
    simp [hi, hv]
  · rw [List.getElem?_eq_none (by rw [contents_length]; omega), List.getElem?_eq_none (by simp; omega)]

/-- What an append that fits leaves in its buffer: the contents before, then the new cells. -/
theorem contents_append_self (b : Buf) (vs : List Nat) (s : State) (hfit : (s.len b).toNat + vs.length ≤ 255) :
    contents b (append b vs s) = contents b s ++ vs.map (BitVec.ofNat 8) := by
  by_cases hne : vs = []
  · simp [hne, append]
  have hlen : ((append b vs s).len b).toNat = (s.len b).toNat + vs.length := by
    rw [append_len, if_pos rfl, BitVec.toNat_ofNat]; omega
  apply List.ext_getElem?
  intro i
  by_cases hi : i < (s.len b).toNat + vs.length
  · rw [contents_getElem? _ _ _ (hlen ▸ hi), cell_append _ _ _ _ hne (by omega)]
    by_cases hold : i < (s.len b).toNat
    · rw [if_neg (by unfold Buf.addr; omega), List.getElem?_append_left (by rwa [contents_length]),
        contents_getElem? _ _ _ hold]
    · have hidx : b.addr i - b.addr (s.len b).toNat = i - (s.len b).toNat := by unfold Buf.addr; omega
      have hv : i - (s.len b).toNat < vs.length := by omega
      rw [if_pos (by unfold Buf.addr; omega), hidx, List.getElem?_append_right (by rw [contents_length]; omega),
        contents_length]
      simp [hv]
  · rw [List.getElem?_eq_none (by rw [contents_length]; omega),
      List.getElem?_eq_none (by simp [contents_length]; omega)]

theorem contents_append_other (b c : Buf) (vs : List Nat) (s : State) (h : c ≠ b) :
    contents c (append b vs s) = contents c s := by
  by_cases hne : vs = []
  · simp [hne, append]
  have hb := len_lt s b
  refine contents_congr s _ c (by rw [append_len, if_neg h]) fun i hi => ?_
  have hc := len_lt s c
  have hout := holds_ne c b _ h (holds_addr c i (by omega))
  rw [Bool.eq_false_iff, Ne, holds_iff] at hout
  rw [cell_append _ _ _ _ hne (by omega), if_neg (by unfold Buf.addr at hout ⊢; omega)]

/-! ## Two states that agree on what a command may read -/

section Agreement

variable {s s' t t' : State}

theorem SameInputs.values_eq (h : SameInputs s s') (b : Buf) : values b s' = values b s := by
  unfold values; rw [h.contents]

/-- PACK.WSPR's power level is a function of PWR and T2 (41_packer.md R109). -/
theorem SameInputs.powerLevel_eq (h : SameInputs s s') : powerLevel s' = powerLevel s := by
  unfold powerLevel State.t2; rw [h.pwr, h.flags]

theorem SameInputs.outLength_eq (h : SameInputs s s') : outLength s' = outLength s :=
  congrArg BitVec.toNat (h.len .out)

/-- SR is none of the things a command may read (10_state.md R31). -/
theorem SameInputs.withSr (h : SameInputs s s') (n n' : Nat) :
    SameInputs { s with sr := n } { s' with sr := n' } where
  status := h.status
  errcode := h.errcode
  erridx := h.erridx
  pwr := h.pwr
  flags := h.flags
  cfg := h.cfg
  len := h.len
  contents := h.contents

theorem SameInputs.clearCall (h : SameInputs s s') : SameInputs (clearCall s) (clearCall s') where
  status := rfl
  errcode := rfl
  erridx := rfl
  pwr := h.pwr
  flags := h.flags
  cfg := h.cfg
  len b := by simp
  contents b := by rw [contents_of_len_zero (clearCall_len s b), contents_of_len_zero (clearCall_len s' b)]

/-- The error entry: the emptied buffers are empty in both states, the others stand in both (60_exceptions.md R184). -/
theorem SameInputs.enterError (h : SameInputs s s') (d : Option Buf) (e : Raise) :
    SameInputs (enterError d e s) (enterError d e s') := by
  have hr := enterError_raised d e s
  have hr' := enterError_raised d e s'
  exact
    { status := by simp
      errcode := by simp
      erridx := by simp
      pwr := by simpa using h.pwr
      flags := by simpa using h.flags
      cfg := by simpa using h.cfg
      len := fun b => by
        by_cases hb : b ∈ emptied d
        · rw [hr.emptied b hb, hr'.emptied b hb]
        · rw [hr.frame.len b hb, hr'.frame.len b hb, h.len]
      contents := fun b => by
        by_cases hb : b ∈ emptied d
        · rw [contents_of_len_zero (hr.emptied b hb), contents_of_len_zero (hr'.emptied b hb)]
        · rw [hr.frame.contents_eq hb, hr'.frame.contents_eq hb, h.contents] }

theorem SameInputs.commit (h : SameInputs s s') (b : Buf) (vs : List Nat) :
    SameInputs (commit b vs s) (commit b vs s') where
  status := by simpa using h.status
  errcode := by simpa using h.errcode
  erridx := by simpa using h.erridx
  pwr := by simpa using h.pwr
  flags := by simpa using h.flags
  cfg := by simpa using h.cfg
  len c := by simp [h.len]
  contents c := by
    by_cases hc : c = b
    · subst hc; rw [contents_commit_self, contents_commit_self]
    · rw [contents_commit_other b c vs s hc (Nat.le_of_lt_succ (len_lt s c)),
        contents_commit_other b c vs s' hc (Nat.le_of_lt_succ (len_lt s' c)), h.contents]

theorem SameInputs.append (h : SameInputs s s') (b : Buf) (vs : List Nat)
    (hfit : (s.len b).toNat + vs.length ≤ 255) : SameInputs (append b vs s) (append b vs s') where
  status := by simpa using h.status
  errcode := by simpa using h.errcode
  erridx := by simpa using h.erridx
  pwr := by simpa using h.pwr
  flags := by simpa using h.flags
  cfg := by simpa using h.cfg
  len c := by simp only [append_len, h.len]
  contents c := by
    by_cases hc : c = b
    · subst hc
      rw [contents_append_self c vs s hfit, contents_append_self c vs s' (by rwa [h.len]), h.contents]
    · rw [contents_append_other b c vs s hc, contents_append_other b c vs s' hc, h.contents]

/-! ## The ends of the commands, from two such states and one result -/

theorem SameInputs.finish (h : SameInputs s s') (b : Buf) {r r' : Except Raise (List Nat)} (hr : r' = r) :
    SameInputs (finish b r s) (finish b r' s') := by
  subst hr
  cases r' with
  | error e => exact h.enterError (some b) e
  | ok vs => exact h.commit b vs

theorem SameInputs.finishConv (h : SameInputs s s') {r r' : Except Raise (List Nat × Nat)} (hr : r' = r) :
    SameInputs (finishConv r s) (finishConv r' s') := by
  subst hr
  cases r' with
  | error e => exact h.enterError (some .fec) e
  | ok result => exact (h.commit .fec result.1).withSr result.2 result.2

/-- MRG.FSQ appends only what OUT has room for (44_sync_merger.md R166). -/
theorem mrgFsq_ok_fits {unitW outLen : Nat} {cod units : List Nat} (h : mrgFsq unitW outLen cod = .ok units) :
    outLen + units.length ≤ 255 := by
  unfold mrgFsq at h
  split at h
  · cases h
  · split_ifs at h with hlong
    cases h
    exact Nat.le_of_not_lt hlong

theorem SameInputs.finishAppend (h : SameInputs s s') (unitW : Nat) (cod : List Nat) {r' : Except Raise (List Nat)}
    (hr : r' = mrgFsq unitW (outLength s) cod) :
    SameInputs (finishAppend (mrgFsq unitW (outLength s) cod) s) (finishAppend r' s') := by
  subst hr
  cases hunits : mrgFsq unitW (outLength s) cod with
  | error e => exact h.enterError (some .out) e
  | ok units => exact h.append .out units (mrgFsq_ok_fits hunits)

/-- The gate is open in both states or closed in both (45_control.md R171). -/
theorem SameInputs.gated {k k' : State → State} (h : SameInputs s s') (ht : gated k s = .next t)
    (ht' : gated k' s' = .next t') (hk : SameInputs (k s) (k' s')) : SameInputs t t' := by
  have hstatus := h.status
  obtain ⟨h1, rfl⟩ | ⟨h0, rfl⟩ := gated_cases k s t ht <;>
    obtain ⟨h1', rfl⟩ | ⟨h0', rfl⟩ := gated_cases k' s' t' ht'
  · exact h
  · simp [h1, h0'] at hstatus
  · simp [h0, h1'] at hstatus
  · exact hk

/-- Each command computes its result from CFG, the contents of its source buffer, the power level and OUT_LEN. -/
theorem SameInputs.exec (i : Instr) (h : SameInputs s s') (ht : exec i s = .next t) (ht' : exec i s' = .next t') :
    SameInputs t t' := by
  cases i with
  | nop => cases ht; cases ht'; exact h
  | clr => cases ht; cases ht'; exact h.clearCall
  | codeJt65 | codeJt9 | codeJt4 | codeWspr | codeFsq =>
    exact h.gated ht ht' (h.finish .cod (by rw [h.cfg, h.contents]))
  | packJt65 | packJt9 | packJt4 | packWspr =>
    exact h.gated ht ht' (h.finish .pkd (by rw [h.cfg, h.values_eq, h.powerLevel_eq]))
  | convJt9 | convJt4 | convWspr =>
    exact h.gated ht ht' (h.finishConv (by rw [h.cfg, h.values_eq]))
  | ilvJt65 | ilvJt9 | ilvJt4 | ilvWspr =>
    exact h.gated ht ht' (h.finish .prm (by rw [h.cfg, h.values_eq]))
  | mrgJt65 | mrgJt9 | mrgJt4 | mrgWspr =>
    exact h.gated ht ht' (h.finish .out (by rw [h.cfg, h.values_eq]))
  | mrgFsq =>
    exact h.gated ht ht' (h.finishAppend _ _ (by rw [h.cfg, h.values_eq, h.outLength_eq]))

end Agreement

/-! ## PWR and FLAGS stand over every command -/

theorem stageEnds_pwr_flags {i : Instr} {s t : State} (h : StageEnds i s t) : t.pwr = s.pwr ∧ t.flags = s.flags := by
  cases h with
  | error d e _ ht => simp [ht]
  | commit d vs _ _ ht => simp [ht]
  | conv c pkd _ _ ht => simp [ht]
  | append vs _ _ ht => simp [ht]

theorem exec_pwr_flags {i : Instr} {s t : State} (h : exec i s = .next t) : t.pwr = s.pwr ∧ t.flags = s.flags := by
  obtain ⟨-, rfl⟩ | ⟨-, rfl⟩ | ⟨-, -, rfl⟩ | ⟨-, -, -, hends⟩ := exec_cases i s t h
  · exact ⟨rfl, rfl⟩
  · exact ⟨clearCall_pwr s, clearCall_flags s⟩
  · exact ⟨rfl, rfl⟩
  · exact stageEnds_pwr_flags hends

/-! ## Reset and CLR -/

@[simp] theorem reset_len (b : Buf) : State.reset.len b = 0#8 := by cases b <;> rfl

/-- The return from an error gives the reset state but for the fields that CLR keeps (10_state.md R38). -/
theorem clearCall_eq_reset (s : State) :
    clearCall s = { State.reset with
      pwr := s.pwr, flags := s.flags, cfg := s.cfg, draw := s.draw, pending := s.pending, readData := s.readData } :=
  rfl

theorem exec_clr (s : State) : exec .clr s = .next (clearCall s) := rfl

/-! ## The obligations -/

/-- Settles O50, command by command: each computes its result from what the two states agree on, and each end of a
command keeps the agreement. -/
theorem commandsReadOnlyContents : Obligations.CommandsReadOnlyContents :=
  fun i _ _ _ _ h ht ht' => h.exec i ht ht'

/-- Settles O49, by the inversion of `exec`: no end of a command writes PWR or FLAGS. -/
theorem noCommandWritesPwrOrFlags : Obligations.NoCommandWritesPwrOrFlags := fun _ _ _ h => exec_pwr_flags h

/-- Settles O13: CLR is `clearCall`, which is reset but for what it keeps. -/
theorem clrIsResetButPwrAndFlags : Obligations.ClrIsResetButPwrAndFlags := fun s => by
  rw [exec_clr, clearCall_eq_reset]

/-- Settles O14, register by register; no cell holds a value because the memory lists none (log 6). -/
theorem resetLeavesZeros : Obligations.ResetLeavesZeros :=
  ⟨rfl, rfl, rfl, rfl, rfl, reset_len, rfl, Memory.read_nil⟩

end Sys2Proof.Machine
end

section
/-! PROOFS. The family 20_memory.md: what a host read returns (R45, R47), what a host write stores and what it ignores
(R45, R46), and that a cell which the host has written keeps its value (R49, R28). The layer below reads the address map
in both directions, gives the step that serves a host read or write as an equation, and says once which operations keep
a host-written cell; what a step can do to such a cell then follows the inversions `step_cases`, `exec_cases` and
`StageEnds`. -/

namespace Sys2Proof.Machine

open Sys2Proof.Claims

/-! ## The address map (20_memory.md R45) -/

theorem bufOfNum_num (b : Buf) : bufOfNum b.num = some b := by cases b <;> rfl

theorem num_of_bufOfNum {n : Nat} {b : Buf} (h : bufOfNum n = some b) : b.num = n := by
  unfold bufOfNum at h
  split at h <;> cases h <;> rfl

theorem bufOfNum_eq_none {n : Nat} (h : n = 0 ∨ 7 ≤ n) : bufOfNum n = none := by
  cases hb : bufOfNum n with
  | none => rfl
  | some b =>
    have hn := num_of_bufOfNum hb
    cases b <;> simp only [Buf.num] at hn <;> omega

/-- Beyond the registers the map is that of the buffers. -/
theorem regionOf_eq_cellRegion {a : Nat} (h : 0x00E ≤ a) : regionOf a = cellRegion a := by
  unfold regionOf
  split
  case h_13 => rfl
  all_goals omega

theorem regionOf_length (b : Buf) : regionOf (7 + b.num) = .length b := by cases b <;> rfl

theorem regionOf_cell (b : Buf) (i : Nat) (hi : i < 255) : regionOf (b.num * 0x100 + i) = .cell b i := by
  have hnum : 1 ≤ b.num := by cases b <;> decide
  have hdiv : (b.num * 0x100 + i) / 0x100 = b.num := by omega
  have hmod : (b.num * 0x100 + i) % 0x100 = i := by omega
  rw [regionOf_eq_cellRegion (by omega), cellRegion, hdiv, hmod, bufOfNum_num]
  exact if_pos hi

/-- The reserved addresses of R46. -/
theorem regionOf_reserved {a : Nat} (h : a = 0x006 ∨ a = 0x007 ∨ (0x00E ≤ a ∧ a ≤ 0x0FF) ∨ 0x700 ≤ a ∨
    (0x100 ≤ a ∧ a % 0x100 = 0xFF)) : regionOf a = .reserved := by
  obtain rfl | rfl | ⟨hlo, hhi⟩ | hhi | ⟨hlo, hlast⟩ := h
  · rfl
  · rfl
  · rw [regionOf_eq_cellRegion hlo, cellRegion, bufOfNum_eq_none (by omega)]
  · rw [regionOf_eq_cellRegion (by omega), cellRegion, bufOfNum_eq_none (by omega)]
  · rw [regionOf_eq_cellRegion (by omega), cellRegion, hlast]
    cases bufOfNum (a / 0x100) <;> rfl

theorem cellRegion_eq_cell {a : Nat} {b : Buf} {i : Nat} (h : cellRegion a = .cell b i) : a = b.addr i := by
  unfold cellRegion at h
  split at h
  · cases h
  next c hc =>
    split_ifs at h
    cases h
    have hnum := num_of_bufOfNum hc
    unfold Buf.addr Buf.base
    omega

/-- Only the address of a cell is mapped to it. -/
theorem regionOf_eq_cell {a : Nat} {b : Buf} {i : Nat} (h : regionOf a = .cell b i) : a = b.addr i := by
  unfold regionOf at h
  split at h
  case h_13 => exact cellRegion_eq_cell h
  all_goals cases h

theorem cellRegion_ne_cmd (a : Nat) : cellRegion a ≠ .cmd := by
  unfold cellRegion
  split
  · simp
  · split_ifs <;> simp

/-- CMD is at address 0 alone. -/
theorem regionOf_eq_cmd {a : Nat} (h : regionOf a = .cmd) : a = 0 := by
  unfold regionOf at h
  split at h
  case h_1 => rfl
  case h_13 => exact absurd h (cellRegion_ne_cmd _)
  all_goals cases h

/-- The one access that is a command: a write to CMD (45_control.md R170). -/
theorem eq_write_of_commandOf {acc : HostAccess} {v : Byte} (h : commandOf acc = some v) :
    acc = .write 0x000#11 v := by
  cases acc with
  | read a => cases h
  | write a w =>
    simp only [commandOf] at h
    split_ifs at h with hcmd
    cases h
    obtain rfl : a = 0x000#11 := BitVec.eq_of_toNat_eq (regionOf_eq_cmd hcmd)
    rfl

/-! ## What a host write stores, by the region of its address -/

section Write

variable {a : HostAddr} {b : Buf} {i : Nat} (v : Byte) (s : State)

theorem writeAddr_length (h : regionOf a.toNat = .length b) : writeAddr a v s = setLen b v s := by
  rw [writeAddr, h]

theorem writeAddr_cell (h : regionOf a.toNat = .cell b i) : writeAddr a v s = storeCell (b.addr i) v s := by
  rw [writeAddr, h]

theorem writeAddr_reserved (h : regionOf a.toNat = .reserved) : writeAddr a v s = s := by
  rw [writeAddr, h]

end Write

/-- FLAGS keeps bit 0 of a written byte (10_state.md R27). -/
theorem flagsOfByte_eq (v : Byte) : flagsOfByte v = BitVec.ofBool (v.getLsbD 0) := by
  apply BitVec.eq_of_getLsbD_eq
  intro j hj
  obtain rfl : j = 0 := by omega
  simp [flagsOfByte]

/-! ## What a host read returns -/

theorem cell_of_read {s : State} {a : Nat} {v : Byte} (h : Memory.read s.mem a = some v) : s.cell a = v := by
  rw [State.cell, h]

/-- A cell below its buffer's length is read. -/
theorem readAddr_cell {s : State} {a : HostAddr} {b : Buf} {i : Nat} {v : Byte} (ha : regionOf a.toNat = .cell b i)
    (hi : i < (s.len b).toNat) (hv : Memory.read s.mem (b.addr i) = some v) : readAddr a s = v := by
  rw [readAddr, ha]
  exact (if_pos hi).trans (cell_of_read hv)

/-- The register's bits fill the low bits of its cell, and the others are 0 (10_state.md R24 to R27). -/
theorem readAddr_readValue (s : State) (a : HostAddr) : ReadValue s a (readAddr a s) where
  cmd := by rintro rfl; rfl
  status := by rintro rfl; exact BitVec.toNat_setWidth_of_le (by decide)
  errcode := by rintro rfl; exact BitVec.toNat_setWidth_of_le (by decide)
  erridx := by rintro rfl; rfl
  pwr := by rintro rfl; rfl
  flags := by rintro rfl; exact BitVec.toNat_setWidth_of_le (by decide)
  chrLen := by rintro rfl; rfl
  codLen := by rintro rfl; rfl
  pkdLen := by rintro rfl; rfl
  fecLen := by rintro rfl; rfl
  prmLen := by rintro rfl; rfl
  outLen := by rintro rfl; rfl
  cell := fun b i _ hlen ha hi hv => readAddr_cell (ha ▸ regionOf_cell b i hi) hlen hv

/-! ## The step that serves a host access -/

section Served

variable {s : State} {a : HostAddr} {rest : List HostAccess}

@[simp] theorem served_status : (served s rest).status = s.status := rfl
@[simp] theorem served_errcode : (served s rest).errcode = s.errcode := rfl
@[simp] theorem served_erridx : (served s rest).erridx = s.erridx := rfl
@[simp] theorem served_pwr : (served s rest).pwr = s.pwr := rfl
@[simp] theorem served_flags : (served s rest).flags = s.flags := rfl
@[simp] theorem served_sr : (served s rest).sr = s.sr := rfl
@[simp] theorem served_cfg : (served s rest).cfg = s.cfg := rfl
@[simp] theorem served_mem : (served s rest).mem = s.mem := rfl
@[simp] theorem served_hostCells : (served s rest).hostCells = s.hostCells := rfl
@[simp] theorem served_pending : (served s rest).pending = rest := rfl
@[simp] theorem served_readData : (served s rest).readData = s.readData := rfl
@[simp] theorem served_len (b : Buf) : (served s rest).len b = s.len b := by cases b <;> rfl

theorem step_read (h : s.pending = .read a :: rest) :
    step s = .next { served s rest with readData := some (readAddr a (served s rest)) } := by
  unfold step takeAccess
  rw [h]
  rfl

theorem step_write {v : Byte} (h : s.pending = .write a v :: rest) (ha : regionOf a.toNat ≠ .cmd) :
    step s = .next (writeAddr a v (served s rest)) := by
  unfold step takeAccess
  rw [h]
  simp only [commandOf, if_neg ha]
  rfl

theorem step_writeCell {v : Byte} {b : Buf} {i : Nat} (h : s.pending = .write a v :: rest)
    (ha : regionOf a.toNat = .cell b i) : step s = .next (storeCell (b.addr i) v (served s rest)) := by
  rw [step_write h (by simp [ha]), writeAddr_cell v _ ha]

theorem step_writeLength {v : Byte} {b : Buf} (h : s.pending = .write a v :: rest) (ha : a.toNat = 7 + b.num) :
    step s = .next (setLen b v (served s rest)) := by
  have hlen : regionOf a.toNat = .length b := ha ▸ regionOf_length b
  rw [step_write h (by simp [hlen]), writeAddr_length v _ hlen]

end Served

/-! ## What a length write leaves of the cells (10_state.md R28, 20_memory.md R49) -/

theorem read_setLen_of_mem {s : State} {x : Nat} (b : Buf) (n : BitVec 8) (h : x ∈ s.hostCells) :
    Memory.read (setLen b n s).mem x = Memory.read s.mem x := by
  rw [read_setLen, if_pos (.inr (.inr h))]

theorem read_setLen_outside {s : State} {b : Buf} {x : Nat} (n : BitVec 8) (h : b.holds x = false) :
    Memory.read (setLen b n s).mem x = Memory.read s.mem x := by
  rw [read_setLen, if_pos]
  have hlen := len_lt s b
  rw [Bool.eq_false_iff, Ne, holds_iff] at h
  unfold Buf.addr
  omega

theorem read_setLen_below {s : State} {b : Buf} {n : BitVec 8} {i : Nat} (h : i < n.toNat) :
    Memory.read (setLen b n s).mem (b.addr i) = Memory.read s.mem (b.addr i) := by
  rw [read_setLen, if_pos (.inl (Nat.add_lt_add_left h _))]

theorem read_setLen_leftBehind {s : State} {b : Buf} {n : BitVec 8} {i : Nat} (hn : n.toNat ≤ i)
    (hlen : i < (s.len b).toNat) (hi : b.addr i ∉ s.hostCells) :
    Memory.read (setLen b n s).mem (b.addr i) = none := by
  rw [read_setLen, if_neg]
  rintro (h | h | h)
  · unfold Buf.addr at h; omega
  · unfold Buf.addr at h; omega
  · exact hi h

/-! ## Host-written cells are kept -/

/-- Cell `a` is still among the cells that the host has written, and reads as before. -/
structure KeepsHostCell (a : Nat) (s t : State) : Prop where
  host : a ∈ t.hostCells
  read : Memory.read t.mem a = Memory.read s.mem a

section Kept

variable {s t : State} {a : Nat}

theorem keepsHostCell_setLen (b : Buf) (n : BitVec 8) (ha : a ∈ s.hostCells) : KeepsHostCell a s (setLen b n s) :=
  ⟨by simpa using ha, read_setLen_of_mem b n ha⟩

theorem step_writeCell_reads {x : HostAddr} {v : Byte} {b : Buf} {i : Nat} {rest : List HostAccess}
    (h : s.pending = .write x v :: rest) (hx : regionOf x.toNat = .cell b i) :
    ∃ t, step s = .next t ∧ t.pending = rest ∧ b.addr i ∈ t.hostCells ∧ Memory.read t.mem (b.addr i) = some v :=
  ⟨_, step_writeCell h hx, rfl, (mem_mark _ _ _).2 (.inl rfl), (Memory.read_insert _ _ _ _).trans (if_pos rfl)⟩

theorem step_writeLength_keeps {l : HostAddr} {n : Byte} {b : Buf} {rest : List HostAccess}
    (h : s.pending = .write l n :: rest) (hl : l.toNat = 7 + b.num) (ha : a ∈ s.hostCells) :
    ∃ t, step s = .next t ∧ t.pending = rest ∧ t.len b = n ∧ KeepsHostCell a s t := by
  obtain ⟨hhost, hread⟩ := keepsHostCell_setLen (s := served s rest) b n ha
  exact ⟨_, step_writeLength h hl, by simp, by simp, hhost, hread⟩

/-- The error entry is made of length writes (60_exceptions.md R184). -/
theorem keepsHostCell_enterError (d : Option Buf) (e : Raise) (ha : a ∈ s.hostCells) :
    KeepsHostCell a s (enterError d e s) where
  host := by simpa using ha
  read := by
    have hr : a ∈ (recordError e s).hostCells := ha
    cases d with
    | none => exact read_setLen_of_mem .out _ hr
    | some b =>
      exact (read_setLen_of_mem .out _ (by simpa using ha)).trans (read_setLen_of_mem b _ hr)

theorem keepsHostCell_commit {b : Buf} (vs : List Nat) (ha : a ∈ s.hostCells) (hb : b.holds a = false) :
    KeepsHostCell a s (commit b vs s) where
  host := by rw [commit_hostCells, mem_unmark]; exact ⟨ha, hb⟩
  read := by
    rw [Bool.eq_false_iff, Ne, holds_iff] at hb
    rw [commit_mem, Memory.read_splice _ _ _ _ _ (by omega)]
    exact if_neg hb

theorem keepsHostCell_append {b : Buf} (vs : List Nat) (ha : a ∈ s.hostCells) (hb : b.holds a = false) :
    KeepsHostCell a s (append b vs s) := by
  unfold append
  split_ifs
  · exact ⟨ha, rfl⟩
  · refine ⟨by rw [withLen_hostCells, mem_unmark]; exact ⟨ha, hb⟩, ?_⟩
    have hlen := len_lt s b
    rw [Bool.eq_false_iff, Ne, holds_iff] at hb
    rw [withLen_mem, Memory.read_splice _ _ _ _ _ (by unfold Buf.addr Config.cap; omega), if_neg]
    unfold Buf.addr Config.cap
    omega

theorem destOf_conv {i : Instr} (h : i.op = .conv) : destOf i = some .fec := by
  cases i with
  | convJt9 | convJt4 | convWspr => rfl
  | _ => cases h

/-- A stage takes a host-written cell away only by completing on the buffer that holds it. -/
theorem StageEnds.keepsHostCell {i : Instr} (h : StageEnds i s t) (ha : a ∈ s.hostCells) :
    KeepsHostCell a s t ∨ ∃ d, destOf i = some d ∧ d.holds a = true ∧ t.status = s.status := by
  cases h with
  | error d e _ ht => subst ht; exact .inl (keepsHostCell_enterError _ e ha)
  | commit d vs hd _ ht =>
    subst ht
    cases hb : d.holds a with
    | false => exact .inl (keepsHostCell_commit vs ha hb)
    | true => exact .inr ⟨d, hd, hb, commit_status d vs s⟩
  | conv c pkd hi _ ht =>
    subst ht
    cases hb : Buf.holds .fec a with
    | false =>
      obtain ⟨hhost, hread⟩ := keepsHostCell_commit (convEnc c pkd).1 ha hb
      exact .inl ⟨hhost, hread⟩
    | true => exact .inr ⟨.fec, destOf_conv hi, hb, commit_status .fec (convEnc c pkd).1 s⟩
  | append vs hi _ ht =>
    subst hi ht
    cases hb : Buf.holds .out a with
    | false => exact .inl (keepsHostCell_append vs ha hb)
    | true => exact .inr ⟨.out, rfl, hb, append_status .out vs s⟩

theorem exec_keepsHostCell {i : Instr} (h : exec i s = .next t) (ha : a ∈ s.hostCells) :
    KeepsHostCell a s t ∨ i = .clr ∨ ∃ d, destOf i = some d ∧ d.holds a = true ∧ t.status = 0#1 := by
  obtain ⟨-, rfl⟩ | ⟨hclr, -⟩ | ⟨-, -, rfl⟩ | ⟨-, -, h0, hends⟩ := exec_cases i s t h
  · exact .inl ⟨ha, rfl⟩
  · exact .inr (.inl hclr)
  · exact .inl ⟨ha, rfl⟩
  · obtain hkept | ⟨d, hd, hb, hstatus⟩ := hends.keepsHostCell ha
    · exact .inl hkept
    · exact .inr (.inr ⟨d, hd, hb, hstatus.trans h0⟩)

theorem execReserved_keepsHostCell {v : Byte} (h : execReserved v s = .next t) (ha : a ∈ s.hostCells) :
    KeepsHostCell a s t := by
  obtain ⟨-, rfl⟩ | ⟨-, rfl⟩ := execReserved_cases h
  · exact ⟨ha, rfl⟩
  · exact keepsHostCell_enterError none _ ha

/-- A host write keeps every host-written cell but the one it stores to, which takes the byte. -/
theorem writeAddr_keepsHostCell (x : HostAddr) (v : Byte) (ha : a ∈ s.hostCells) :
    KeepsHostCell a s (writeAddr x v s) ∨
      x.toNat = a ∧ a ∈ (writeAddr x v s).hostCells ∧ Memory.read (writeAddr x v s).mem a = some v := by
  cases hr : regionOf x.toNat with
  | cmd | status | errcode | erridx | pwr | flags | reserved =>
    rw [writeAddr, hr]; exact .inl ⟨ha, rfl⟩
  | length b => rw [writeAddr_length v s hr]; exact .inl (keepsHostCell_setLen b v ha)
  | cell b i =>
    rw [writeAddr_cell v s hr, ← regionOf_eq_cell hr, storeCell_hostCells, storeCell_mem, Memory.read_insert]
    have hhost : a ∈ mark s.hostCells x.toNat := (mem_mark _ _ _).2 (.inr ha)
    by_cases hx : x.toNat = a
    · exact .inr ⟨hx, hhost, if_pos hx⟩
    · exact .inl ⟨hhost, by rw [storeCell_mem, Memory.read_insert, if_neg hx]⟩

theorem serve_keepsHostCell (acc : HostAccess) (ha : a ∈ s.hostCells) :
    a ∈ (serve acc s).hostCells ∧ (Memory.read (serve acc s).mem a = Memory.read s.mem a ∨
      ∃ x v, acc = .write x v ∧ x.toNat = a ∧ Memory.read (serve acc s).mem a = some v) := by
  cases acc with
  | read x => exact ⟨ha, .inl rfl⟩
  | write x v =>
    obtain ⟨hhost, hread⟩ | ⟨hx, hhost, hread⟩ := writeAddr_keepsHostCell x v ha
    · exact ⟨hhost, .inl hread⟩
    · exact ⟨hhost, .inr ⟨x, v, rfl, hx, hread⟩⟩

end Kept

/-! ## CLR has one byte (30_encoding.md R65) -/

theorem op_of_stageOf {op : Op} {m : Mode} {i : Instr} (h : stageOf op m = some i) : i.op = op := by
  unfold stageOf at h
  split at h <;> cases h <;> rfl

theorem op_of_decodeStage {op : Op} {mode : BitVec 3} {i : Instr} (h : decodeStage op mode = .ok i) : i.op = op := by
  unfold decodeStage at h
  split at h
  · cases h
  · split at h
    · cases h
    next hstage => cases h; exact op_of_stageOf hstage

/-- The three fields are the byte cut in order (30_encoding.md R61). -/
theorem joinByte_splitByte (b : Byte) : joinByte (splitByte b) = b := by
  have hopz : b.extractLsb' 4 4 ++ b.extractLsb' 3 1 = b.extractLsb' 3 5 :=
    BitVec.extractLsb'_append_extractLsb'_eq_extractLsb' rfl
  have hall : b.extractLsb' 3 5 ++ b.extractLsb' 0 3 = b.extractLsb' 0 8 :=
    BitVec.extractLsb'_append_extractLsb'_eq_extractLsb' rfl
  simp only [joinByte, splitByte]
  rw [hopz, hall, BitVec.extractLsb'_eq_self]

theorem eq_of_decodeControl {i j : Instr} {mode : BitVec 3} (h : decodeControl i mode = .ok j) :
    mode = 0#3 ∧ j = i := by
  unfold decodeControl at h
  split_ifs at h with hmode
  cases h
  exact ⟨hmode, rfl⟩

theorem eq_opBits_of_opOfBits {x : BitVec 4} {op : Op} (h : opOfBits x = some op) : x = opBits op := by
  unfold opOfBits at h
  split at h
  case h_8 => cases h
  all_goals
    next hx =>
      cases h
      exact BitVec.eq_of_toNat_eq hx

/-- CLR has Z 0, its own OP and, as a control command, MODE 0 (R61). -/
theorem decodeWord_eq_clr {c : CommandWord} (h : decodeWord c = .ok .clr) : c = encodeWord .clr := by
  obtain ⟨op, z, mode⟩ := c
  unfold decodeWord at h
  split_ifs at h with hz
  have hz0 : z = 0#1 := (BitVec.eq_zero_or_eq_one z).resolve_right hz
  split at h
  case h_1 => cases h
  case h_2 => exact absurd (eq_of_decodeControl h).2 (by decide)
  case h_3 hop =>
    obtain ⟨rfl, -⟩ := eq_of_decodeControl h
    obtain rfl := eq_opBits_of_opOfBits hop
    rw [hz0]
    rfl
  all_goals exact absurd (op_of_decodeStage h) (by decide)

/-- A command is decoded from one byte alone (30_encoding.md R60). -/
theorem decode_singleton {b : Byte} {i : Instr} {rest : List Byte} (h : decode [b] = .ok (i, rest)) :
    decodeWord (splitByte b) = .ok i ∧ rest = [] := by
  simp only [decode] at h
  split at h
  · cases h
  next hword => cases h; exact ⟨hword, rfl⟩

theorem eq_of_decode_clr {b : Byte} {rest : List Byte} (h : decode [b] = .ok (.clr, rest)) : b = 0x10#8 :=
  calc b = joinByte (splitByte b) := (joinByte_splitByte b).symm
    _ = joinByte (encodeWord .clr) := by rw [decodeWord_eq_clr (decode_singleton h).1]
    _ = 0x10#8 := rfl

/-! ## The obligations -/

/-- Settles O8, by the equation of the step that serves a read. -/
theorem hostReadReturnsAndChangesNothing : Obligations.HostReadReturnsAndChangesNothing := fun s a rest h =>
  ⟨_, step_read h, { readAddr_readValue (served s rest) a with
    cell := fun b i w hlen => (readAddr_readValue (served s rest) a).cell b i w (by simpa using hlen) }⟩

/-- Settles O9, register by register and by the address map's reserved ranges. -/
theorem hostWritesRegisters : Obligations.HostWritesRegisters := by
  intro s a v rest h
  refine ⟨?_, ?_, ?_, fun ha => ?_⟩
  · rintro rfl; exact step_write h (by decide)
  · rintro rfl; rw [← flagsOfByte_eq]; exact step_write h (by decide)
  · rintro (rfl | rfl | rfl) <;> exact step_write h (by decide)
  · have hr : regionOf a.toNat = .reserved :=
      regionOf_reserved (ha.imp (congrArg BitVec.toNat) (Or.imp_left (congrArg BitVec.toNat)))
    rw [step_write h (by simp [hr]), writeAddr_reserved v _ hr]

/-- Settles O10: the step is `storeCell`, which sets and marks one address. -/
theorem hostWriteStoresOneCell : Obligations.HostWriteStoresOneCell := by
  intro s a v rest b i h hi ha
  have hr : regionOf a.toNat = .cell b i := ha ▸ regionOf_cell b i hi
  have hself : Memory.read (storeCell (b.addr i) v (served s rest)).mem (b.addr i) = some v := by
    rw [storeCell_mem, Memory.read_insert, if_pos rfl]
  refine ⟨_, step_writeCell h hr, rfl, fun x => mem_mark _ _ x, fun x hx => ?_, hself, fun hlen => ?_⟩
  · exact (Memory.read_insert _ _ _ _).trans (if_neg (Ne.symm hx))
  · exact readAddr_cell hr (by simpa using hlen) hself

/-- Settles O11: the step is `setLen`; the clauses on the cells are those of `read_setLen`. -/
theorem hostWriteSetsOneLength : Obligations.HostWriteSetsOneLength := by
  intro s a v rest b h ha
  refine ⟨_, step_writeLength h ha, by simp, fun c hc => by simp [hc], by simp, by simp,
    by simp, by simp, by simp, by simp, by simp, by simp, by simp, by simp,
    fun x hx => ?_, fun x hx => ?_, fun i hi => ?_, fun i hn hlen hi => ?_⟩
  · exact read_setLen_of_mem b v hx
  · exact read_setLen_outside v hx
  · exact read_setLen_below hi
  · exact read_setLen_leftBehind hn (by simpa using hlen) hi

/-- Settles O55, by the inversion of `step`: only CLR and a completion on the cell's buffer take a host-written cell
away. -/
theorem hostWrittenCellsAreKept : Obligations.HostWrittenCellsAreKept := by
  intro s t a h ha
  obtain ⟨-, rfl⟩ | ⟨acc, rest, hpending, hserved⟩ := step_cases s t h
  · exact .inl ⟨ha, .inl rfl⟩
  obtain ⟨-, rfl⟩ | ⟨v, i, rs, hcmd, hdec, hexec⟩ | ⟨v, e, -, -, hres⟩ := hserved
  · obtain ⟨hhost, hread | ⟨x, v, rfl, hx, hread⟩⟩ := serve_keepsHostCell (s := served s rest) acc ha
    · exact .inl ⟨hhost, .inl hread⟩
    · exact .inl ⟨hhost, .inr ⟨x, v, rest, hpending, hx, hread⟩⟩
  · obtain rfl := eq_write_of_commandOf hcmd
    obtain rfl := (decode_singleton hdec).2
    obtain ⟨hhost, hread⟩ | rfl | ⟨d, hd, hb, h0⟩ := exec_keepsHostCell hexec ha
    · exact .inl ⟨hhost, .inl hread⟩
    · exact .inr ⟨v, rest, hpending, .inl (eq_of_decode_clr hdec)⟩
    · exact .inr ⟨v, rest, hpending, .inr ⟨i, d, hdec, hd, hb, h0⟩⟩
  · obtain ⟨hhost, hread⟩ := execReserved_keepsHostCell hres ha
    exact .inl ⟨hhost, .inl hread⟩

/-- Settles O56: the cell is host-written after the first step, so both length writes keep it, and it lies below the
last length. -/
theorem hostWrittenCellReturnsWithTheLength : Obligations.HostWrittenCellReturnsWithTheLength := by
  intro s b i a l w n m rest ha hi hl h
  have hr : regionOf a.toNat = .cell b i := ha ▸ regionOf_cell b i (by have := m.isLt; omega)
  obtain ⟨s1, hstep1, hp1, hhost, hread⟩ := step_writeCell_reads h hr
  obtain ⟨s2, hstep2, hp2, -, hkept2⟩ := step_writeLength_keeps hp1 hl hhost
  obtain ⟨s3, hstep3, hp3, hlen, hkept3⟩ := step_writeLength_keeps hp2 hl hkept2.host
  have hread3 : Memory.read s3.mem (b.addr i) = some w := hkept3.read.trans (hkept2.read.trans hread)
  exact ⟨s1, s2, s3, _, hstep1, hstep2, hstep3, step_read hp3,
    congrArg some (readAddr_cell hr (by simpa [hlen] using hi) hread3)⟩

end Sys2Proof.Machine
end

section
/-! PROOFS. The family 30_encoding.md: the decoder is the inverse of the encoder (R60, R61, R65, R67, R68), every other
byte is reserved (R66), and a command that ends without an error has changed only its destination (R64). The layer below
inverts the decoder field by field, so that decoding is one equivalence, `decode_eq_ok_iff`; the opcode map is the
encoder's table of bytes; and each end of a stage is given its frame, whatever the values it stores. -/

namespace Sys2Proof

open Laws.EncodedWord

/-- The per-instruction family as one statement. -/
theorem encodedWord : ∀ i : Instr, Statement i
  | .nop => nop | .clr => clr
  | .codeJt65 => codeJt65 | .codeJt9 => codeJt9 | .codeJt4 => codeJt4 | .codeWspr => codeWspr | .codeFsq => codeFsq
  | .packJt65 => packJt65 | .packJt9 => packJt9 | .packJt4 => packJt4 | .packWspr => packWspr
  | .convJt9 => convJt9 | .convJt4 => convJt4 | .convWspr => convWspr
  | .ilvJt65 => ilvJt65 | .ilvJt9 => ilvJt9 | .ilvJt4 => ilvJt4 | .ilvWspr => ilvWspr
  | .mrgJt65 => mrgJt65 | .mrgJt9 => mrgJt9 | .mrgJt4 => mrgJt4 | .mrgWspr => mrgWspr | .mrgFsq => mrgFsq

end Sys2Proof

namespace Sys2Proof.Machine

open Sys2Proof.Claims

/-! ## Each command's word (30_encoding.md R61) -/

theorem splitByte_encodeByte (i : Instr) : splitByte (encodeByte i) = encodeWord i := by
  obtain ⟨-, -, hsplit, -⟩ := encodedWord i
  exact hsplit

theorem decodeWord_encodeWord (i : Instr) : decodeWord (encodeWord i) = .ok i := by
  obtain ⟨-, -, -, hdec⟩ := encodedWord i
  exact hdec

/-! ## The inversion of the decoder (30_encoding.md R60 to R68) -/

theorem mode_of_stageOf {op : Op} {m : Mode} {i : Instr} (h : stageOf op m = some i) : i.mode = some m := by
  unfold stageOf at h
  split at h <;> cases h <;> rfl

theorem eq_modeBits_of_modeOfBits {x : BitVec 3} {m : Mode} (h : modeOfBits x = some m) : x = modeBits m := by
  unfold modeOfBits at h
  split at h
  case h_6 => cases h
  all_goals
    next hx =>
      cases h
      exact BitVec.eq_of_toNat_eq hx

theorem encodeWord_mode {i : Instr} {m : Mode} (h : i.mode = some m) : (encodeWord i).mode = modeBits m := by
  simp only [encodeWord, h]

theorem encodeWord_mode_of_decodeStage {op : Op} {mode : BitVec 3} {i : Instr} (h : decodeStage op mode = .ok i) :
    (encodeWord i).mode = mode := by
  unfold decodeStage at h
  split at h
  · cases h
  next m hmode =>
    split at h
    · cases h
    next hstage =>
      cases h
      rw [encodeWord_mode (mode_of_stageOf hstage), eq_modeBits_of_modeOfBits hmode]

/-- The OP and the MODE of a word that decodes are those of the command. -/
theorem fields_of_decodeStage {op : Op} {x : BitVec 4} {mode : BitVec 3} {i : Instr} (hop : opOfBits x = some op)
    (h : decodeStage op mode = .ok i) : x = (encodeWord i).op ∧ mode = (encodeWord i).mode :=
  ⟨by rw [eq_opBits_of_opOfBits hop, ← op_of_decodeStage h]; rfl, (encodeWord_mode_of_decodeStage h).symm⟩

theorem fields_of_decodeControl {op : Op} {x : BitVec 4} {mode : BitVec 3} {i j : Instr}
    (hop : opOfBits x = some op) (hi : i.op = op) (hmode : i.mode = none) (h : decodeControl i mode = .ok j) :
    x = (encodeWord j).op ∧ mode = (encodeWord j).mode := by
  obtain ⟨rfl, rfl⟩ := eq_of_decodeControl h
  exact ⟨by rw [eq_opBits_of_opOfBits hop, ← hi]; rfl, by simp only [encodeWord, hmode]⟩

theorem eq_encodeWord_of_decodeWord {c : CommandWord} {i : Instr} (h : decodeWord c = .ok i) : c = encodeWord i := by
  obtain ⟨op, z, mode⟩ := c
  unfold decodeWord at h
  split_ifs at h with hz
  obtain rfl : z = 0#1 := (BitVec.eq_zero_or_eq_one z).resolve_right hz
  obtain ⟨rfl, rfl⟩ : op = (encodeWord i).op ∧ mode = (encodeWord i).mode := by
    split at h
    case h_1 => cases h
    case h_2 hop => exact fields_of_decodeControl hop rfl rfl h
    case h_3 hop => exact fields_of_decodeControl hop rfl rfl h
    all_goals
      next hop => exact fields_of_decodeStage hop h
  rfl

theorem decodeWord_eq_ok_iff {c : CommandWord} {i : Instr} : decodeWord c = .ok i ↔ c = encodeWord i :=
  ⟨eq_encodeWord_of_decodeWord, fun h => h ▸ decodeWord_encodeWord i⟩

/-- A byte and its three fields determine each other (R61). -/
theorem splitByte_eq_encodeWord_iff {b : Byte} {i : Instr} : splitByte b = encodeWord i ↔ b = encodeByte i :=
  ⟨fun h => by rw [← joinByte_splitByte b, h]; rfl, fun h => h ▸ splitByte_encodeByte i⟩

theorem decode_cons_eq_ok_iff {b : Byte} {bs rest : List Byte} {i : Instr} :
    decode (b :: bs) = .ok (i, rest) ↔ decodeWord (splitByte b) = .ok i ∧ bs = rest := by
  rw [decode]
  cases decodeWord (splitByte b) with
  | error e => simp
  | ok j => simp

/-- THE INVERSION OF decode: the bytes that decode to a command are its one byte and the rest. -/
theorem decode_eq_ok_iff {bs rest : List Byte} {i : Instr} : decode bs = .ok (i, rest) ↔ bs = encode i ++ rest := by
  cases bs with
  | nil => simp [decode, encode]
  | cons b bs =>
    rw [decode_cons_eq_ok_iff, decodeWord_eq_ok_iff, splitByte_eq_encodeWord_iff]
    simp [encode]

/-! ## The opcode map (30_encoding.md R65, R66) -/

theorem fst_eq_encodeByte_of_mem_opcodeMap : ∀ e ∈ opcodeMap, e.1 = encodeByte e.2 := by decide

theorem encodeByte_mem_opcodeMap (i : Instr) : encodeByte i ∈ opcodeMap.map Prod.fst := by
  cases i <;> decide

theorem opcodeMap_bytes_nodup : (opcodeMap.map Prod.fst).Nodup := by decide

/-- The byte values listed in `l` are, as numbers below 256, the entries of `l` once each. -/
theorem filter_range_mem_perm {l : List Byte} (h : l.Nodup) :
    ((List.range 256).filter fun n => BitVec.ofNat 8 n ∈ l).Perm (l.map BitVec.toNat) := by
  have hmap : (l.map BitVec.toNat).Nodup := h.map fun _ _ => BitVec.eq_of_toNat_eq
  refine (List.perm_ext_iff_of_nodup (List.nodup_range.filter _) hmap).2 fun n => ?_
  simp only [List.mem_filter, List.mem_range, decide_eq_true_eq, List.mem_map]
  constructor
  · rintro ⟨hn, hmem⟩
    exact ⟨_, hmem, by simpa using hn⟩
  · rintro ⟨b, hb, rfl⟩
    exact ⟨b.isLt, by simpa using hb⟩

/-- Of the 256 bytes, all but the entries of `l` are outside it. -/
theorem length_add_length_filter_notMem {l : List Byte} (h : l.Nodup) :
    l.length + ((List.range 256).filter fun n => BitVec.ofNat 8 n ∉ l).length = 256 := by
  have hsplit := List.length_eq_length_filter_add (l := List.range 256) fun n => decide (BitVec.ofNat 8 n ∈ l)
  rw [(filter_range_mem_perm h).length_eq, List.length_map, List.length_range] at hsplit
  simpa using hsplit.symm

/-! ## The frame of each end of a stage (30_encoding.md R64) -/

theorem Frame.refl (dests : List Buf) (s : State) : Frame dests s s :=
  ⟨rfl, rfl, rfl, rfl, rfl, rfl, fun _ _ => rfl, fun _ _ => rfl, fun _ _ => Iff.rfl⟩

/-- A frame does not speak of SR (10_state.md R31). -/
theorem Frame.withSr {dests : List Buf} {s t : State} (h : Frame dests s t) (n : Nat) :
    Frame dests s { t with sr := n } where
  pwr := h.pwr
  flags := h.flags
  cfg := h.cfg
  draw := h.draw
  pending := h.pending
  readData := h.readData
  len := h.len
  cell := h.cell
  host := h.host

theorem commit_frame (b : Buf) (vs : List Nat) (s : State) : Frame [b] s (commit b vs s) where
  pwr := commit_pwr b vs s
  flags := commit_flags b vs s
  cfg := commit_cfg b vs s
  draw := commit_draw b vs s
  pending := commit_pending b vs s
  readData := commit_readData b vs s
  len c hc := by rw [commit_len, if_neg (List.ne_of_not_mem_cons hc)]
  cell a ha := by rw [cell_commit, ha b (List.mem_singleton_self b)]; rfl
  host a ha := by rw [commit_hostCells, mem_unmark]; simp [ha b (List.mem_singleton_self b)]

theorem append_cell_of_not_holds {b : Buf} {a : Nat} (vs : List Nat) (s : State) (h : b.holds a = false) :
    (append b vs s).cell a = s.cell a := by
  by_cases hne : vs = []
  · simp [hne, append]
  · have hlen := len_lt s b
    rw [Bool.eq_false_iff, Ne, holds_iff] at h
    rw [cell_append b vs s a hne (by omega), if_neg (by unfold Buf.addr; omega)]

theorem append_frame (b : Buf) (vs : List Nat) (s : State) : Frame [b] s (append b vs s) where
  pwr := append_pwr b vs s
  flags := append_flags b vs s
  cfg := append_cfg b vs s
  draw := append_draw b vs s
  pending := append_pending b vs s
  readData := append_readData b vs s
  len c hc := by rw [append_len, if_neg (List.ne_of_not_mem_cons hc)]
  cell a ha := append_cell_of_not_holds vs s (ha b (List.mem_singleton_self b))
  host a ha := by
    rw [append_hostCells]
    split_ifs
    · rfl
    · rw [mem_unmark]; simp [ha b (List.mem_singleton_self b)]

/-- From `s` to `t` command `i` has written only its destination, and SR if it is a CONV command. -/
structure WritesOnlyDest (i : Instr) (s t : State) : Prop where
  frame : Frame (destOf i).toList s t
  errcode : t.errcode = s.errcode
  erridx : t.erridx = s.erridx
  sr : i.op ≠ .conv → t.sr = s.sr

theorem WritesOnlyDest.refl (i : Instr) (s : State) : WritesOnlyDest i s s :=
  ⟨Frame.refl _ s, rfl, rfl, fun _ => rfl⟩

/-- A stage that leaves ERR 0 did not end in the error entry, which sets it. -/
theorem StageEnds.writesOnlyDest {i : Instr} {s t : State} (h : StageEnds i s t) (h0 : t.status = 0#1) :
    WritesOnlyDest i s t := by
  cases h with
  | error d e _ ht => rw [ht, enterError_status] at h0; exact absurd h0 (by decide)
  | commit d vs hd _ ht =>
    subst ht
    exact ⟨hd ▸ commit_frame d vs s, commit_errcode d vs s, commit_erridx d vs s, fun _ => commit_sr d vs s⟩
  | conv c pkd hi _ ht =>
    subst ht
    have hframe := (commit_frame .fec (convEnc c pkd).1 s).withSr (convEnc c pkd).2
    have herrcode := commit_errcode .fec (convEnc c pkd).1 s
    have herridx := commit_erridx .fec (convEnc c pkd).1 s
    exact ⟨destOf_conv hi ▸ hframe, herrcode, herridx, fun hne => absurd hi hne⟩
  | append vs hi _ ht =>
    subst hi ht
    exact ⟨append_frame .out vs s, append_errcode .out vs s, append_erridx .out vs s, fun _ => append_sr .out vs s⟩

theorem exec_writesOnlyDest {i : Instr} {s t : State} (hclr : i ≠ .clr) (h : exec i s = .next t)
    (h0 : t.status = 0#1) : WritesOnlyDest i s t ∧ s.status = 0#1 := by
  obtain ⟨-, rfl⟩ | ⟨hi, -⟩ | ⟨-, h1, rfl⟩ | ⟨-, -, hs, hends⟩ := exec_cases i s t h
  · exact ⟨.refl i t, h0⟩
  · exact absurd hi hclr
  · exact absurd (h0.symm.trans h1) (by decide)
  · exact ⟨hends.writesOnlyDest h0, hs⟩

/-! ## The obligations -/

/-- Settles O4: one direction of the inversion of `decode`. -/
theorem decodedBytesAreTheEncoding : Obligations.DecodedBytesAreTheEncoding := fun _ _ _ => decode_eq_ok_iff.1

/-- Settles O48, by the inversion of `exec`: a command that leaves ERR 0 is NOP or a stage that stored its result. -/
theorem commandsWriteOnlyTheirDestination : Obligations.CommandsWriteOnlyTheirDestination := by
  intro i s t hclr h h0
  obtain ⟨hw, hs⟩ := exec_writesOnlyDest hclr h h0
  exact ⟨hw.frame, hw.errcode, hw.erridx, hs, hw.sr⟩

/-- Settles O1: each byte of the map is its command's encoding. -/
theorem opcodeMapDecodes : Obligations.OpcodeMapDecodes := fun e he =>
  decode_eq_ok_iff.2 (by rw [fst_eq_encodeByte_of_mem_opcodeMap e he]; rfl)

/-- Settles O2: a byte that decodes is a command's encoding, so it stands in the map; the map's 23 bytes are distinct. -/
theorem otherBytesAreReserved : Obligations.OtherBytesAreReserved := by
  refine ⟨fun b hb => ?_, ?_⟩
  · cases hdec : decode [b] with
    | error e => exact ⟨e, rfl⟩
    | ok r =>
      obtain ⟨i, rest⟩ := r
      obtain ⟨rfl, -⟩ := List.cons.inj (decode_eq_ok_iff.1 hdec)
      exact absurd (encodeByte_mem_opcodeMap i) hb
  · have hcount := length_add_length_filter_notMem opcodeMap_bytes_nodup
    have hlen : (opcodeMap.map Prod.fst).length = 23 := rfl
    omega

/-- Settles O3: the other direction of the inversion of `decode`; every command is well formed. -/
theorem decodeOfEncode : Obligations.DecodeOfEncode := fun _ _ _ => decode_eq_ok_iff.2 rfl

end Sys2Proof.Machine
end

section
/-! PROOFS. The family 40_codec.md: what the three CODE computations complete with and raise (R89 to R93, 60_exceptions.md
R186), that the units of an FSQ message determine it (R85), and the laws of the Gray function (R86). The layer below says
once what each character gives, when a table's results over a message are a list of codes, and how a command that ends in
`finish` completes or raises. -/

namespace Sys2Proof.Machine

/-! ## A partial function over a list -/

/-- A list of results is the image of a partial function exactly when it is so at every index. -/
theorem map_eq_map_some_iff {α β : Type} {f : α → Option β} {l : List α} {ys : List β} :
    l.map f = ys.map some ↔ ys.length = l.length ∧ ∀ (k : Nat) x, l[k]? = some x → ys[k]? = f x := by
  constructor
  · intro h
    have hlen : ys.length = l.length := by simpa using (congrArg List.length h).symm
    refine ⟨hlen, fun k x hx => ?_⟩
    have hk : k < ys.length := hlen ▸ (List.getElem?_eq_some_iff.1 hx).1
    have hget := congrArg (·[k]?) h
    simpa [hx, hk, eq_comm] using hget
  · rintro ⟨hlen, h⟩
    refine List.ext_getElem (by simp [hlen]) fun k hk _ => ?_
    have hkl : k < l.length := by simpa using hk
    have hky : k < ys.length := hlen ▸ hkl
    have hx := h k l[k] (List.getElem?_eq_getElem hkl)
    rw [List.getElem_map, List.getElem_map, ← hx, List.getElem?_eq_getElem hky]

/-- A partial function that is defined on every entry has a list of results. -/
theorem exists_map_eq_map_some {α β : Type} {f : α → Option β} {l : List α} (h : ∀ x ∈ l, (f x).isSome = true) :
    ∃ ys : List β, l.map f = ys.map some := by
  refine ⟨l.filterMap f, ?_⟩
  rw [List.map_filterMap_some_eq_filter_map_isSome, List.filter_eq_self.2 (by simpa using h)]

theorem exists_of_mem_of_map_eq {α β : Type} {f : α → Option β} {l : List α} {ys : List β} (h : l.map f = ys.map some)
    {y : β} (hy : y ∈ ys) : ∃ x ∈ l, f x = some y :=
  List.mem_map.1 (h ▸ List.mem_map_of_mem hy)

/-- A partial function that is injective where it is defined has one list of results from one list only. -/
theorem eq_of_map_eq_map_some {α β : Type} {f : α → Option β} (hf : ∀ a b y, f a = some y → f b = some y → a = b)
    {l l' : List α} {ys : List β} (h : l.map f = ys.map some) (h' : l'.map f = ys.map some) : l = l' := by
  induction ys generalizing l l' with
  | nil => rw [List.map_eq_nil_iff.1 h, List.map_eq_nil_iff.1 h']
  | cons y ys ih =>
    obtain ⟨a, l, rfl, ha, hl⟩ := List.map_eq_cons_iff.1 h
    obtain ⟨b, l', rfl, hb, hl'⟩ := List.map_eq_cons_iff.1 h'
    rw [hf a b y ha hb, ih hl hl']

/-- A scan in which no element raises has results. -/
theorem exists_scan_eq_ok {α β : Type} {f : Nat → α → Except Raise β} {n : Nat} {l : List α}
    (h : ∀ (k : Nat) x, l[k]? = some x → ∃ y, f (n + k) x = .ok y) : ∃ ys, scan f n l = .ok ys := by
  induction l generalizing n with
  | nil => exact ⟨[], rfl⟩
  | cons a l ih =>
    obtain ⟨y, hy⟩ := h 0 a rfl
    obtain ⟨ys, hys⟩ := ih (n := n + 1) fun k x hx => by
      rw [Nat.add_right_comm, Nat.add_assoc]
      exact h (k + 1) x hx
    rw [Nat.add_zero] at hy
    exact ⟨y :: ys, by rw [scan, hy, hys]⟩

theorem exists_of_mem_of_scan {α β : Type} {f : Nat → α → Except Raise β} {n : Nat} {l : List α} {ys : List β}
    (h : scan f n l = .ok ys) {y : β} (hy : y ∈ ys) : ∃ (k : Nat) (x : α), l[k]? = some x ∧ f (n + k) x = .ok y := by
  obtain ⟨hlen, hget⟩ := (scan_ok_iff f n l ys).1 h
  obtain ⟨k, hk, rfl⟩ := List.mem_iff_getElem.1 hy
  obtain ⟨y, hy, hf⟩ := hget k _ (List.getElem?_eq_getElem (hlen ▸ hk))
  rw [List.getElem?_eq_getElem hk, Option.some.injEq] at hy
  exact ⟨k, _, List.getElem?_eq_getElem (hlen ▸ hk), hy ▸ hf⟩

/-- Where a table decides each character alone, the lowest one that it does not hold decides the scan
(60_exceptions.md R186). -/
theorem scan_eq_unsupported {β : Type} (code : Byte → Option β) (f : Nat → Byte → Except Raise β)
    (hsome : ∀ i ch y, code ch = some y → f i ch = .ok y)
    (hnone : ∀ i ch, code ch = none → f i ch = .error ⟨.unsupportedCharacter, i⟩) {l : List Byte} {k : Nat} {ch : Byte}
    (hk : l[k]? = some ch) (hch : code ch = none)
    (hlow : ∀ (j : Nat) c, j < k → l[j]? = some c → (code c).isSome = true) :
    scan f 0 l = .error ⟨.unsupportedCharacter, k⟩ := by
  refine scan_error_of_first f 0 l k ch _ hk (by rw [Nat.zero_add, hnone k ch hch]) fun j c hj hc => ?_
  obtain ⟨y, hy⟩ := Option.isSome_iff_exists.1 (hlow j c hj hc)
  exact ⟨y, hsome _ c y hy⟩

/-! ## What each character gives -/

theorem jtChar_of_some {cfg : Cfg} {ch : Byte} {c : Nat} (i : Nat) (h : jtCode cfg ch = some c) :
    jtChar cfg i ch = .ok c := by rw [jtChar, h]

theorem jtChar_of_none {cfg : Cfg} {ch : Byte} (i : Nat) (h : jtCode cfg ch = none) :
    jtChar cfg i ch = .error ⟨.unsupportedCharacter, i⟩ := by rw [jtChar, h]

theorem wsprChar_eq_ok_iff {cfg : Cfg} {i : Nat} {ch : Byte} {c : Nat} :
    wsprChar cfg i ch = .ok c ↔ alphaWspr ch = true ∧ wsprCode cfg i ch = some c := by
  unfold wsprChar
  split_ifs with ha
  · simp [ha]
  · cases wsprCode cfg i ch <;> simp [ha]

theorem exists_wsprChar_eq_ok {cfg : Cfg} {i : Nat} {ch : Byte}
    (h : alphaWspr ch = true ∧ (wsprCode cfg i ch).isSome = true) : ∃ c, wsprChar cfg i ch = .ok c := by
  obtain ⟨ha, hsome⟩ := h
  obtain ⟨c, hc⟩ := Option.isSome_iff_exists.1 hsome
  exact ⟨c, wsprChar_eq_ok_iff.2 ⟨ha, hc⟩⟩

theorem wsprChar_of_not_alpha {ch : Byte} (cfg : Cfg) (i : Nat) (ha : alphaWspr ch = false) :
    wsprChar cfg i ch = .error ⟨.unsupportedCharacter, i⟩ := by
  rw [wsprChar, if_pos ha]

theorem wsprChar_of_none {cfg : Cfg} {i : Nat} {ch : Byte} (ha : alphaWspr ch = true)
    (h : wsprCode cfg i ch = none) : wsprChar cfg i ch = .error ⟨.invalidField, i⟩ := by
  rw [wsprChar, if_neg (by simp [ha]), h]

theorem fsqChar_of_some {cfg : Cfg} {ch : Byte} {u : List Nat} (i : Nat) (h : fsqCode cfg ch = some u) :
    fsqChar cfg i ch = .ok u := by rw [fsqChar, h]

theorem fsqChar_of_none {cfg : Cfg} {ch : Byte} (i : Nat) (h : fsqCode cfg ch = none) :
    fsqChar cfg i ch = .error ⟨.unsupportedCharacter, i⟩ := by rw [fsqChar, h]

/-! ## What each CODE computation gives -/

theorem codeJt_of_long {cap : Nat} {chr : List Byte} (cfg : Cfg) (h : cap < chr.length) :
    codeJt cfg cap chr = .error ⟨.messageTooLong, cap⟩ := by
  rw [codeJt, if_pos h]

theorem codeJt_of_scan_error {cfg : Cfg} {cap : Nat} {chr : List Byte} {e : Raise} (hlen : chr.length ≤ cap)
    (h : scan (jtChar cfg) 0 chr = .error e) : codeJt cfg cap chr = .error e := by
  rw [codeJt, if_neg (by omega), h]

theorem codeWspr_of_long {cfg : Cfg} {chr : List Byte} (h : cfg.msgLenWspr < chr.length) :
    codeWspr cfg chr = .error ⟨.messageTooLong, cfg.msgLenWspr⟩ := by
  rw [codeWspr, if_pos h]

theorem codeWspr_of_short {cfg : Cfg} {chr : List Byte} (h : chr.length < cfg.msgLenWspr) :
    codeWspr cfg chr = .error ⟨.invalidField, chr.length⟩ := by
  rw [codeWspr, if_neg (by omega), if_pos h]

theorem codeWspr_of_length {cfg : Cfg} {chr : List Byte} (h : chr.length = cfg.msgLenWspr) :
    codeWspr cfg chr = scan (wsprChar cfg) 0 chr := by
  rw [codeWspr, if_neg (by omega), if_neg (by omega)]

theorem codeFsq_of_scan_error {cfg : Cfg} {chr : List Byte} {e : Raise} (h : scan (fsqChar cfg) 0 chr = .error e) :
    codeFsq cfg chr = .error e := by
  rw [codeFsq, h]

theorem codeFsq_eq_ok {cfg : Cfg} {chr : List Byte} {units : List (List Nat)}
    (h : chr.map (fsqCode cfg) = units.map some) (hfit : units.flatten.length ≤ 255) :
    codeFsq cfg chr = .ok units.flatten := by
  rw [codeFsq, scan_fsqChar cfg chr units h]
  exact if_neg (Nat.not_lt.2 hfit)

theorem codeFsq_of_long {cfg : Cfg} {chr : List Byte} {units : List (List Nat)}
    (h : chr.map (fsqCode cfg) = units.map some) (hlong : 255 < units.flatten.length) :
    codeFsq cfg chr = .error ⟨.messageTooLong, 255⟩ := by
  rw [codeFsq, scan_fsqChar cfg chr units h]
  exact if_pos hlong

/-! ## What CfgOK gives the codec (40_codec.md R81, R83, R85) -/

/-- The JT CODE commands with their message lengths. -/
def jtStages (cfg : Cfg) : List (Instr × Nat) :=
  [(.codeJt65, cfg.msgLenJt65), (.codeJt9, cfg.msgLenJt9), (.codeJt4, cfg.msgLenJt4)]

theorem mem_jtStages {cfg : Cfg} {i : Instr} {n : Nat} : (i, n) ∈ jtStages cfg ↔
    (i = .codeJt65 ∧ n = cfg.msgLenJt65) ∨ (i = .codeJt9 ∧ n = cfg.msgLenJt9) ∨ (i = .codeJt4 ∧ n = cfg.msgLenJt4) := by
  simp [jtStages]

theorem CfgOK.jtStage_le {cfg : Cfg} (h : CfgOK cfg) {i : Instr} {n : Nat} (hi : (i, n) ∈ jtStages cfg) : n ≤ 255 := by
  obtain ⟨-, rfl⟩ | ⟨-, rfl⟩ | ⟨-, rfl⟩ := mem_jtStages.1 hi
  · exact h.packJt65.message
  · exact h.packJt9.message
  · exact h.packJt4.message

theorem JtRomOK.code_lt {cfg : Cfg} (h : JtRomOK cfg) {ch : Byte} {c : Nat} (hc : jtCode cfg ch = some c) : c < 256 :=
  lt_of_lt_of_le ((h.image c).1 ⟨ch, hc⟩) h.size

/-- R81 item 1: the code that completes a message is that of space, never the 0 of `spaceCode`. -/
theorem JtRomOK.jtCode_space {cfg : Cfg} (h : JtRomOK cfg) : jtCode cfg 0x20#8 = some (spaceCode cfg) := by
  obtain ⟨c, hc⟩ := Option.isSome_iff_exists.1 (h.defined 0x20#8 (by decide))
  rw [spaceCode, hc, Option.getD_some]

theorem CfgOK.fsqUnit_lt {cfg : Cfg} (h : CfgOK cfg) {ch : Byte} {u : List Nat} (hu : fsqCode cfg ch = some u) {x : Nat}
    (hx : x ∈ u) : x < 256 := by
  have hwidth := h.romFsq.width ch u hu x hx
  rw [h.fixed.unitW] at hwidth
  omega

/-! ## How a command that ends in `finish` completes or raises -/

section Finish

variable {i : Instr} {d : Buf} {r : Except Raise (List Nat)} {s : State}

theorem completes_of_exec_eq_finish {vs : List Nat} (hexec : exec i s = .next (finish d r s)) (hr : r = .ok vs)
    (hlen : vs.length ≤ 255) (hvals : ∀ v ∈ vs, v < 256) :
    ∃ t, exec i s = .next t ∧ Completed d vs s t ∧ t.sr = s.sr :=
  ⟨_, hexec, finish_completed d vs s r hr hlen hvals⟩

theorem raises_of_exec_eq_finish {kind : ErrKind} {idx : Nat} (hexec : exec i s = .next (finish d r s))
    (hr : r = .error ⟨kind, idx⟩) : ∃ t, exec i s = .next t ∧ Raised (some d) kind idx s t :=
  ⟨_, hexec, finish_raised d _ s r hr⟩

end Finish

theorem contents_chr_length (s : State) : (contents .chr s).length = s.chrLen.toNat := contents_length .chr s

theorem exec_jtStage {s : State} {i : Instr} {n : Nat} (hi : (i, n) ∈ jtStages s.cfg) (h0 : s.status = 0#1) :
    exec i s = .next (finish .cod (codeJt s.cfg n (contents .chr s)) s) := by
  obtain ⟨rfl, rfl⟩ | ⟨rfl, rfl⟩ | ⟨rfl, rfl⟩ := mem_jtStages.1 hi
  all_goals exact gated_clear _ s h0

theorem exec_codeWspr {s : State} (h0 : s.status = 0#1) :
    exec .codeWspr s = .next (finish .cod (codeWspr s.cfg (contents .chr s)) s) := gated_clear _ s h0

theorem exec_codeFsq {s : State} (h0 : s.status = 0#1) :
    exec .codeFsq s = .next (finish .cod (codeFsq s.cfg (contents .chr s)) s) := gated_clear _ s h0

/-! ## The units of an FSQ message (40_codec.md R85 item 3) -/

/-- A codeword over the continuation codes `cont`: one unit outside them, then units in them. -/
def IsCodeword (cont u : List Nat) : Prop := ∃ x ys, u = x :: ys ∧ x ∉ cont ∧ ∀ y ∈ ys, y ∈ cont

theorem FsqRomOK.exists_cont {cfg : Cfg} (h : FsqRomOK cfg) :
    ∃ cont, ∀ ch u, fsqCode cfg ch = some u → IsCodeword cont u := by
  obtain ⟨cont, hcont⟩ := h.cont
  refine ⟨cont, fun ch u hu => ?_⟩
  obtain ⟨e, he, rfl⟩ := Option.map_eq_some_iff.1 hu
  obtain ⟨hfirst, hsecond⟩ := hcont ch e he
  unfold varicodeUnits
  cases hs : e.second with
  | none => exact ⟨e.first, [], rfl, hfirst, by simp⟩
  | some u2 => exact ⟨e.first, [u2], rfl, hfirst, by simpa using hsecond u2 hs⟩

/-- No continuation code begins a sequence of codewords. -/
theorem takeWhile_flatten_codewords {cont : List Nat} {us : List (List Nat)} (h : ∀ u ∈ us, IsCodeword cont u) :
    us.flatten.takeWhile (· ∈ cont) = [] := by
  cases us with
  | nil => rfl
  | cons u us =>
    obtain ⟨x, ys, rfl, hx, -⟩ := h u List.mem_cons_self
    simp [hx]

/-- So after its first unit a codeword ends where the next unit outside `cont` stands. -/
theorem takeWhile_codeword_tail {cont ys : List Nat} {us : List (List Nat)} (hys : ∀ y ∈ ys, y ∈ cont)
    (h : ∀ u ∈ us, IsCodeword cont u) : (ys ++ us.flatten).takeWhile (· ∈ cont) = ys := by
  rw [List.takeWhile_append_of_pos (by simpa using hys), takeWhile_flatten_codewords h, List.append_nil]

/-- UNIQUE DECODABILITY: a sequence of units is the concatenation of codewords in one way at most. -/
theorem eq_of_flatten_codewords_eq {cont : List Nat} {us us' : List (List Nat)} (h : ∀ u ∈ us, IsCodeword cont u)
    (h' : ∀ u ∈ us', IsCodeword cont u) (heq : us.flatten = us'.flatten) : us = us' := by
  induction us generalizing us' with
  | nil =>
    cases us' with
    | nil => rfl
    | cons u' us' =>
      obtain ⟨x, ys, rfl, -⟩ := h' u' List.mem_cons_self
      simp at heq
  | cons u us ih =>
    obtain ⟨x, ys, rfl, -, hys⟩ := h u List.mem_cons_self
    have hus : ∀ v ∈ us, IsCodeword cont v := fun v hv => h v (List.mem_cons_of_mem _ hv)
    cases us' with
    | nil => simp at heq
    | cons u' us' =>
      obtain ⟨x', ys', rfl, -, hys'⟩ := h' u' List.mem_cons_self
      have hus' : ∀ v ∈ us', IsCodeword cont v := fun v hv => h' v (List.mem_cons_of_mem _ hv)
      simp only [List.flatten_cons, List.cons_append, List.cons.injEq] at heq
      obtain ⟨rfl, htail⟩ := heq
      have hyeq : ys = ys' := by
        rw [← takeWhile_codeword_tail hys hus, htail, takeWhile_codeword_tail hys' hus']
      subst hyeq
      rw [ih hus hus' (List.append_cancel_left htail)]

/-! ## The Gray function (40_codec.md R86) -/

/-- GRAY is linear over the bits. -/
theorem gray_xor (m n : Nat) : gray (m ^^^ n) = gray m ^^^ gray n := by
  unfold gray
  rw [Nat.shiftRight_xor_distrib]
  ac_rfl

theorem eq_zero_of_gray_eq_zero {n : Nat} (h : gray n = 0) : n = 0 := by
  have hhalf : n = n / 2 := by simpa [gray, Nat.shiftRight_eq_div_pow] using h
  omega

theorem gray_injective {m n : Nat} (h : gray m = gray n) : m = n := by
  have hzero : gray (m ^^^ n) = 0 := by rw [gray_xor, h, Nat.xor_self]
  exact Nat.xor_eq_zero_iff.1 (eq_zero_of_gray_eq_zero hzero)

theorem gray_lt_two_pow {w n : Nat} (h : n < 2 ^ w) : gray n < 2 ^ w :=
  Nat.xor_lt_two_pow h (lt_of_le_of_lt (Nat.shiftRight_le n 1) h)

theorem testBit_gray (n i : Nat) : (gray n).testBit i = (n.testBit i ^^ n.testBit (i + 1)) := by
  rw [gray, Nat.testBit_xor, Nat.testBit_shiftRight, Nat.add_comm 1 i]

/-- Adding 1 flips the trailing ones and the 0 above them. -/
theorem exists_xor_succ_eq (n : Nat) : ∃ k, n ^^^ (n + 1) = 2 ^ (k + 1) - 1 := by
  induction n using Nat.strongRecOn with
  | ind n ih =>
    obtain ⟨m, rfl | rfl⟩ := Nat.even_or_odd' n
    · have hbit : (2 * m) ^^^ (2 * m + 1) = 1 := by simpa [Nat.bit_val] using Nat.xor_bit false m true m
      exact ⟨0, hbit⟩
    · obtain ⟨k, hk⟩ := ih m (by omega)
      have hbit : (2 * m + 1) ^^^ (2 * m + 1 + 1) = 2 * (m ^^^ (m + 1)) + 1 := by
        simpa [Nat.bit_val, Nat.mul_add] using Nat.xor_bit true m false (m + 1)
      have hpos : 1 ≤ 2 ^ (k + 1) := Nat.one_le_two_pow
      exact ⟨k + 1, by rw [hbit, hk, pow_succ 2 (k + 1)]; omega⟩

theorem gray_two_pow_sub_one (k : Nat) : gray (2 ^ (k + 1) - 1) = 2 ^ k := by
  refine Nat.eq_of_testBit_eq fun i => ?_
  rw [testBit_gray, Nat.testBit_two_pow_sub_one, Nat.testBit_two_pow_sub_one, Nat.testBit_two_pow]
  rcases Nat.lt_trichotomy i k with h | rfl | h
  · simp [h.ne', show i < k + 1 by omega, h]
  · simp
  · simp [h.ne, show ¬ i < k + 1 by omega, h.le]

theorem exists_gray_xor_gray_succ (n : Nat) : ∃ k, gray n ^^^ gray (n + 1) = 2 ^ k := by
  obtain ⟨k, hk⟩ := exists_xor_succ_eq n
  exact ⟨k, by rw [← gray_xor, hk, gray_two_pow_sub_one]⟩

/-! ## The obligations -/

/-- Settles O17: the result is the codes of the characters and then those of space, all values of ROM_JT. -/
theorem codeJtCompletes : Obligations.CodeJtCompletes := by
  intro s i n hcfg h0 hi hfits hsup
  have hchr := contents_chr_length s
  have hn := hcfg.jtStage_le hi
  have hspace := hcfg.romJt.jtCode_space
  obtain ⟨codes, hcodes⟩ := exists_map_eq_map_some hsup
  obtain ⟨hlen, hget⟩ := map_eq_map_some_iff.1 hcodes
  have hdone := codeJt_eq_ok s.cfg n _ codes (by omega) hcodes
  have hfull : (codes ++ List.replicate (n - (contents .chr s).length) (spaceCode s.cfg)).length = n := by
    rw [List.length_append, List.length_replicate]; omega
  have hvals : ∀ v ∈ codes ++ List.replicate (n - (contents .chr s).length) (spaceCode s.cfg), v < 256 := by
    intro v hv
    rcases List.mem_append.1 hv with hv | hv
    · obtain ⟨ch, -, hch⟩ := exists_of_mem_of_map_eq hcodes hv
      exact hcfg.romJt.code_lt hch
    · exact List.eq_of_mem_replicate hv ▸ hcfg.romJt.code_lt hspace
  obtain ⟨t, hexec, hcompleted, hsr⟩ := completes_of_exec_eq_finish (exec_jtStage hi h0) hdone (hfull.le.trans hn) hvals
  refine ⟨t, _, hexec, hcompleted, hsr, hfull, fun k ch hk => ?_, fun k hlow hk => ?_⟩
  · have hklt := (List.getElem?_eq_some_iff.1 hk).1
    rw [List.getElem?_append_left (by omega), hget k ch hk]
  · rw [List.getElem?_append_right (by omega), List.getElem?_replicate, if_pos (by omega), hspace]

/-- Settles O18: with the length right the command is the scan of the positions, none of which raises. -/
theorem codeWsprCompletes : Obligations.CodeWsprCompletes := by
  intro s hcfg h0 hlen hlegal
  have hchr : (contents .chr s).length = s.cfg.msgLenWspr := (contents_chr_length s).trans hlen
  obtain ⟨codes, hscan⟩ : ∃ codes, scan (wsprChar s.cfg) 0 (contents .chr s) = .ok codes :=
    exists_scan_eq_ok fun k ch hk => exists_wsprChar_eq_ok ((Nat.zero_add k).symm ▸ hlegal k ch hk)
  obtain ⟨hcodes, hget⟩ := (scan_ok_iff _ _ _ _).1 hscan
  have hvals : ∀ v ∈ codes, v < 256 := by
    intro v hv
    obtain ⟨k, ch, -, hch⟩ := exists_of_mem_of_scan hscan hv
    exact hcfg.romWspr.small _ _ _ (wsprChar_eq_ok_iff.1 hch).2
  obtain ⟨t, hexec, hdone, hsr⟩ := completes_of_exec_eq_finish (exec_codeWspr h0)
    ((codeWspr_of_length hchr).trans hscan) (hcodes.trans hchr ▸ hcfg.packWspr.message) hvals
  refine ⟨t, codes, hexec, hdone, hsr, hcodes.trans hchr, fun k ch hk => ?_⟩
  obtain ⟨c, hc, hch⟩ := hget k ch hk
  rw [Nat.zero_add] at hch
  rw [hc, (wsprChar_eq_ok_iff.1 hch).2]

/-- The units that O19 and O22 speak of are those of ROM_FSQ, character by character. -/
theorem map_fsqCode_eq_of_units {s : State} {units : List (List Nat)} (hlen : units.length = s.chrLen.toNat)
    (hunits : ∀ (k : Nat) ch, (contents .chr s)[k]? = some ch →
      units[k]? = fsqCode s.cfg ch ∧ (fsqCode s.cfg ch).isSome = true) :
    (contents .chr s).map (fsqCode s.cfg) = units.map some :=
  map_eq_map_some_iff.2 ⟨hlen.trans (contents_chr_length s).symm, fun k ch hk => (hunits k ch hk).1⟩

/-- Settles O19: the scan answers the units, and each is a unit of FSQ_UNIT_W bits. -/
theorem codeFsqCompletes : Obligations.CodeFsqCompletes := by
  intro s units hcfg h0 hlen hunits hfit
  have hmap := map_fsqCode_eq_of_units hlen hunits
  refine completes_of_exec_eq_finish (exec_codeFsq h0) (codeFsq_eq_ok hmap hfit) hfit fun v hv => ?_
  obtain ⟨u, hu, hvu⟩ := List.mem_flatten.1 hv
  obtain ⟨ch, -, hch⟩ := exists_of_mem_of_map_eq hmap hu
  exact hcfg.fsqUnit_lt hch hvu

/-- Settles O20: the length is tested before the scan, whose error is that of its lowest failing character. -/
theorem codeJtRaises : Obligations.CodeJtRaises := by
  intro s i n h0 hi
  have hchr := contents_chr_length s
  refine ⟨fun hlong => ?_, fun k ch hfits hk hnone hlow => ?_⟩
  · exact raises_of_exec_eq_finish (exec_jtStage hi h0) (codeJt_of_long s.cfg (by omega))
  · have hscan := scan_eq_unsupported (jtCode s.cfg) (jtChar s.cfg) (fun i _ _ => jtChar_of_some i)
      (fun i _ => jtChar_of_none i) hk hnone hlow
    exact raises_of_exec_eq_finish (exec_jtStage hi h0) (codeJt_of_scan_error (by omega) hscan)

/-- Settles O21: the two lengths are tested before the scan, whose error is that of its lowest failing character; there
the alphabet is tested before the position. -/
theorem codeWsprRaises : Obligations.CodeWsprRaises := by
  intro s n h0 hn
  have hchr := contents_chr_length s
  have hmsg : n = s.cfg.msgLenWspr := hn
  have hexec := exec_codeWspr h0
  subst hmsg
  refine ⟨fun hlong => ?_, fun hshort => ?_, fun k ch hlen hk hlow => ?_⟩
  · exact raises_of_exec_eq_finish hexec (codeWspr_of_long (by omega))
  · exact raises_of_exec_eq_finish hexec (by rw [codeWspr_of_short (by omega), hchr])
  · have hraise : ∀ kind, wsprChar s.cfg k ch = .error ⟨kind, k⟩ →
        ∃ t, exec .codeWspr s = .next t ∧ Raised (some .cod) kind k s t := fun kind hkind => by
      refine raises_of_exec_eq_finish hexec ((codeWspr_of_length (by omega)).trans ?_)
      exact scan_error_of_first _ 0 _ k ch _ hk (by rwa [Nat.zero_add]) fun j c hj hc =>
        exists_wsprChar_eq_ok ((Nat.zero_add j).symm ▸ hlow j c hj hc)
    exact ⟨fun ha => hraise _ (wsprChar_of_not_alpha s.cfg k ha),
      fun ha hnone => hraise _ (wsprChar_of_none ha hnone)⟩

/-- Settles O22: the characters are scanned before the units are counted. -/
theorem codeFsqRaises : Obligations.CodeFsqRaises := by
  intro s h0
  have hexec := exec_codeFsq h0
  refine ⟨fun k ch hk hnone hlow => ?_, fun units hlen hunits hlong => ?_⟩
  · have hscan := scan_eq_unsupported (fsqCode s.cfg) (fsqChar s.cfg) (fun i _ _ => fsqChar_of_some i)
      (fun i _ => fsqChar_of_none i) hk hnone hlow
    exact raises_of_exec_eq_finish hexec (codeFsq_of_scan_error hscan)
  · exact raises_of_exec_eq_finish hexec (codeFsq_of_long (map_fsqCode_eq_of_units hlen hunits) hlong)

/-- Settles O23: the units determine the varicodes by unique decodability, and each varicode its character. -/
theorem fsqUnitsDetermineTheMessage : Obligations.FsqUnitsDetermineTheMessage := by
  intro cfg m m' us us' hcfg hm hm' heq
  obtain ⟨cont, hcont⟩ := hcfg.romFsq.exists_cont
  have hword : ∀ {l : List Byte} {vs : List (List Nat)}, l.map (fsqCode cfg) = vs.map some →
      ∀ v ∈ vs, IsCodeword cont v := fun hl v hv => by
    obtain ⟨ch, -, hch⟩ := exists_of_mem_of_map_eq hl hv
    exact hcont ch v hch
  have hus : us = us' := eq_of_flatten_codewords_eq (hword hm) (hword hm') heq
  exact eq_of_map_eq_map_some hcfg.romFsq.injective hm (hus ▸ hm')

/-- Settles O38, by the linearity of GRAY over the bits. -/
theorem grayLaws : Obligations.GrayLaws :=
  ⟨rfl, fun _ _ => gray_lt_two_pow, fun _ _ => gray_injective, exists_gray_xor_gray_succ⟩

end Sys2Proof.Machine
end

section
/-! PROOFS. The family 41_packer.md: what a PACK command completes with and raises (R102 to R108), that it loses nothing
(R100, R101 item 4), and how it depends on PWR and T2 (R101 items 2 and 3, R109). The layer below says once what each field
gives and what `packCodes` gives for each length, ties the PackedField to the field offsets, and shows the two halves of the
packer, concatenation and emission, injective; the four commands are then one case, a stage of `packStages`. -/

namespace Sys2Proof.Machine

open Sys2Proof.Claims

/-! ## What each field gives (41_packer.md R104) -/

section Fields

variable {c c' : List Nat} {p p' f : Nat} {fld : Field}

theorem fieldCheck_of_fits {v : Nat} (hv : fieldValue c p fld.value = some v) (hfit : v < 2 ^ fld.width) :
    fieldCheck c p f fld = .ok (fld.width, v) := by
  rw [fieldCheck, hv]
  exact if_neg (Nat.not_le.2 hfit)

/-- A field raises when its value is none or is too wide. -/
theorem fieldCheck_of_not_fits (h : ∀ v, fieldValue c p fld.value = some v → 2 ^ fld.width ≤ v) :
    fieldCheck c p f fld = .error ⟨.invalidField, f⟩ := by
  rw [fieldCheck]
  cases hv : fieldValue c p fld.value with
  | none => rfl
  | some v => exact if_pos (h v hv)

theorem eq_of_fieldCheck_eq_ok {y : Nat × Nat} (h : fieldCheck c p f fld = .ok y) :
    y.1 = fld.width ∧ y.2 < 2 ^ y.1 := by
  obtain ⟨hv, hfit⟩ := fieldCheck_ok c p f fld y h
  rw [fieldCheck_of_fits hv hfit, Except.ok.injEq] at h
  have hw : y.1 = fld.width := (congrArg Prod.fst h).symm
  exact ⟨hw, hw ▸ hfit⟩

theorem fieldCheck_congr (h : fieldValue c p fld.value = fieldValue c' p' fld.value) :
    fieldCheck c p f fld = fieldCheck c' p' f fld := by
  rw [fieldCheck, fieldCheck, h]

/-- The widths of the scanned fields are those of the layout. -/
theorem map_fst_of_scan_fieldCheck {fields : List Field} {vs : List (Nat × Nat)}
    (h : scan (fieldCheck c p) 0 fields = .ok vs) : vs.map Prod.fst = fields.map Field.width := by
  obtain ⟨hlen, hget⟩ := (scan_ok_iff _ _ _ _).1 h
  refine List.ext_getElem (by simpa using hlen) fun k hk hk' => ?_
  obtain ⟨y, hy, hok⟩ := hget k _ (List.getElem?_eq_getElem (by simpa using hk'))
  obtain ⟨hkv, rfl⟩ := List.getElem?_eq_some_iff.1 hy
  rw [List.getElem_map, List.getElem_map, (eq_of_fieldCheck_eq_ok hok).1]

theorem lt_of_scan_fieldCheck {fields : List Field} {vs : List (Nat × Nat)}
    (h : scan (fieldCheck c p) 0 fields = .ok vs) : ∀ e ∈ vs, e.2 < 2 ^ e.1 := fun e he => by
  obtain ⟨k, fld, -, hok⟩ := exists_of_mem_of_scan h he
  exact (eq_of_fieldCheck_eq_ok hok).2

end Fields

/-! ## The concatenation (41_packer.md R102) -/

theorem concatFields_cons (w v : Nat) (l : List (Nat × Nat)) :
    concatFields 0 ((w, v) :: l) = v * 2 ^ (l.map Prod.fst).sum + concatFields 0 l := by
  rw [concatFields, Nat.zero_mul, Nat.zero_add, concatFields_acc]

theorem packedField_cons (fld : Field) (fields : List Field) (v : Nat) (vs : List Nat) :
    packedField (fld :: fields) (v :: vs) = v * 2 ^ (fields.map Field.width).sum + packedField fields vs := by
  simp [packedField, List.range_succ_eq_map, Function.comp_def]

/-- The concatenation, first field most significant, puts field f at the offset of R102. -/
theorem concatFields_eq_packedField {fields : List Field} {vs : List Nat} (h : vs.length = fields.length) :
    concatFields 0 ((fields.map Field.width).zip vs) = packedField fields vs := by
  induction fields generalizing vs with
  | nil => rfl
  | cons fld fields ih =>
    cases vs with
    | nil => simp at h
    | cons v vs =>
      have hlen : vs.length = fields.length := by simpa using h
      rw [List.map_cons, List.zip_cons_cons, concatFields_cons, packedField_cons, ih hlen,
        List.map_fst_zip (by simp [hlen])]

/-- Fields of the same widths that fit them are told apart by their concatenation. -/
theorem concatFields_injective {l l' : List (Nat × Nat)} (hw : l.map Prod.fst = l'.map Prod.fst)
    (h : ∀ e ∈ l, e.2 < 2 ^ e.1) (h' : ∀ e ∈ l', e.2 < 2 ^ e.1) (heq : concatFields 0 l = concatFields 0 l') :
    l = l' := by
  induction l generalizing l' with
  | nil => exact (List.map_eq_nil_iff.1 hw.symm).symm
  | cons e l ih =>
    obtain ⟨e', l', rfl, he, hl⟩ := List.map_eq_cons_iff.1 hw.symm
    obtain ⟨w, v⟩ := e
    obtain ⟨w', v'⟩ := e'
    obtain rfl : w' = w := he
    have hlow := concatFields_lt l fun x hx => h x (List.mem_cons_of_mem _ hx)
    have hlow' := concatFields_lt l' fun x hx => h' x (List.mem_cons_of_mem _ hx)
    rw [concatFields_cons, concatFields_cons, hl] at heq
    rw [hl] at hlow'
    obtain ⟨hv, hrest⟩ : v = v' ∧ concatFields 0 l = concatFields 0 l' := by
      have hpos := Nat.two_pow_pos (l.map Prod.fst).sum
      have hdiv := congrArg (· / 2 ^ (l.map Prod.fst).sum) heq
      have hmod := congrArg (· % 2 ^ (l.map Prod.fst).sum) heq
      simp only [Nat.mul_comm _ (2 ^ (l.map Prod.fst).sum), Nat.mul_add_div hpos, Nat.mul_add_mod,
        Nat.div_eq_of_lt hlow, Nat.div_eq_of_lt hlow', Nat.mod_eq_of_lt hlow, Nat.mod_eq_of_lt hlow'] at hdiv hmod
      exact ⟨hdiv, hmod⟩
    rw [hv, ih hl.symm (fun x hx => h x (List.mem_cons_of_mem _ hx)) (fun x hx => h' x (List.mem_cons_of_mem _ hx)) hrest]

/-! ## The emission (41_packer.md R103) -/

/-- Bit `q * cw + r` of the PackedField is bit r of the cell that stands q cells before the last. -/
theorem testBit_eq_testBit_emitCells {n cw q r : Nat} (x : Nat) (hq : q < n) (hr : r < cw) :
    x.testBit (q * cw + r) = ((emitCells (n * cw) cw x).getD (n - 1 - q) 0).testBit r := by
  have hoffset : n * cw - (n - 1 - q + 1) * cw = q * cw := by
    rw [← Nat.sub_mul]
    congr 1
    omega
  have hindex : n - 1 - q < n * cw / cw := by
    rw [Nat.mul_div_cancel n (by omega)]; omega
  rw [List.getD_eq_getElem?_getD, emitCells_getElem? _ _ _ _ hindex, hoffset, Option.getD_some,
    Nat.testBit_mod_two_pow, Nat.testBit_div_two_pow, decide_eq_true hr, Bool.true_and, Nat.add_comm]

/-- The cells hold the whole PackedField. -/
theorem emitCells_injective {n cw x y : Nat} (hcw : 0 < cw) (hx : x < 2 ^ (n * cw)) (hy : y < 2 ^ (n * cw))
    (h : emitCells (n * cw) cw x = emitCells (n * cw) cw y) : x = y := by
  refine Nat.eq_of_testBit_eq fun j => ?_
  by_cases hj : j < n * cw
  · have hq : j / cw < n := Nat.div_lt_of_lt_mul (by rwa [Nat.mul_comm])
    have hr : j % cw < cw := Nat.mod_lt j hcw
    rw [← Nat.div_add_mod' j cw, testBit_eq_testBit_emitCells x hq hr, testBit_eq_testBit_emitCells y hq hr, h]
  · have hle : 2 ^ (n * cw) ≤ 2 ^ j := Nat.pow_le_pow_right (by decide) (Nat.not_lt.1 hj)
    rw [Nat.testBit_lt_two_pow (hx.trans_le hle), Nat.testBit_lt_two_pow (hy.trans_le hle)]

/-! ## What a PACK computation gives -/

section PackCodes

variable {n : Nat} {m : PackCfg} {c c' : List Nat} {p p' : Nat}

theorem packField_eq_ok_iff {cells : List Nat} : packField m c p = .ok cells ↔
    ∃ vs, scan (fieldCheck c p) 0 m.fields = .ok vs ∧ emitCells m.width m.cellW (concatFields 0 vs) = cells := by
  unfold packField
  cases scan (fieldCheck c p) 0 m.fields <;> simp

theorem packField_of_scan_error {e : Raise} (h : scan (fieldCheck c p) 0 m.fields = .error e) :
    packField m c p = .error e := by
  rw [packField, h]

theorem packCodes_of_long (h : n < c.length) : packCodes n m c p = .error ⟨.messageTooLong, n⟩ := by
  rw [packCodes, if_pos h]

theorem packCodes_of_short (h : c.length < n) : packCodes n m c p = .error ⟨.invalidField, 255⟩ := by
  rw [packCodes, if_neg (by omega), if_pos h]

theorem packCodes_of_length (h : c.length = n) : packCodes n m c p = packField m c p := by
  rw [packCodes, if_neg (by omega), if_neg (by omega)]

theorem packCodes_eq_ok_iff {cells : List Nat} :
    packCodes n m c p = .ok cells ↔ c.length = n ∧ packField m c p = .ok cells := by
  rcases Nat.lt_trichotomy c.length n with h | h | h
  · simp [packCodes_of_short h, h.ne]
  · simp [packCodes_of_length h, h]
  · simp [packCodes_of_long h, h.ne']

/-- R101 item 4 reaches the cells: they determine the PackedField, it the field values, and these the codes. -/
theorem PackOK.packCodes_injective (h : PackOK n m) (hcw : 0 < m.cellW) {cells : List Nat}
    (hc : packCodes n m c p = .ok cells) (hc' : packCodes n m c' p = .ok cells) : c = c' := by
  obtain ⟨hlen, hpack⟩ := packCodes_eq_ok_iff.1 hc
  obtain ⟨hlen', hpack'⟩ := packCodes_eq_ok_iff.1 hc'
  obtain ⟨vs, hvs, hcells⟩ := packField_eq_ok_iff.1 hpack
  obtain ⟨vs', hvs', hcells'⟩ := packField_eq_ok_iff.1 hpack'
  have hwidth : ∀ {d : List Nat} {us : List (Nat × Nat)}, scan (fieldCheck d p) 0 m.fields = .ok us →
      concatFields 0 us < 2 ^ (m.width / m.cellW * m.cellW) := fun hus => by
    rw [Nat.div_mul_cancel h.divides, ← h.widths, ← map_fst_of_scan_fieldCheck hus]
    exact concatFields_lt _ (lt_of_scan_fieldCheck hus)
  have hfield : concatFields 0 vs = concatFields 0 vs' := by
    refine emitCells_injective hcw (hwidth hvs) (hwidth hvs') ?_
    rw [Nat.div_mul_cancel h.divides, hcells, hcells']
  have hvalues : vs = vs' := by
    refine concatFields_injective ?_ (lt_of_scan_fieldCheck hvs) (lt_of_scan_fieldCheck hvs') hfield
    rw [map_fst_of_scan_fieldCheck hvs, map_fst_of_scan_fieldCheck hvs']
  exact h.injective c c' p vs hlen hlen' hvs (hvalues ▸ hvs')

/-- R101 item 2 reaches the cells: a JT packer gives the same at every power level. -/
theorem JtFieldsOK.packCodes_eq (h : JtFieldsOK m) (n : Nat) (c : List Nat) (p p' : Nat) :
    packCodes n m c p = packCodes n m c p' := by
  have hscan : scan (fieldCheck c p) 0 m.fields = scan (fieldCheck c p') 0 m.fields :=
    scan_congr _ _ _ _ fun _ fld hfld => fieldCheck_congr (h fld hfld c p p')
  rw [packCodes, packCodes, packField, packField, hscan]

end PackCodes

/-! ## The PACK commands as stages -/

theorem mem_packStages {cfg : Cfg} {i : Instr} {n : Nat} {m : PackCfg} : (i, n, m) ∈ packStages cfg ↔
    (i = .packJt65 ∧ n = cfg.msgLenJt65 ∧ m = cfg.packJt65) ∨
    (i = .packJt9 ∧ n = cfg.msgLenJt9 ∧ m = cfg.packJt9) ∨
    (i = .packJt4 ∧ n = cfg.msgLenJt4 ∧ m = cfg.packJt4) ∨
    (i = .packWspr ∧ n = cfg.msgLenWspr ∧ m = cfg.packWspr) := by
  simp [packStages, Cfg.msgLenWspr]

theorem exists_mem_packStages (cfg : Cfg) {i : Instr} (hi : i ∈ [Instr.packJt65, .packJt9, .packJt4, .packWspr]) :
    ∃ n m, (i, n, m) ∈ packStages cfg := by
  simp only [List.mem_cons, List.not_mem_nil, or_false] at hi
  obtain rfl | rfl | rfl | rfl := hi
  · exact ⟨_, _, mem_packStages.2 (.inl ⟨rfl, rfl, rfl⟩)⟩
  · exact ⟨_, _, mem_packStages.2 (.inr (.inl ⟨rfl, rfl, rfl⟩))⟩
  · exact ⟨_, _, mem_packStages.2 (.inr (.inr (.inl ⟨rfl, rfl, rfl⟩)))⟩
  · exact ⟨_, _, mem_packStages.2 (.inr (.inr (.inr ⟨rfl, rfl, rfl⟩)))⟩

theorem CfgOK.packStage {cfg : Cfg} (h : CfgOK cfg) {i : Instr} {n : Nat} {m : PackCfg}
    (hi : (i, n, m) ∈ packStages cfg) : PackOK n m ∧ (m.cellW = 6 ∨ m.cellW = 1) := by
  obtain ⟨-, rfl, rfl⟩ | ⟨-, rfl, rfl⟩ | ⟨-, rfl, rfl⟩ | ⟨-, rfl, rfl⟩ := mem_packStages.1 hi
  · exact ⟨h.packJt65, .inl h.fixed.pkdJt65⟩
  · exact ⟨h.packJt9, .inr h.fixed.pkdJt9⟩
  · exact ⟨h.packJt4, .inr h.fixed.pkdJt4⟩
  · exact ⟨h.packWspr, .inr h.fixed.pkdWspr⟩

theorem CfgOK.jtFields {cfg : Cfg} (h : CfgOK cfg) {i : Instr} {n : Nat} {m : PackCfg}
    (hi : (i, n, m) ∈ packStages cfg) (hjt : i ≠ .packWspr) : JtFieldsOK m := by
  obtain ⟨-, -, rfl⟩ | ⟨-, -, rfl⟩ | ⟨-, -, rfl⟩ | ⟨hwspr, -, -⟩ := mem_packStages.1 hi
  · exact h.fieldsJt65
  · exact h.fieldsJt9
  · exact h.fieldsJt4
  · exact absurd hwspr hjt

section Stage

variable {s s' : State} {i : Instr} {n : Nat} {m : PackCfg}

/-- A PACK command with ERR 0 computes its cells from the codes and PWR + T2, which is not reduced (R109). -/
theorem exec_packStage (hi : (i, n, m) ∈ packStages s.cfg) (h0 : s.status = 0#1) :
    exec i s = .next (finish .pkd (packCodes n m (values .cod s) (s.pwr.toNat + s.flags.toNat)) s) := by
  obtain ⟨rfl, rfl, rfl⟩ | ⟨rfl, rfl, rfl⟩ | ⟨rfl, rfl, rfl⟩ | ⟨rfl, rfl, rfl⟩ := mem_packStages.1 hi
  all_goals exact gated_clear _ s h0

theorem values_cod_length (s : State) : (values .cod s).length = s.codLen.toNat := values_length .cod s

/-- The cells of a PACK command fit PKD in number and in value. -/
theorem CfgOK.emitCells_fit {cfg : Cfg} (h : CfgOK cfg) (hi : (i, n, m) ∈ packStages cfg) (pf : Nat) :
    (emitCells m.width m.cellW pf).length ≤ 255 ∧ ∀ v ∈ emitCells m.width m.cellW pf, v < 256 := by
  obtain ⟨hok, hcw⟩ := h.packStage hi
  refine ⟨(emitCells_length _ _ _).trans_le hok.cells, fun v hv => (emitCells_lt _ _ _ v hv).trans_le ?_⟩
  obtain hcw | hcw := hcw <;> rw [hcw] <;> decide

/-- A PACK command that leaves ERR 0 has packed its codes, and PKD holds the cells. -/
theorem packCodes_of_exec {t : State} (hcfg : CfgOK s.cfg) (hi : (i, n, m) ∈ packStages s.cfg) (h0 : s.status = 0#1)
    (hexec : exec i s = .next t) (ht : t.status = 0#1) :
    packCodes n m (values .cod s) (s.pwr.toNat + s.flags.toNat) = .ok (values .pkd t) := by
  rw [exec_packStage hi h0, Host.Outcome.next.injEq] at hexec
  subst hexec
  obtain ⟨e, -, hfin⟩ | ⟨cells, hcells, -⟩ := finish_cases .pkd
    (packCodes n m (values .cod s) (s.pwr.toNat + s.flags.toNat)) s
  · simp [hfin] at ht
  · obtain ⟨vs, -, rfl⟩ := packField_eq_ok_iff.1 (packCodes_eq_ok_iff.1 hcells).2
    obtain ⟨hlen, hvals⟩ := hcfg.emitCells_fit hi (concatFields 0 vs)
    rw [hcells, (finish_completed .pkd _ s _ rfl hlen hvals).1.vals]

/-- The end of a command with one result from two states with ERR 0: the same contents, or the same
error. -/
theorem finish_agree (b : Buf) (r : Except Raise (List Nat)) (h0 : s.status = 0#1) (h0' : s'.status = 0#1) :
    (finish b r s').status = (finish b r s).status ∧ (finish b r s').len b = (finish b r s).len b ∧
    values b (finish b r s') = values b (finish b r s) ∧
    ((finish b r s).status = 1#1 →
      (finish b r s').errcode = (finish b r s).errcode ∧ (finish b r s').erridx = (finish b r s).erridx) := by
  cases r with
  | error e =>
    have hlen : ∀ u : State, (enterError (some b) e u).len b = 0#8 := fun u =>
      (enterError_raised (some b) e u).emptied b (by simp [emptied])
    simp [finish, values, hlen, contents_of_len_zero]
  | ok vs => simp [finish, values, contents_commit_self, h0, h0']

end Stage

/-! ## The obligations -/

/-- Settles O24: the scan answers the field values, and their concatenation is the PackedField of the offsets. -/
theorem packCompletes : Obligations.PackCompletes := by
  rintro s i n m vs hcfg h0 hi hlen ⟨hvs, hfit⟩
  have hscan := scan_fieldCheck m.fields vs _ _ hvs hfit
  have hpack : packCodes n m (values .cod s) (s.pwr.toNat + s.flags.toNat) =
      .ok (emitCells m.width m.cellW (packedField m.fields vs)) :=
    packCodes_eq_ok_iff.2 ⟨(values_cod_length s).trans hlen,
      packField_eq_ok_iff.2 ⟨_, hscan, by rw [concatFields_eq_packedField hvs]⟩⟩
  obtain ⟨hcap, hvals⟩ := hcfg.emitCells_fit hi (packedField m.fields vs)
  obtain ⟨t, hexec, hdone, hsr⟩ := completes_of_exec_eq_finish (exec_packStage hi h0) hpack hcap hvals
  exact ⟨t, _, hexec, hdone, hsr, emitCells_length _ _ _, fun k hk => emitCells_getElem? _ _ _ k hk⟩

/-- Settles O25: the two lengths are tested before the fields, whose error is that of the lowest one that fails. -/
theorem packRaises : Obligations.PackRaises := by
  intro s i n m h0 hi
  have hcod := values_cod_length s
  have hexec := exec_packStage hi h0
  refine ⟨fun hlong => ?_, fun hshort => ?_, fun f fld hlen hf hbad hlow => ?_⟩
  · exact raises_of_exec_eq_finish hexec (packCodes_of_long (by omega))
  · exact raises_of_exec_eq_finish hexec (packCodes_of_short (by omega))
  · refine raises_of_exec_eq_finish hexec ((packCodes_of_length (by omega)).trans (packField_of_scan_error ?_))
    refine scan_error_of_first _ 0 _ f fld _ hf ((fieldCheck_of_not_fits hbad).trans (by rw [Nat.zero_add]))
      fun g fld' hg hfld' => ?_
    obtain ⟨v, hv, hfits⟩ := hlow g fld' hg hfld'
    exact ⟨_, fieldCheck_of_fits hv hfits⟩

/-- Settles O26: both runs packed their codes into the same cells, and `packCodes` is injective. -/
theorem packLosesNothing : Obligations.PackLosesNothing := by
  intro s s' t t' i hcfg hcfg' h0 h0' hi hpower hexec hexec' ht ht' hpkd
  obtain ⟨n, m, hstage⟩ := exists_mem_packStages s.cfg hi
  obtain ⟨hok, hcw⟩ := hcfg.packStage hstage
  have hpack := packCodes_of_exec hcfg hstage h0 hexec ht
  have hpack' := packCodes_of_exec (hcfg' ▸ hcfg) (hcfg' ▸ hstage) h0' hexec' ht'
  rw [hpower, ← hpkd] at hpack'
  exact hok.packCodes_injective (by omega) hpack hpack'

/-- Settles O27: the two runs compute one result, WSPR's because PWR + T2 is the same, JT's because no field reads it. -/
theorem powerIsFolded : Obligations.PowerIsFolded := by
  intro s s' i hcfg hcfg' h0 h0' hcod hi
  have hpack : i ∈ [Instr.packJt65, .packJt9, .packJt4, .packWspr] := by
    obtain ⟨rfl, -⟩ | hjt := hi
    · decide
    · exact List.mem_append_left [.packWspr] hjt
  obtain ⟨n, m, hstage⟩ := exists_mem_packStages s.cfg hpack
  have hresult : packCodes n m (values .cod s') (s'.pwr.toNat + s'.flags.toNat) =
      packCodes n m (values .cod s) (s.pwr.toNat + s.flags.toNat) := by
    rw [hcod]
    obtain ⟨-, hpower⟩ | hjt := hi
    · rw [hpower]
    · exact (hcfg.jtFields hstage (by rintro rfl; simp at hjt)).packCodes_eq n _ _ _
  refine ⟨_, _, exec_packStage hstage h0, exec_packStage (hcfg' ▸ hstage) h0', ?_⟩
  rw [hresult]
  exact finish_agree .pkd _ h0 h0'

end Sys2Proof.Machine
end

section
/-! PROOFS. The family 42_convolutional.md: CONVENC and the CONV commands (R116 to R120). The layer below says once what bit j
of the shift register is, a sum of what enters and what was there, and derives from it both the input bits that the masks
select and the linearity of the whole encoder; the three commands are then one case, a stage of `convStages`. -/

namespace Sys2Proof.Machine

open Sys2Proof.Claims

/-! ## The parity of a word (00_scope.md R10) -/

theorem parity_zero (w : Nat) : parity w 0 = 0 := by
  induction w with
  | zero => rfl
  | succ w ih => rw [parity, Nat.zero_div, ih]; rfl

/-- The exclusive-or tree is linear over the bits. -/
theorem parity_xor (w a b : Nat) : parity w (a ^^^ b) = parity w a ^^^ parity w b := by
  induction w generalizing a b with
  | zero => exact (Nat.xor_self 0).symm
  | succ w ih =>
    have hlow : (a ^^^ b) % 2 = a % 2 ^^^ b % 2 := Nat.xor_mod_two_pow (n := 1)
    rw [parity, parity, parity, Nat.xor_div_two, ih, hlow]
    ac_rfl

/-- The parity of a word is that of the number of its one bits. -/
theorem parity_eq_countP (w v : Nat) : parity w v = (List.range w).countP v.testBit % 2 := by
  induction w generalizing v with
  | zero => rfl
  | succ w ih =>
    have hrest : v.testBit ∘ Nat.succ = (v / 2).testBit := funext fun j => Nat.testBit_succ v j
    have hbit : (if v.testBit 0 then 1 else 0) = v % 2 := by
      rw [Nat.testBit_zero]
      obtain h | h := Nat.mod_two_eq_zero_or_one v <;> simp [h]
    have hle := parity_le (w + 1) v
    rw [← Nat.mod_eq_of_lt (Nat.lt_succ_of_le hle), parity, Nat.xor_mod_two_eq, ih, List.range_succ_eq_map,
      List.countP_cons, List.countP_map, hrest, hbit]
    omega

/-! ## The shift register (42_convolutional.md R116) -/

theorem testBit_succ_of_le_one {bit : Nat} (hbit : bit ≤ 1) (j : Nat) : bit.testBit (j + 1) = false :=
  Nat.testBit_lt_two_pow (hbit.trans_lt (Nat.one_lt_two_pow j.succ_ne_zero))

theorem testBit_shiftLeft_one_zero (sr : Nat) : (sr <<< 1).testBit 0 = false := by simp

/-- A bit enters at the place that the shift has freed, so it is added. -/
theorem shiftIn_eq_xor {bit : Nat} (k sr : Nat) (hbit : bit ≤ 1) : shiftIn k sr bit = (sr <<< 1 ^^^ bit) % 2 ^ k := by
  have hor : sr <<< 1 ||| bit = sr <<< 1 ^^^ bit := by
    refine Nat.eq_of_testBit_eq fun j => ?_
    rw [Nat.testBit_or, Nat.testBit_xor]
    cases j with
    | zero => rw [testBit_shiftLeft_one_zero, Bool.false_or, Bool.false_xor]
    | succ j => rw [testBit_succ_of_le_one hbit, Bool.or_false, Bool.xor_false]
  rw [shiftIn, hor]

theorem shiftIn_xor {bit bit' : Nat} (k sr sr' : Nat) (hbit : bit ≤ 1) (hbit' : bit' ≤ 1) :
    shiftIn k (sr ^^^ sr') (bit ^^^ bit') = shiftIn k sr bit ^^^ shiftIn k sr' bit' := by
  have hxor : bit ^^^ bit' ≤ 1 := Nat.le_of_lt_succ (Nat.xor_lt_two_pow (n := 1) (by omega) (by omega))
  rw [shiftIn_eq_xor k _ hxor, shiftIn_eq_xor k _ hbit, shiftIn_eq_xor k _ hbit', Nat.shiftLeft_xor_distrib,
    ← Nat.xor_mod_two_pow]
  congr 1
  ac_rfl

theorem testBit_shiftIn_zero {bit : Nat} (k sr : Nat) (hbit : bit ≤ 1) :
    (shiftIn k sr bit).testBit 0 = (decide (0 < k) && bit == 1) := by
  have hlow : bit.testBit 0 = (bit == 1) := by obtain rfl | rfl := Nat.le_one_iff_eq_zero_or_eq_one.1 hbit <;> rfl
  rw [shiftIn_eq_xor k sr hbit, Nat.testBit_mod_two_pow, Nat.testBit_xor, testBit_shiftLeft_one_zero, Bool.false_xor, hlow]

theorem testBit_shiftIn_succ {bit : Nat} (k sr j : Nat) (hbit : bit ≤ 1) :
    (shiftIn k sr bit).testBit (j + 1) = (decide (j + 1 < k) && sr.testBit j) := by
  simp [shiftIn_eq_xor k sr hbit, Nat.testBit_mod_two_pow, testBit_succ_of_le_one hbit]

/-- The register after the input bits `l`, from SR = 0. -/
def srAfter (k : Nat) (l : List Nat) : Nat := l.foldl (shiftIn k) 0

theorem srAfter_concat (k : Nat) (l : List Nat) (bit : Nat) :
    srAfter k (l ++ [bit]) = shiftIn k (srAfter k l) bit := by simp [srAfter]

/-- R116 point b: bit j of the register is the input bit of j steps before the last. -/
theorem testBit_srAfter (k : Nat) {l : List Nat} (hl : ∀ v ∈ l, v ≤ 1) (j : Nat) :
    (srAfter k l).testBit j = (decide (j < k) && decide (j < l.length) && l.getD (l.length - 1 - j) 0 == 1) := by
  induction l using List.reverseRecOn generalizing j with
  | nil => simp [srAfter]
  | append_singleton l bit ih =>
    have hbit : bit ≤ 1 := hl bit (by simp)
    rw [srAfter_concat]
    cases j with
    | zero => simp [testBit_shiftIn_zero k _ hbit]
    | succ j =>
      rw [testBit_shiftIn_succ k _ j hbit, ih fun v hv => hl v (List.mem_append_left _ hv)]
      have hlen : (l ++ [bit]).length = l.length + 1 := List.length_append
      by_cases hj : j < l.length
      · have hidx : l.length + 1 - 1 - (j + 1) = l.length - 1 - j := by omega
        rw [hlen, hidx, List.getD_append _ _ _ _ (by omega)]
        by_cases hk : j + 1 < k
        · simp [hj, hk, Nat.lt_of_succ_lt hk]
        · simp [hk]
      · simp [hj]

/-- The register at step t. -/
theorem testBit_srAfter_take (k : Nat) {l : List Nat} (hl : ∀ v ∈ l, v ≤ 1) {t : Nat} (ht : t < l.length) (j : Nat) :
    (srAfter k (l.take (t + 1))).testBit j = (decide (j < k) && decide (j ≤ t) && l.getD (t - j) 0 == 1) := by
  have hlen : (l.take (t + 1)).length = t + 1 := List.length_take_of_le ht
  have hget : (l.take (t + 1)).getD (t - j) 0 = l.getD (t - j) 0 := by
    rw [List.getD_eq_getElem?_getD, List.getElem?_take_of_lt (by omega), List.getD_eq_getElem?_getD]
  rw [testBit_srAfter k (fun v hv => hl v (List.mem_of_mem_take hv)), hlen, Nat.add_sub_cancel, hget]
  simp only [Nat.lt_succ_iff]

/-! ## The loop of CONVENC -/

theorem convSteps_sr (c : ConvCfg) (sr : Nat) (bits : List Nat) :
    (convSteps c sr bits).2 = bits.foldl (shiftIn c.k) sr := by
  induction bits generalizing sr with
  | nil => rfl
  | cons bit bits ih => exact ih _

/-- The pair of step t is the masked parities of the register at step t, the G0 bit first. -/
theorem convSteps_getElem? (c : ConvCfg) (sr : Nat) {bits : List Nat} {t : Nat} (ht : t < bits.length) :
    (convSteps c sr bits).1[2 * t]? = some (parity c.k ((bits.take (t + 1)).foldl (shiftIn c.k) sr &&& c.g0)) ∧
    (convSteps c sr bits).1[2 * t + 1]? = some (parity c.k ((bits.take (t + 1)).foldl (shiftIn c.k) sr &&& c.g1)) := by
  induction bits generalizing sr t with
  | nil => simp at ht
  | cons bit bits ih =>
    cases t with
    | zero => exact ⟨rfl, rfl⟩
    | succ t => exact ih (shiftIn c.k sr bit) (Nat.lt_of_succ_lt_succ ht)

theorem convSteps_xor (c : ConvCfg) (sr sr' : Nat) {bits bits' : List Nat} (hlen : bits.length = bits'.length)
    (hbits : ∀ v ∈ bits, v ≤ 1) (hbits' : ∀ v ∈ bits', v ≤ 1) :
    (convSteps c (sr ^^^ sr') (List.zipWith (· ^^^ ·) bits bits')).1 =
      List.zipWith (· ^^^ ·) (convSteps c sr bits).1 (convSteps c sr' bits').1 := by
  induction bits generalizing bits' sr sr' with
  | nil => rfl
  | cons bit bits ih =>
    obtain _ | ⟨bit', bits'⟩ := bits'
    · simp at hlen
    · obtain ⟨hbit, hbits⟩ := List.forall_mem_cons.1 hbits
      obtain ⟨hbit', hbits'⟩ := List.forall_mem_cons.1 hbits'
      simp only [List.zipWith_cons_cons, convSteps, shiftIn_xor c.k sr sr' hbit hbit', Nat.and_xor_distrib_right,
        parity_xor, ih _ _ (Nat.succ.inj hlen) hbits hbits']

theorem shiftIn_zero (k : Nat) : shiftIn k 0 0 = 0 := Nat.zero_mod _

theorem convSteps_zeros (c : ConvCfg) (n : Nat) :
    (convSteps c 0 (List.replicate n 0)).1 = List.replicate (2 * n) 0 := by
  induction n with
  | zero => rfl
  | succ n ih =>
    simp only [List.replicate_succ, convSteps, shiftIn_zero, Nat.zero_and, parity_zero, ih, Nat.mul_succ]

/-! ## The input of CONVENC: the data, then the zero padding -/

/-- The sequence `in` of R116. -/
def convInput (c : ConvCfg) (d : List Nat) : List Nat := d ++ List.replicate (c.len - d.length) 0

theorem convEnc_eq (c : ConvCfg) (d : List Nat) : convEnc c d = convSteps c 0 (convInput c d) := rfl

theorem convInput_length {c : ConvCfg} {d : List Nat} (h : d.length ≤ c.len) : (convInput c d).length = c.len := by
  simp [convInput, h]

theorem convInput_bits (c : ConvCfg) {d : List Nat} (hd : ∀ v ∈ d, v ≤ 1) : ∀ v ∈ convInput c d, v ≤ 1 := by
  intro v hv
  obtain hv | hv := List.mem_append.1 hv
  · exact hd v hv
  · simp [List.eq_of_mem_replicate hv]

theorem convInput_getD (c : ConvCfg) (d : List Nat) (i : Nat) : (convInput c d).getD i 0 = d.getD i 0 := by
  obtain hi | hi := Nat.lt_or_ge i d.length
  · exact List.getD_append _ _ _ _ hi
  · rw [convInput, List.getD_append_right _ _ _ _ hi, List.getD_eq_default _ _ hi]
    simp

theorem convInput_xor (c : ConvCfg) {d d' : List Nat} (hlen : d.length = d'.length) :
    convInput c (List.zipWith (· ^^^ ·) d d') = List.zipWith (· ^^^ ·) (convInput c d) (convInput c d') := by
  simp [convInput, List.zipWith_append hlen, hlen]

/-- The masked register of step t has the parity of the input bits that the mask selects. -/
theorem parity_srAfter_eq_tapParity {c : ConvCfg} {d : List Nat} (hd : ∀ v ∈ d, v ≤ 1) (hfit : d.length ≤ c.len)
    {t : Nat} (ht : t < c.len) (g : Nat) :
    parity c.k (srAfter c.k ((convInput c d).take (t + 1)) &&& g) = tapParity c.k g d t := by
  rw [parity_eq_countP, tapParity]
  congr 1
  refine List.countP_congr fun j hj => ?_
  rw [Nat.testBit_and, testBit_srAfter_take c.k (convInput_bits c hd) (by rwa [convInput_length hfit]),
    convInput_getD, decide_eq_true (List.mem_range.1 hj), Bool.true_and, Bool.and_comm, Bool.and_assoc]

/-- R116 points b to d: the pair of step t, from the data alone. -/
theorem convEnc_getElem? {c : ConvCfg} {d : List Nat} (hd : ∀ v ∈ d, v ≤ 1) (hfit : d.length ≤ c.len) {t : Nat}
    (ht : t < c.len) : (convEnc c d).1[2 * t]? = some (tapParity c.k c.g0 d t) ∧
      (convEnc c d).1[2 * t + 1]? = some (tapParity c.k c.g1 d t) := by
  have hstep : t < (convInput c d).length := ht.trans_eq (convInput_length hfit).symm
  rw [← parity_srAfter_eq_tapParity hd hfit ht, ← parity_srAfter_eq_tapParity hd hfit ht, convEnc_eq]
  exact convSteps_getElem? c 0 hstep

/-- The final register, from the data alone. -/
theorem testBit_convEnc_sr {c : ConvCfg} {d : List Nat} (hd : ∀ v ∈ d, v ≤ 1) (hfit : d.length ≤ c.len) (j : Nat) :
    (convEnc c d).2.testBit j = (decide (j < c.k) && decide (j < c.len) && d.getD (c.len - 1 - j) 0 == 1) := by
  have hreg : (convEnc c d).2 = srAfter c.k (convInput c d) := convSteps_sr c 0 _
  rw [hreg, testBit_srAfter c.k (convInput_bits c hd), convInput_length hfit, convInput_getD]

/-! ## The CONV commands as stages -/

theorem mem_convStages {cfg : Cfg} {i : Instr} {w : Nat} {c : ConvCfg} : (i, w, c) ∈ convStages cfg ↔
    (i = .convJt9 ∧ w = cfg.packJt9.width ∧ c = cfg.convJt9) ∨
    (i = .convJt4 ∧ w = cfg.packJt4.width ∧ c = cfg.convJt4) ∨
    (i = .convWspr ∧ w = cfg.packWspr.width ∧ c = cfg.convWspr) := by
  simp [convStages]

theorem CfgOK.convStage {cfg : Cfg} (h : CfgOK cfg) {i : Instr} {w : Nat} {c : ConvCfg}
    (hi : (i, w, c) ∈ convStages cfg) : ∃ fecN, ConvOK w fecN c := by
  obtain ⟨-, rfl, rfl⟩ | ⟨-, rfl, rfl⟩ | ⟨-, rfl, rfl⟩ := mem_convStages.1 hi
  · exact ⟨_, h.convJt9⟩
  · exact ⟨_, h.convJt4⟩
  · exact ⟨_, h.convWspr⟩

theorem exec_convStage {s : State} {i : Instr} {w : Nat} {c : ConvCfg} (hi : (i, w, c) ∈ convStages s.cfg)
    (h0 : s.status = 0#1) : exec i s = .next (finishConv (convCells w c (values .pkd s)) s) := by
  obtain ⟨rfl, rfl, rfl⟩ | ⟨rfl, rfl, rfl⟩ | ⟨rfl, rfl, rfl⟩ := mem_convStages.1 hi
  all_goals exact gated_clear _ s h0

theorem values_pkd_length (s : State) : (values .pkd s).length = s.pkdLen.toNat := values_length .pkd s

theorem convCells_of_length_ne {w : Nat} {pkd : List Nat} (c : ConvCfg) (h : pkd.length ≠ w) :
    convCells w c pkd = .error ⟨.configurationError, pkd.length⟩ := if_pos h

theorem convCells_of_scan_error {w : Nat} {pkd : List Nat} {e : Raise} (c : ConvCfg) (hlen : pkd.length = w)
    (h : scan (cellBelow 1) 0 pkd = .error e) : convCells w c pkd = .error e := by
  rw [convCells, if_neg (not_not_intro hlen), h]

/-! ## The obligations -/

/-- Settles O28: the command is CONVENC of the cells, whose pairs and final register are read off the data. -/
theorem convCompletes : Obligations.ConvCompletes := by
  intro s i w c hcfg h0 hi hlen hbits
  obtain ⟨fecN, hok⟩ := hcfg.convStage hi
  have hpkd : (values .pkd s).length = w := (values_pkd_length s).trans hlen
  have hfit : (values .pkd s).length ≤ c.len := hpkd.trans_le hok.room
  have hout := convEnc_length c _ hfit
  have hcells : ∀ v ∈ (convEnc c (values .pkd s)).1, v < 256 := fun v hv =>
    (convSteps_bits c 0 _ v hv).trans_lt (by decide)
  obtain ⟨hdone, hsr⟩ := finishConv_completed _ (convEnc c (values .pkd s)).2 s _ (convCells_eq_ok w c _ hpkd hbits)
    (hout.trans_le hok.cap) hcells
  exact ⟨_, _, exec_convStage hi h0, hdone, hout, fun t ht => convEnc_getElem? hbits hfit ht,
    fun j => by rw [hsr, testBit_convEnc_sr hbits hfit]⟩

/-- Settles O29: the length is tested before the scan, whose error is that of its lowest cell above 1. -/
theorem convRaises : Obligations.ConvRaises := by
  intro s i w c h0 hi
  have hpkd := values_pkd_length s
  refine ⟨fun hne => ?_, fun k v hlen hk hv hlow => ?_⟩
  · refine ⟨_, exec_convStage hi h0, ?_⟩
    rw [← hpkd] at hne ⊢
    exact finishConv_raised _ s _ (convCells_of_length_ne c hne)
  · have hscan := scan_cellBelow_error 1 _ k v hk hv fun j u hj hu => Nat.lt_succ_of_le (hlow j u hj hu)
    exact ⟨_, exec_convStage hi h0, finishConv_raised _ s _ (convCells_of_scan_error c (hpkd.trans hlen) hscan)⟩

/-- Settles O30: each step of the loop is linear, in the register and in the bit that enters, and so is the padding. -/
theorem convIsLinear : Obligations.ConvIsLinear := by
  intro c d d' hlen hd hd'
  have hinputs : (convInput c d).length = (convInput c d').length := by simp [convInput, hlen]
  rw [convEnc_eq, convInput_xor c hlen]
  exact convSteps_xor c 0 0 hinputs (convInput_bits c hd) (convInput_bits c hd')

/-- Settles O31: the flush holds because every bit of the final register is an input bit of the last K steps, all padding. -/
theorem convZeroLengthAndFlush : Obligations.ConvZeroLengthAndFlush := by
  intro c d hfit hd
  refine ⟨convEnc_length c d hfit, fun hzero => ?_, fun hpad => ?_⟩
  · have hinput : convInput c d = List.replicate c.len 0 := by
      rw [convInput, List.eq_replicate_of_mem hzero, List.length_replicate, List.replicate_append_replicate,
        Nat.add_sub_cancel' hfit]
    rw [convEnc_eq, hinput, convSteps_zeros]
  · refine Nat.eq_of_testBit_eq fun j => ?_
    rw [testBit_convEnc_sr hd hfit, Nat.zero_testBit]
    by_cases hj : j < c.k
    · rw [List.getD_eq_default d 0 (by omega)]
      exact Bool.and_false _
    · simp [hj]

end Sys2Proof.Machine
end

section
/-! PROOFS. The family 43_interleaver.md: BRSEL (R132, R133), what an ILV command completes with and raises (R139, R143
to R146, 60_exceptions.md R186), and that it loses nothing (R147). The layer below reads BITREV8 bit by bit, ties each of
the four steps of ILVSTAGE (Gray, scatter, format, Gray) to its statement, and shows that each keeps the width and loses
nothing; the four commands are then one case, a stage of `ilvStages`. -/

namespace Sys2Proof.Machine

open Sys2Proof.Claims

/-! ## BITREV8 and BRSEL (43_interleaver.md R132) -/

theorem bitRev_lt_two_pow (w v : Nat) : bitRev w v < 2 ^ w := by
  induction w generalizing v with
  | zero => exact Nat.one_pos
  | succ w ih =>
    have hlow := ih (v / 2)
    have hbit : v % 2 * 2 ^ w ≤ 1 * 2 ^ w := Nat.mul_le_mul_right _ (by omega)
    rw [bitRev, pow_succ]
    omega

/-- Bit i of the reversal is bit `w - 1 - i` of the value. -/
theorem testBit_bitRev (w v i : Nat) : (bitRev w v).testBit i = (decide (i < w) && v.testBit (w - 1 - i)) := by
  induction w generalizing v i with
  | zero => simp [bitRev]
  | succ w ih =>
    rw [bitRev, Nat.mul_comm, Nat.testBit_two_pow_mul_add _ (bitRev_lt_two_pow w _), ih]
    have hmod : ∀ j, (v % 2).testBit j = (decide (j < 1) && v.testBit j) := Nat.testBit_mod_two_pow v 1
    rcases Nat.lt_trichotomy i w with h | rfl | h
    · have hidx : w + 1 - 1 - i = w - 1 - i + 1 := by omega
      rw [if_pos h, hidx, Nat.testBit_succ]
      simp [h, Nat.lt_succ_of_lt h]
    · simp [hmod]
    · simp [hmod, show ¬ i < w by omega, show ¬ i - w = 0 by omega, show ¬ i < w + 1 by omega]

/-- Reversing twice gives the value back. -/
theorem bitRev_bitRev {w v : Nat} (h : v < 2 ^ w) : bitRev w (bitRev w v) = v := by
  refine Nat.eq_of_testBit_eq fun i => ?_
  rw [testBit_bitRev, testBit_bitRev]
  by_cases hi : i < w
  · have hidx : w - 1 - (w - 1 - i) = i := by omega
    simp [hi, hidx, show w - 1 - i < w by omega]
  · have hle : 2 ^ w ≤ 2 ^ i := Nat.pow_le_pow_right (by decide) (Nat.not_lt.1 hi)
    rw [Nat.testBit_lt_two_pow (h.trans_le hle)]
    simp [hi]

theorem bitRev8_lt (i : Nat) : bitRev8 i < 256 := bitRev_lt_two_pow 8 i

theorem bitRev8_bitRev8 {i : Nat} (h : i < 256) : bitRev8 (bitRev8 i) = i := bitRev_bitRev (w := 8) h

theorem brsel_nodup (n : Nat) : (brsel n).Nodup := by
  refine (List.Nodup.map_on (fun i hi j hj hij => ?_) List.nodup_range).filter _
  rw [← bitRev8_bitRev8 (List.mem_range.1 hi), hij, bitRev8_bitRev8 (List.mem_range.1 hj)]

/-- A value below N stands in the table at the index that is its own reversal. -/
theorem mem_brsel {n v : Nat} (hn : n ≤ 256) : v ∈ brsel n ↔ v < n := by
  rw [brsel, List.mem_filter, decide_eq_true_eq, and_iff_right_iff_imp]
  intro hv
  exact List.mem_map.2 ⟨bitRev8 v, List.mem_range.2 (bitRev8_lt v), bitRev8_bitRev8 (hv.trans_le hn)⟩

theorem brsel_perm_range {n : Nat} (hn : n ≤ 256) : (brsel n).Perm (List.range n) :=
  (List.perm_ext_iff_of_nodup (brsel_nodup n) List.nodup_range).2 fun v => by rw [mem_brsel hn, List.mem_range]

theorem brsel_length {n : Nat} (hn : n ≤ 256) : (brsel n).length = n :=
  (brsel_perm_range hn).length_eq.trans List.length_range

/-! ## Gray placement (43_interleaver.md R142) -/

theorem grayBefore_eq (g : GrayPos) (a : List Nat) : grayBefore g a = a.map (grayAt .before g) := by
  cases g with
  | before => rfl
  | none | after => exact (List.map_id a).symm

theorem grayAfter_eq (g : GrayPos) (d : List Nat) : grayAfter g d = d.map (grayAt .after g) := by
  cases g with
  | after => rfl
  | none | before => exact (List.map_id d).symm

theorem grayAt_eq (here g : GrayPos) (v : Nat) : grayAt here g v = if g = here then gray v else v := rfl

theorem grayAt_injective (here g : GrayPos) : Function.Injective (grayAt here g) := by
  intro m n h
  rw [grayAt_eq, grayAt_eq] at h
  split_ifs at h
  · exact gray_injective h
  · exact h

theorem grayAt_lt_two_pow {w v : Nat} (here g : GrayPos) (h : v < 2 ^ w) : grayAt here g v < 2 ^ w := by
  rw [grayAt_eq]
  split_ifs
  · exact gray_lt_two_pow h
  · exact h

/-- GRAY is the identity on bits. -/
theorem grayAt_of_le_one {v : Nat} (here g : GrayPos) (h : v ≤ 1) : grayAt here g v = v := by
  have hbit : gray v = v := by obtain rfl | rfl := Nat.le_one_iff_eq_zero_or_eq_one.1 h <;> rfl
  rw [grayAt_eq, hbit, ite_self]

/-! ## The scatter (43_interleaver.md R131) -/

theorem mem_of_mem_foldl_set {l : List (Nat × Nat)} {b : List Nat} {v : Nat}
    (h : v ∈ l.foldl (fun b qv => b.set qv.1 qv.2) b) : v ∈ b ∨ v ∈ l.map Prod.snd := by
  induction l generalizing b with
  | nil => exact .inl h
  | cons e l ih =>
    obtain hset | hrest := ih h
    · obtain hb | rfl := List.mem_or_eq_of_mem_set hset
      · exact .inl hb
      · exact .inr List.mem_cons_self
    · exact .inr (List.mem_cons_of_mem _ hrest)

theorem eq_zero_or_mem_of_mem_scatter {n v : Nat} {perm a : List Nat} (h : v ∈ scatter n perm a) : v = 0 ∨ v ∈ a := by
  obtain hzero | hcell := mem_of_mem_foldl_set h
  · exact .inl (List.eq_of_mem_replicate hzero)
  · obtain ⟨e, he, rfl⟩ := List.mem_map.1 hcell
    exact .inr (List.of_mem_zip he).2

/-- Cell p stands at PERM[p], so the scattered cells determine the input. -/
theorem scatter_injective {n : Nat} {perm a a' : List Nat} (hnodup : perm.Nodup) (hrange : ∀ q ∈ perm, q < n)
    (hlen : a.length = perm.length) (hlen' : a'.length = perm.length) (h : scatter n perm a = scatter n perm a') :
    a = a' := by
  refine List.ext_getElem (hlen.trans hlen'.symm) fun p hp hp' => ?_
  have hperm : perm[p]? = some perm[p] := List.getElem?_eq_getElem (hlen ▸ hp)
  have hcell := scatter_getElem? n perm a hnodup hrange p _ _ hperm (List.getElem?_eq_getElem hp)
  have hcell' := scatter_getElem? n perm a' hnodup hrange p _ _ hperm (List.getElem?_eq_getElem hp')
  rw [h, hcell'] at hcell
  exact (Option.some.inj hcell).symm

/-! ## The join of cells (43_interleaver.md R141) -/

/-- The earliest cell is the most significant. -/
theorem joinCells_eq_sum (w : Nat) (l : List Nat) :
    joinCells w l = ((List.range l.length).map fun j => l.getD j 0 * 2 ^ (w * (l.length - 1 - j))).sum := by
  induction l with
  | nil => rfl
  | cons v l ih =>
    rw [joinCells_cons, ih]
    simp [List.range_succ_eq_map, Function.comp_def, Nat.sub_sub, Nat.add_comm 1]

/-- The join is the packer's concatenation of fields of one width. -/
theorem joinCells_eq_concatFields (w : Nat) (l : List Nat) : joinCells w l = concatFields 0 (l.map (Prod.mk w)) := by
  induction l with
  | nil => rfl
  | cons v l ih =>
    have hsum : ((l.map (Prod.mk w)).map Prod.fst).sum = w * l.length := by
      simp [List.map_map, Function.comp_def, Nat.mul_comm]
    rw [joinCells_cons, List.map_cons, concatFields_cons, hsum, ih]

theorem joinCells_injective {w : Nat} {l l' : List Nat} (hlen : l.length = l'.length) (hl : ∀ v ∈ l, v < 2 ^ w)
    (hl' : ∀ v ∈ l', v < 2 ^ w) (h : joinCells w l = joinCells w l') : l = l' := by
  rw [joinCells_eq_concatFields, joinCells_eq_concatFields] at h
  refine List.map_injective_iff.2 (Prod.mk_right_injective w) (concatFields_injective ?_ ?_ ?_ h)
  · simp [List.map_map, Function.comp_def, hlen]
  · simpa using hl
  · simpa using hl'

/-! ## The formatter (43_interleaver.md R141) -/

/-- The stream that is grouped: PRE0 zero cells, the permuted cells, POST0 zero cells. -/
def padCells (c : IlvCfg) (b : List Nat) : List Nat := List.replicate c.pre0 0 ++ b ++ List.replicate c.post0 0

/-- The GRP cells of the stream that make symbol q. -/
def cellGroup (c : IlvCfg) (b : List Nat) (q : Nat) : List Nat := ((padCells c b).drop (q * c.grp)).take c.grp

theorem formatCells_eq (c : IlvCfg) (b : List Nat) :
    formatCells c b = (List.range c.prmN).map fun q => joinCells c.cellW (cellGroup c b q) := rfl

section Format

variable {c : IlvCfg} {b b' : List Nat}

theorem padCells_length (c : IlvCfg) (b : List Nat) : (padCells c b).length = c.pre0 + b.length + c.post0 := by
  simp [padCells, Nat.add_assoc]

theorem padCells_getD (c : IlvCfg) (b : List Nat) (i : Nat) :
    (padCells c b).getD i 0 = if i < c.pre0 then 0 else b.getD (i - c.pre0) 0 := by
  have hpre : (List.replicate c.pre0 0).length = c.pre0 := List.length_replicate
  rw [padCells, List.append_assoc]
  split_ifs with hi
  · rw [List.getD_append _ _ _ _ (hpre.symm ▸ hi), List.getD_replicate _ hi]
  · rw [List.getD_append_right _ _ _ _ (by omega), hpre]
    obtain hb | hb := Nat.lt_or_ge (i - c.pre0) b.length
    · exact List.getD_append _ _ _ _ hb
    · rw [List.getD_append_right _ _ _ _ hb, List.getD_eq_getElem?_getD, List.getElem?_getD_replicate_default_eq,
        List.getD_eq_default _ _ hb]

theorem padCells_lt (hb : ∀ v ∈ b, v < 2 ^ c.cellW) : ∀ v ∈ padCells c b, v < 2 ^ c.cellW := by
  intro v hv
  obtain (hv | hv) | hv := (List.mem_append.1 hv).imp_left List.mem_append.1
  · exact List.eq_of_mem_replicate hv ▸ Nat.two_pow_pos _
  · exact hb v hv
  · exact List.eq_of_mem_replicate hv ▸ Nat.two_pow_pos _

theorem cellGroup_lt (hb : ∀ v ∈ b, v < 2 ^ c.cellW) (q : Nat) : ∀ v ∈ cellGroup c b q, v < 2 ^ c.cellW :=
  fun v hv => padCells_lt hb v (List.mem_of_mem_drop (List.mem_of_mem_take hv))

theorem cellGroup_getElem? (c : IlvCfg) (b : List Nat) (q : Nat) {j : Nat} (hj : j < c.grp) :
    (cellGroup c b q)[j]? = (padCells c b)[q * c.grp + j]? := by
  rw [cellGroup, List.getElem?_take_of_lt hj, List.getElem?_drop]

/-- The groups use up the stream. -/
theorem IlvOK.prmN_mul_grp (h : IlvOK c) : c.prmN * c.grp = c.pre0 + c.fecN + c.post0 := Nat.div_mul_cancel h.divides

theorem IlvOK.cellGroup_length (h : IlvOK c) (hlen : b.length = c.fecN) {q : Nat} (hq : q < c.prmN) :
    (cellGroup c b q).length = c.grp := by
  have htotal : (padCells c b).length = c.prmN * c.grp := by rw [padCells_length, hlen, h.prmN_mul_grp]
  have hroom : (q + 1) * c.grp ≤ c.prmN * c.grp := Nat.mul_le_mul_right _ hq
  rw [Nat.succ_mul] at hroom
  rw [cellGroup, List.length_take, List.length_drop, htotal]
  omega

/-- The join of a group is the symbol of R139. -/
theorem IlvOK.joinCells_cellGroup (h : IlvOK c) (hlen : b.length = c.fecN) {q : Nat} (hq : q < c.prmN) :
    joinCells c.cellW (cellGroup c b q) = joinedSymbol c b q := by
  rw [joinCells_eq_sum, h.cellGroup_length hlen hq, joinedSymbol]
  refine congrArg List.sum (List.map_congr_left fun j hj => ?_)
  rw [List.getD_eq_getElem?_getD, cellGroup_getElem? c b q (List.mem_range.1 hj), ← List.getD_eq_getElem?_getD,
    padCells_getD]

theorem joinCells_cellGroup_lt (hb : ∀ v ∈ b, v < 2 ^ c.cellW) (q : Nat) :
    joinCells c.cellW (cellGroup c b q) < 2 ^ c.symW := by
  have hlen : (cellGroup c b q).length ≤ c.grp := List.length_take_le _ _
  refine (joinCells_lt c.cellW _ (cellGroup_lt hb q)).trans_le (Nat.pow_le_pow_right (by decide) ?_)
  rw [IlvCfg.symW, Nat.mul_comm c.grp]
  exact Nat.mul_le_mul_left _ hlen

theorem formatCells_lt (hb : ∀ v ∈ b, v < 2 ^ c.cellW) : ∀ v ∈ formatCells c b, v < 2 ^ c.symW := by
  rw [formatCells_eq, List.forall_mem_map]
  exact fun q _ => joinCells_cellGroup_lt hb q

theorem padCells_injective (hlen : b.length = b'.length) (h : padCells c b = padCells c b') : b = b' := by
  rw [padCells, padCells, List.append_assoc, List.append_assoc] at h
  exact (List.append_inj (List.append_cancel_left h) hlen).1

/-- The formatter drops no cell: cell i of the stream is cell `i mod GRP` of group `i div GRP`. -/
theorem IlvOK.formatCells_injective (h : IlvOK c) (hlen : b.length = c.fecN) (hlen' : b'.length = c.fecN)
    (hb : ∀ v ∈ b, v < 2 ^ c.cellW) (hb' : ∀ v ∈ b', v < 2 ^ c.cellW) (heq : formatCells c b = formatCells c b') :
    b = b' := by
  have hgroup : ∀ q, q < c.prmN → cellGroup c b q = cellGroup c b' q := fun q hq => by
    have hsymbol := List.map_inj_left.1 heq q (List.mem_range.2 hq)
    refine joinCells_injective ?_ (cellGroup_lt hb q) (cellGroup_lt hb' q) hsymbol
    rw [h.cellGroup_length hlen hq, h.cellGroup_length hlen' hq]
  refine padCells_injective (c := c) (hlen.trans hlen'.symm) (List.ext_getElem? fun i => ?_)
  by_cases hi : i < c.prmN * c.grp
  · have hmod : i % c.grp < c.grp := Nat.mod_lt i h.group
    have hdiv : i / c.grp < c.prmN := Nat.div_lt_of_lt_mul (by rwa [Nat.mul_comm])
    rw [← Nat.div_add_mod' i c.grp, ← cellGroup_getElem? c b _ hmod, ← cellGroup_getElem? c b' _ hmod, hgroup _ hdiv]
  · rw [h.prmN_mul_grp] at hi
    rw [List.getElem?_eq_none (by rw [padCells_length]; omega), List.getElem?_eq_none (by rw [padCells_length]; omega)]

end Format

/-! ## ILVSTAGE (43_interleaver.md R139) -/

/-- The permuted cells of ILVSTAGE, before the formatter: the sequence b of R139. -/
def permutedCells (c : IlvCfg) (a : List Nat) : List Nat := scatter c.fecN c.perm (a.map (grayAt .before c.gray))

theorem ilvStage_eq (c : IlvCfg) (a : List Nat) :
    ilvStage c a = (formatCells c (permutedCells c a)).map (grayAt .after c.gray) := by
  rw [ilvStage, grayAfter_eq, grayBefore_eq, permutedCells]

theorem permutedCells_length (c : IlvCfg) (a : List Nat) : (permutedCells c a).length = c.fecN := scatter_length _ _ _

section Stage

variable {c : IlvCfg} {a a' : List Nat}

theorem IlvOK.permutedCells_getElem? (h : IlvOK c) {p q v : Nat} (hq : c.perm[p]? = some q) (hv : a[p]? = some v) :
    (permutedCells c a)[q]? = some (grayAt .before c.gray v) :=
  scatter_getElem? _ _ _ h.nodup h.range p q _ hq (by rw [List.getElem?_map, hv, Option.map_some])

theorem permutedCells_lt (ha : ∀ v ∈ a, v < 2 ^ c.cellW) : ∀ v ∈ permutedCells c a, v < 2 ^ c.cellW := by
  intro v hv
  obtain rfl | hcell := eq_zero_or_mem_of_mem_scatter hv
  · exact Nat.two_pow_pos _
  · obtain ⟨u, hu, rfl⟩ := List.mem_map.1 hcell
    exact grayAt_lt_two_pow _ _ (ha u hu)

theorem IlvOK.ilvStage_getElem? (h : IlvOK c) (a : List Nat) {q : Nat} (hq : q < c.prmN) :
    (ilvStage c a)[q]? = some (grayAt .after c.gray (joinedSymbol c (permutedCells c a) q)) := by
  rw [ilvStage_eq, formatCells_eq, List.getElem?_map, List.getElem?_map, List.getElem?_range hq, Option.map_some,
    Option.map_some, h.joinCells_cellGroup (permutedCells_length c a) hq]

theorem ilvStage_lt (ha : ∀ v ∈ a, v < 2 ^ c.cellW) : ∀ v ∈ ilvStage c a, v < 2 ^ c.symW := by
  rw [ilvStage_eq, List.forall_mem_map]
  exact fun v hv => grayAt_lt_two_pow _ _ (formatCells_lt (permutedCells_lt ha) v hv)

/-- R147: each of the four steps of ILVSTAGE is injective. -/
theorem IlvOK.ilvStage_injective (h : IlvOK c) (hlen : a.length = c.fecN) (hlen' : a'.length = c.fecN)
    (ha : ∀ v ∈ a, v < 2 ^ c.cellW) (ha' : ∀ v ∈ a', v < 2 ^ c.cellW) (heq : ilvStage c a = ilvStage c a') :
    a = a' := by
  rw [ilvStage_eq, ilvStage_eq] at heq
  have hformat : formatCells c (permutedCells c a) = formatCells c (permutedCells c a') :=
    List.map_injective_iff.2 (grayAt_injective _ _) heq
  have hperm : permutedCells c a = permutedCells c a' :=
    h.formatCells_injective (permutedCells_length c a) (permutedCells_length c a') (permutedCells_lt ha)
      (permutedCells_lt ha') hformat
  refine List.map_injective_iff.2 (grayAt_injective .before c.gray) (scatter_injective h.nodup h.range ?_ ?_ hperm)
  · rw [List.length_map, hlen, h.length]
  · rw [List.length_map, hlen', h.length]

end Stage

/-! ## What an ILV computation gives (43_interleaver.md R143) -/

theorem ilvCells_of_length_ne {c : IlvCfg} {fec : List Nat} (h : fec.length ≠ c.fecN) :
    ilvCells c fec = .error ⟨.configurationError, fec.length⟩ := if_pos h

theorem ilvCells_of_length {c : IlvCfg} {fec : List Nat} (h : fec.length = c.fecN) :
    ilvCells c fec = (scan (cellBelow c.cellW) 0 fec).map (ilvStage c) := by
  rw [ilvCells, if_neg (not_not_intro h)]
  cases scan (cellBelow c.cellW) 0 fec <;> rfl

theorem ilvCells_eq_ok_iff {c : IlvCfg} {fec e : List Nat} :
    ilvCells c fec = .ok e ↔ fec.length = c.fecN ∧ (∀ v ∈ fec, v < 2 ^ c.cellW) ∧ ilvStage c fec = e := by
  constructor
  · intro h
    by_cases hlen : fec.length = c.fecN
    · rw [ilvCells_of_length hlen] at h
      cases hscan : scan (cellBelow c.cellW) 0 fec with
      | error r => simp [hscan, Except.map] at h
      | ok a =>
        obtain ⟨rfl, hfit⟩ := (scan_cellBelow _ _ _ _).1 hscan
        rw [hscan] at h
        exact ⟨hlen, hfit, Except.ok.inj h⟩
    · simp [ilvCells_of_length_ne hlen] at h
  · rintro ⟨hlen, hfit, rfl⟩
    exact ilvCells_eq_ok c fec hlen hfit

/-! ## The ILV commands as stages -/

theorem mem_ilvStages {cfg : Cfg} {i : Instr} {c : IlvCfg} : (i, c) ∈ ilvStages cfg ↔
    (i = .ilvJt65 ∧ c = cfg.ilvJt65) ∨ (i = .ilvJt9 ∧ c = cfg.ilvJt9) ∨ (i = .ilvJt4 ∧ c = cfg.ilvJt4) ∨
    (i = .ilvWspr ∧ c = cfg.ilvWspr) := by
  simp [ilvStages]

theorem exists_mem_ilvStages (cfg : Cfg) {i : Instr} (hi : i ∈ [Instr.ilvJt65, .ilvJt9, .ilvJt4, .ilvWspr]) :
    ∃ c, (i, c) ∈ ilvStages cfg := by
  have hinstrs : (ilvStages cfg).map Prod.fst = [Instr.ilvJt65, .ilvJt9, .ilvJt4, .ilvWspr] := rfl
  obtain ⟨⟨_, c⟩, hmem, rfl⟩ := List.mem_map.1 (hinstrs ▸ hi)
  exact ⟨c, hmem⟩

theorem CfgOK.ilvStageOK {cfg : Cfg} (h : CfgOK cfg) {i : Instr} {c : IlvCfg} (hi : (i, c) ∈ ilvStages cfg) :
    IlvOK c ∧ ∃ m, MrgOK c m := by
  obtain ⟨-, rfl⟩ | ⟨-, rfl⟩ | ⟨-, rfl⟩ | ⟨-, rfl⟩ := mem_ilvStages.1 hi
  · exact ⟨h.ilvJt65, _, h.mrgJt65⟩
  · exact ⟨h.ilvJt9, _, h.mrgJt9⟩
  · exact ⟨h.ilvJt4, _, h.mrgJt4⟩
  · exact ⟨h.ilvWspr, _, h.mrgWspr⟩

/-- Each discipline takes at most OUT_N permuted symbols, so they fit PRM (00_scope.md R9 items 7 to 9). -/
theorem MrgOK.prmN_le {c : IlvCfg} {m : MrgCfg} (h : MrgOK c m) : c.prmN ≤ 255 := by
  refine le_trans ?_ h.cap
  cases hmerge : m.merge with
  | slot =>
    have hslot := h.slot hmerge
    rw [← hslot.slots, ← hslot.marks]
    exact List.count_le_length
  | add => exact (h.add hmerge).count.le

section Command

variable {s : State} {i : Instr} {c : IlvCfg}

theorem exec_ilvStage (hi : (i, c) ∈ ilvStages s.cfg) (h0 : s.status = 0#1) :
    exec i s = .next (finish .prm (ilvCells c (values .fec s)) s) := by
  obtain ⟨rfl, rfl⟩ | ⟨rfl, rfl⟩ | ⟨rfl, rfl⟩ | ⟨rfl, rfl⟩ := mem_ilvStages.1 hi
  all_goals exact gated_clear _ s h0

theorem values_fec_length (s : State) : (values .fec s).length = s.fecLen.toNat := values_length .fec s

/-- The symbols of an ILV command fit PRM in number and in value. -/
theorem CfgOK.ilvStage_fits {cfg : Cfg} (h : CfgOK cfg) (hi : (i, c) ∈ ilvStages cfg) {a : List Nat}
    (ha : ∀ v ∈ a, v < 2 ^ c.cellW) : (ilvStage c a).length ≤ 255 ∧ ∀ v ∈ ilvStage c a, v < 256 := by
  obtain ⟨hok, m, hmrg⟩ := h.ilvStageOK hi
  refine ⟨(ilvStage_length c a).trans_le hmrg.prmN_le, fun v hv => (ilvStage_lt ha v hv).trans_le ?_⟩
  exact Nat.pow_le_pow_right (by decide) hok.symbol

/-- A command that ends in `finish` and leaves ERR 0 has a result. -/
theorem exists_eq_ok_of_finish_status {b : Buf} {r : Except Raise (List Nat)} (h : (finish b r s).status = 0#1) :
    ∃ vs, r = .ok vs := by
  obtain ⟨e, -, hfin⟩ | ⟨vs, hvs, -⟩ := finish_cases b r s
  · simp [hfin] at h
  · exact ⟨vs, hvs⟩

/-- An ILV command that leaves ERR 0 has interleaved its cells, and PRM holds the symbols. -/
theorem ilvCells_of_exec {t : State} (hcfg : CfgOK s.cfg) (hi : (i, c) ∈ ilvStages s.cfg) (h0 : s.status = 0#1)
    (hexec : exec i s = .next t) (ht : t.status = 0#1) : ilvCells c (values .fec s) = .ok (values .prm t) := by
  rw [exec_ilvStage hi h0, Host.Outcome.next.injEq] at hexec
  subst hexec
  obtain ⟨e, he⟩ := exists_eq_ok_of_finish_status ht
  obtain ⟨-, hfec, rfl⟩ := ilvCells_eq_ok_iff.1 he
  obtain ⟨hlen, hvals⟩ := hcfg.ilvStage_fits hi hfec
  rw [he, (finish_completed .prm _ s _ rfl hlen hvals).1.vals]

end Command

/-! ## ILV.WSPR (43_interleaver.md R133, R140) -/

/-- CfgOK leaves WSPR no padding and no grouping. -/
theorem CfgOK.wsprFormat {cfg : Cfg} (h : CfgOK cfg) : cfg.ilvWspr.fecN = 162 ∧ cfg.ilvWspr.pre0 = 0 ∧
    cfg.ilvWspr.post0 = 0 ∧ cfg.ilvWspr.grp = 1 := by
  have hadd := h.mrgWspr.add h.fixed.mergeWspr
  have hgrp : cfg.ilvWspr.grp = 1 := by
    have hsym := hadd.symbol
    rwa [IlvCfg.symW, h.fixed.fecWspr, Nat.mul_one] at hsym
  have hfec : cfg.ilvWspr.fecN = 162 := by rw [← h.ilvWspr.length, h.fixed.permWspr, brsel_length (by decide)]
  have hprm := hadd.count
  rw [IlvCfg.prmN, hgrp, Nat.div_one, hfec, h.fixed.outWspr] at hprm
  exact ⟨hfec, by omega, by omega, hgrp⟩

/-- Without padding and grouping a symbol is its cell. -/
theorem joinedSymbol_of_single {c : IlvCfg} (hpre : c.pre0 = 0) (hgrp : c.grp = 1) (b : List Nat) (q : Nat) :
    joinedSymbol c b q = b.getD q 0 := by
  simp [joinedSymbol, hpre, hgrp]

/-! ## The obligations -/

/-- Settles O37: the first clause is one of CfgOK, the values are those of the table. -/
theorem wsprPermutationValues : Obligations.WsprPermutationValues := fun _ hcfg =>
  ⟨hcfg.fixed.permWspr, by decide, by decide⟩

/-- Settles O36, by the involution of the bit reversal. -/
theorem brselIsABijection : Obligations.BrselIsABijection := fun n _ hn =>
  ⟨brsel_length hn, brsel_nodup n, fun _ => mem_brsel hn⟩

/-- Settles O32: the sequence b of R139 is `permutedCells`, whose groups the symbols of PRM join. -/
theorem ilvCompletes : Obligations.IlvCompletes := by
  intro s i c hcfg h0 hi hlen hfec
  obtain ⟨hok, -⟩ := hcfg.ilvStageOK hi
  obtain ⟨hcap, hvals⟩ := hcfg.ilvStage_fits hi hfec
  have hdone := ilvCells_eq_ok c _ ((values_fec_length s).trans hlen) hfec
  obtain ⟨t, hexec, hcompleted, hsr⟩ := completes_of_exec_eq_finish (exec_ilvStage hi h0) hdone hcap hvals
  exact ⟨t, permutedCells c (values .fec s), _, hexec, hcompleted, hsr, permutedCells_length c _, ilvStage_length c _,
    fun _ _ _ hq hv => hok.permutedCells_getElem? hq hv, fun _ hq => hok.ilvStage_getElem? _ hq⟩

/-- Settles O33, from O32: WSPR has no padding and no grouping, and on bits both Gray codings are the identity. -/
theorem ilvWsprMovesBits : Obligations.IlvWsprMovesBits := by
  intro s hcfg h0 hlen hbits
  obtain ⟨hfec, hpre, hpost, hgrp⟩ := hcfg.wsprFormat
  have hprm : (s.cfg.ilvWspr.pre0 + s.cfg.ilvWspr.fecN + s.cfg.ilvWspr.post0) / s.cfg.ilvWspr.grp = 162 := by
    rw [hpre, hfec, hpost, hgrp]
  have hwidth : ∀ v ∈ values .fec s, v < 2 ^ s.cfg.ilvWspr.cellW := by
    rw [hcfg.fixed.fecWspr]
    exact fun v hv => Nat.lt_succ_of_le (hbits v hv)
  obtain ⟨t, b, e, hexec, hdone, hsr, -, helen, hscatter, hsymbol⟩ := ilvCompletes s .ilvWspr _ hcfg h0
    (mem_ilvStages.2 (.inr (.inr (.inr ⟨rfl, rfl⟩)))) (hlen.trans hfec.symm) hwidth
  refine ⟨t, e, hexec, hdone, hsr, helen.trans hprm, fun p q hq => ?_⟩
  obtain ⟨hp, hqp⟩ := List.getElem?_eq_some_iff.1 hq
  have hqlt : q < 162 := (mem_brsel (by decide)).1 (hqp ▸ List.getElem_mem hp)
  have hpfec : p < (values .fec s).length := by rwa [values_fec_length, hlen, ← brsel_length (n := 162) (by decide)]
  have hbit : (values .fec s)[p] ≤ 1 := hbits _ (List.getElem_mem hpfec)
  have hget := List.getElem?_eq_getElem hpfec
  have hcell := hscatter p q _ (hcfg.fixed.permWspr ▸ hq) hget
  rw [grayAt_of_le_one _ _ hbit] at hcell
  rw [hsymbol q (hprm.symm ▸ hqlt), joinedSymbol_of_single hpre hgrp, List.getD_eq_getElem?_getD, hcell,
    Option.getD_some, grayAt_of_le_one _ _ hbit, hget]

/-- Settles O34: the length is tested before the scan, whose error is that of its lowest wide cell. -/
theorem ilvRaises : Obligations.IlvRaises := by
  intro s i c h0 hi
  have hfec := values_fec_length s
  have hexec := exec_ilvStage hi h0
  refine ⟨fun hne => ?_, fun k v hlen hk hv hlow => ?_⟩
  · rw [← hfec] at hne ⊢
    exact raises_of_exec_eq_finish hexec (ilvCells_of_length_ne hne)
  · have hscan := scan_cellBelow_error c.cellW _ k v hk hv hlow
    exact raises_of_exec_eq_finish hexec (by rw [ilvCells_of_length (hfec.trans hlen), hscan]; rfl)

/-- Settles O35: both runs interleaved their cells into the same symbols, and ILVSTAGE is injective. -/
theorem ilvLosesNothing : Obligations.IlvLosesNothing := by
  intro s s' t t' i hcfg hcfg' h0 h0' hi hexec hexec' ht ht' hprm
  obtain ⟨c, hstage⟩ := exists_mem_ilvStages s.cfg hi
  obtain ⟨hok, -⟩ := hcfg.ilvStageOK hstage
  obtain ⟨hlen, hfit, hout⟩ := ilvCells_eq_ok_iff.1 (ilvCells_of_exec hcfg hstage h0 hexec ht)
  obtain ⟨hlen', hfit', hout'⟩ :=
    ilvCells_eq_ok_iff.1 (ilvCells_of_exec (hcfg' ▸ hcfg) (hcfg' ▸ hstage) h0' hexec' ht')
  exact hok.ilvStage_injective hlen hlen' hfit hfit' (hout.trans (hprm.trans hout'.symm))

end Sys2Proof.Machine
end

section
/-! PROOFS. The family 44_sync_merger.md: what the two disciplines make of their symbols (R151 to R154), what the four
fixed-length MRG commands complete with and raise (R162 to R165, 60_exceptions.md R186), and the append of MRG.FSQ
(R166).
The layer below says what stands at each position of a merge, and shows that a merge that CfgOK admits fills OUT_N cells
with values of 8 bits; the four commands are then one case, a stage of `mrgStages` with the discipline it applies. -/

namespace Sys2Proof.Machine

open Sys2Proof.Claims

/-! ## Slot insertion (44_sync_merger.md R151) -/

section Slot

variable {is : List Bool} {val x : List Nat}

/-- A data slot holds the symbol whose number is that of the data slots before it. -/
theorem slotMerge_data (ofs : Nat) (hval : val.length = is.length) (hx : x.length = is.count false) {k : Nat}
    (hk : is[k]? = some false) :
    (slotMerge ofs is val x)[k]? = (x[(is.take k).count false]?).map (· + ofs) := by
  fun_induction slotMerge ofs is val x generalizing k with
  | case1 => simp at hk
  | case2 => simp at hval
  | case3 is v val x ih =>
    cases k with
    | zero => simp at hk
    | succ k => simpa using ih (by simpa using hval) (by simpa using hx) (by simpa using hk)
  | case4 is v val x ih =>
    obtain ⟨a, x, rfl⟩ := List.exists_cons_of_length_eq_add_one (hx.trans List.count_cons_self)
    cases k with
    | zero => simp
    | succ k => simpa using ih (by simpa using hval) (by simpa using hx) (by simpa using hk)

/-- A position of a slot merge is a sync slot with its fixed value, or a data slot with a symbol plus the offset. -/
theorem mem_val_or_exists_of_mem_slotMerge {ofs y : Nat} (hval : val.length = is.length)
    (hx : x.length = is.count false) (hy : y ∈ slotMerge ofs is val x) : y ∈ val ∨ ∃ v ∈ x, v + ofs = y := by
  obtain ⟨k, hk⟩ := List.mem_iff_getElem?.1 hy
  have hlt : k < is.length := slotMerge_length ofs is val x hval ▸ (List.getElem?_eq_some_iff.1 hk).1
  cases hmark : is[k] with
  | true =>
    rw [slotMerge_sync ofs is val x hval k (List.getElem?_eq_some_iff.2 ⟨hlt, hmark⟩)] at hk
    exact .inl (List.mem_of_getElem? hk)
  | false =>
    rw [slotMerge_data ofs hval hx (List.getElem?_eq_some_iff.2 ⟨hlt, hmark⟩)] at hk
    obtain ⟨v, hv, rfl⟩ := Option.map_eq_some_iff.1 hk
    exact .inr ⟨v, List.mem_of_getElem? hv, rfl⟩

/-- The data slots in ascending order, less the offset, are the symbols (R152). -/
theorem filterMap_data_slotMerge (ofs : Nat) (hval : val.length = is.length) (hx : x.length = is.count false) :
    ((is.zip (slotMerge ofs is val x)).filterMap fun e => if e.1 then none else some (e.2 - ofs)) = x := by
  fun_induction slotMerge ofs is val x with
  | case1 => exact (List.eq_nil_of_length_eq_zero hx).symm
  | case2 => simp at hval
  | case3 is v val x ih => simpa using ih (by simpa using hval) (by simpa using hx)
  | case4 is v val x ih =>
    obtain ⟨a, x, rfl⟩ := List.exists_cons_of_length_eq_add_one (hx.trans List.count_cons_self)
    simpa using ih (by simpa using hval) (by simpa using hx)

end Slot

/-! ## Additive combination (44_sync_merger.md R153) -/

section Add

variable {sync x : List Nat}

theorem addMerge_getElem? {k sb v : Nat} (hsync : sync[k]? = some sb) (hx : x[k]? = some v) :
    (addMerge sync x)[k]? = some (2 * sb + v) :=
  List.getElem?_zipWith_eq_some.2 ⟨sb, v, hsync, hx, rfl⟩

theorem addMerge_map_div_two (hlen : sync.length = x.length) (hx : ∀ v ∈ x, v ≤ 1) :
    (addMerge sync x).map (· / 2) = sync := by
  refine List.ext_getElem (by simp [addMerge, hlen]) fun k _ hk => ?_
  have hbit : x[k] ≤ 1 := hx _ (List.getElem_mem (hlen ▸ hk))
  simp only [addMerge, List.getElem_map, List.getElem_zipWith]
  omega

theorem addMerge_map_mod_two (hlen : sync.length = x.length) (hx : ∀ v ∈ x, v ≤ 1) :
    (addMerge sync x).map (· % 2) = x := by
  refine List.ext_getElem (by simp [addMerge, hlen]) fun k _ hk => ?_
  have hbit : x[k] ≤ 1 := hx _ (List.getElem_mem hk)
  simp only [addMerge, List.getElem_map, List.getElem_zipWith]
  omega

theorem le_three_of_mem_addMerge (hsync : ∀ v ∈ sync, v ≤ 1) (hx : ∀ v ∈ x, v ≤ 1) {y : Nat}
    (hy : y ∈ addMerge sync x) : y ≤ 3 := by
  obtain ⟨k, hk⟩ := List.mem_iff_getElem?.1 hy
  obtain ⟨sb, v, hsb, hv, rfl⟩ := List.getElem?_zipWith_eq_some.1 hk
  have hsbit := hsync sb (List.mem_of_getElem? hsb)
  have hbit := hx v (List.mem_of_getElem? hv)
  omega

end Add

/-! ## The merge under a discipline (44_sync_merger.md R155) -/

/-- What the merger makes of the symbols under a discipline. -/
def mergeUnder (m : MrgCfg) : Merge → List Nat → List Nat
  | .slot => slotMerge m.dataOfs m.syncIs m.syncVal
  | .add => addMerge m.syncVal

section Merge

variable {c : IlvCfg} {m : MrgCfg} {g : Merge} {prm : List Nat}

theorem mrgSlot_eq (c : IlvCfg) (m : MrgCfg) (prm : List Nat) :
    mrgSlot c m prm = (mrgCheck c.prmN c.symW prm).map (mergeUnder m .slot) := by
  unfold mrgSlot
  cases mrgCheck c.prmN c.symW prm <;> rfl

theorem mrgAdd_eq (c : IlvCfg) (m : MrgCfg) (prm : List Nat) :
    mrgAdd c m prm = (mrgCheck c.prmN c.symW prm).map (mergeUnder m .add) := by
  unfold mrgAdd
  cases mrgCheck c.prmN c.symW prm <;> rfl

theorem mrgChosen_eq (c : IlvCfg) (m : MrgCfg) (prm : List Nat) :
    mrgChosen c m prm = (mrgCheck c.prmN c.symW prm).map (mergeUnder m m.merge) := by
  unfold mrgChosen
  cases m.merge with
  | slot => exact mrgSlot_eq c m prm
  | add => exact mrgAdd_eq c m prm

theorem mrgCheck_of_length_ne {n : Nat} (w : Nat) (h : prm.length ≠ n) :
    mrgCheck n w prm = .error ⟨.configurationError, prm.length⟩ := if_pos h

theorem mrgCheck_of_length {n : Nat} (w : Nat) (h : prm.length = n) :
    mrgCheck n w prm = scan (cellBelow w) 0 prm := if_neg (not_not_intro h)

theorem mrgCheck_eq_ok_iff {n w : Nat} {x : List Nat} :
    mrgCheck n w prm = .ok x ↔ prm.length = n ∧ x = prm ∧ ∀ v ∈ prm, v < 2 ^ w := by
  by_cases h : prm.length = n
  · rw [mrgCheck_of_length w h, scan_cellBelow, and_iff_right h]
  · simp [mrgCheck_of_length_ne w h, h]

/-- A merger that CfgOK admits fills OUT_N cells (00_scope.md R9 items 7 and 8). -/
theorem MrgOK.mergeUnder_length (h : MrgOK c m) (hg : m.merge = g) (hlen : prm.length = c.prmN) :
    (mergeUnder m g prm).length = m.outN := by
  cases g with
  | slot =>
    have hslot := h.slot hg
    exact (slotMerge_length _ _ _ prm (hslot.vals.trans hslot.marks.symm)).trans hslot.marks
  | add =>
    have hadd := h.add hg
    exact (addMerge_length _ prm (hlen.trans (hadd.count.trans hadd.vals.symm))).trans hadd.vals

/-- A merger that CfgOK admits gives values of 8 bits (00_scope.md R9 items 7 and 8). -/
theorem MrgOK.mergeUnder_lt (h : MrgOK c m) (hg : m.merge = g) (hlen : prm.length = c.prmN)
    (hprm : ∀ v ∈ prm, v < 2 ^ c.symW) : ∀ y ∈ mergeUnder m g prm, y < 256 := by
  intro y hy
  cases g with
  | slot =>
    have hslot := h.slot hg
    obtain hsync | ⟨v, hv, rfl⟩ := mem_val_or_exists_of_mem_slotMerge (hslot.vals.trans hslot.marks.symm)
      (hlen.trans hslot.slots.symm) hy
    · exact Nat.lt_succ_of_le (hslot.small y hsync)
    · have hv := hprm v hv
      have hdata := hslot.data
      omega
  | add =>
    have hadd := h.add hg
    rw [hadd.symbol] at hprm
    have hy3 := le_three_of_mem_addMerge hadd.bits (fun v hv => Nat.le_of_lt_succ (hprm v hv)) hy
    omega

end Merge

/-! ## The fixed-length MRG commands as stages -/

/-- The four fixed-length MRG commands with the discipline each applies, its interleaver and its merger
(R162 to R165). -/
def mrgStages (cfg : Cfg) : List (Instr × Merge × IlvCfg × MrgCfg) :=
  [(.mrgJt65, .slot, cfg.ilvJt65, cfg.mrgJt65), (.mrgJt9, .slot, cfg.ilvJt9, cfg.mrgJt9),
    (.mrgJt4, cfg.mrgJt4.merge, cfg.ilvJt4, cfg.mrgJt4), (.mrgWspr, .add, cfg.ilvWspr, cfg.mrgWspr)]

section Command

variable {s : State} {i : Instr} {g : Merge} {c : IlvCfg} {m : MrgCfg}

theorem mem_mrgStages {cfg : Cfg} : (i, g, c, m) ∈ mrgStages cfg ↔
    (i = .mrgJt65 ∧ g = .slot ∧ c = cfg.ilvJt65 ∧ m = cfg.mrgJt65) ∨
    (i = .mrgJt9 ∧ g = .slot ∧ c = cfg.ilvJt9 ∧ m = cfg.mrgJt9) ∨
    (i = .mrgJt4 ∧ g = cfg.mrgJt4.merge ∧ c = cfg.ilvJt4 ∧ m = cfg.mrgJt4) ∨
    (i = .mrgWspr ∧ g = .add ∧ c = cfg.ilvWspr ∧ m = cfg.mrgWspr) := by
  simp [mrgStages]

theorem mem_slotStages {cfg : Cfg} : (i, c, m) ∈ slotStages cfg ↔
    (i = .mrgJt65 ∧ c = cfg.ilvJt65 ∧ m = cfg.mrgJt65) ∨ (i = .mrgJt9 ∧ c = cfg.ilvJt9 ∧ m = cfg.mrgJt9) ∨
    (i = .mrgJt4 ∧ cfg.mrgJt4.merge = .slot ∧ c = cfg.ilvJt4 ∧ m = cfg.mrgJt4) := by
  unfold slotStages
  split_ifs with hjt4 <;> simp [hjt4]

theorem mem_addStages {cfg : Cfg} : (i, c, m) ∈ addStages cfg ↔
    (i = .mrgWspr ∧ c = cfg.ilvWspr ∧ m = cfg.mrgWspr) ∨
    (i = .mrgJt4 ∧ cfg.mrgJt4.merge = .add ∧ c = cfg.ilvJt4 ∧ m = cfg.mrgJt4) := by
  unfold addStages
  split_ifs with hjt4 <;> simp [hjt4]

theorem exists_mem_mrgStages {cfg : Cfg} (h : (i, c) ∈ [(Instr.mrgJt65, cfg.ilvJt65), (.mrgJt9, cfg.ilvJt9),
    (.mrgJt4, cfg.ilvJt4), (.mrgWspr, cfg.ilvWspr)]) : ∃ g m, (i, g, c, m) ∈ mrgStages cfg := by
  have hpairs : (mrgStages cfg).map (fun e => (e.1, e.2.2.1)) = [(Instr.mrgJt65, cfg.ilvJt65), (.mrgJt9, cfg.ilvJt9),
    (.mrgJt4, cfg.ilvJt4), (.mrgWspr, cfg.ilvWspr)] := rfl
  obtain ⟨⟨_, g, _, m⟩, hmem, ⟨⟩⟩ := List.mem_map.1 (hpairs ▸ h)
  exact ⟨g, m, hmem⟩

theorem mem_mrgStages_of_mem_slotStages {cfg : Cfg} (h : (i, c, m) ∈ slotStages cfg) :
    (i, .slot, c, m) ∈ mrgStages cfg := by
  rw [mem_mrgStages]
  obtain h | h | ⟨rfl, hjt4, h⟩ := mem_slotStages.1 h
  · exact .inl ⟨h.1, rfl, h.2⟩
  · exact .inr (.inl ⟨h.1, rfl, h.2⟩)
  · exact .inr (.inr (.inl ⟨rfl, hjt4.symm, h⟩))

theorem mem_mrgStages_of_mem_addStages {cfg : Cfg} (h : (i, c, m) ∈ addStages cfg) :
    (i, .add, c, m) ∈ mrgStages cfg := by
  rw [mem_mrgStages]
  obtain h | ⟨rfl, hjt4, h⟩ := mem_addStages.1 h
  · exact .inr (.inr (.inr ⟨h.1, rfl, h.2⟩))
  · exact .inr (.inr (.inl ⟨rfl, hjt4.symm, h⟩))

theorem CfgOK.mrgStageOK {cfg : Cfg} (h : CfgOK cfg) (hi : (i, g, c, m) ∈ mrgStages cfg) :
    m.merge = g ∧ MrgOK c m := by
  obtain ⟨-, rfl, rfl, rfl⟩ | ⟨-, rfl, rfl, rfl⟩ | ⟨-, rfl, rfl, rfl⟩ | ⟨-, rfl, rfl, rfl⟩ := mem_mrgStages.1 hi
  · exact ⟨h.fixed.mergeJt65, h.mrgJt65⟩
  · exact ⟨h.fixed.mergeJt9, h.mrgJt9⟩
  · exact ⟨rfl, h.mrgJt4⟩
  · exact ⟨h.fixed.mergeWspr, h.mrgWspr⟩

theorem exec_mrgStage (hi : (i, g, c, m) ∈ mrgStages s.cfg) (h0 : s.status = 0#1) :
    exec i s = .next (finish .out ((mrgCheck c.prmN c.symW (values .prm s)).map (mergeUnder m g)) s) := by
  obtain ⟨rfl, rfl, rfl, rfl⟩ | ⟨rfl, rfl, rfl, rfl⟩ | ⟨rfl, rfl, rfl, rfl⟩ | ⟨rfl, rfl, rfl, rfl⟩ := mem_mrgStages.1 hi
  · rw [← mrgSlot_eq]; exact gated_clear _ s h0
  · rw [← mrgSlot_eq]; exact gated_clear _ s h0
  · rw [← mrgChosen_eq]; exact gated_clear _ s h0
  · rw [← mrgAdd_eq]; exact gated_clear _ s h0

theorem values_prm_length (s : State) : (values .prm s).length = s.prmLen.toNat := values_length .prm s

/-- A fixed-length MRG command with exactly PRM_N symbols of their width merges them into OUT. -/
theorem CfgOK.mrgStage_completes (hcfg : CfgOK s.cfg) (hi : (i, g, c, m) ∈ mrgStages s.cfg) (h0 : s.status = 0#1)
    (hlen : (values .prm s).length = c.prmN) (hprm : ∀ v ∈ values .prm s, v < 2 ^ c.symW) :
    ∃ t, exec i s = .next t ∧ Completed .out (mergeUnder m g (values .prm s)) s t ∧ t.sr = s.sr := by
  obtain ⟨hg, hok⟩ := hcfg.mrgStageOK hi
  refine completes_of_exec_eq_finish (exec_mrgStage hi h0) ?_ ((hok.mergeUnder_length hg hlen).trans_le hok.cap)
    (hok.mergeUnder_lt hg hlen hprm)
  rw [mrgCheck_eq_ok _ _ _ hlen hprm]; rfl

theorem mrgStage_raises {kind : ErrKind} {idx : Nat} (hi : (i, g, c, m) ∈ mrgStages s.cfg) (h0 : s.status = 0#1)
    (hcheck : mrgCheck c.prmN c.symW (values .prm s) = .error ⟨kind, idx⟩) :
    ∃ t, exec i s = .next t ∧ Raised (some .out) kind idx s t :=
  raises_of_exec_eq_finish (exec_mrgStage hi h0) (by rw [hcheck]; rfl)

/-- A fixed-length MRG command that leaves ERR 0 has passed both its checks. -/
theorem mrgCheck_of_exec {t : State} (hi : (i, g, c, m) ∈ mrgStages s.cfg) (h0 : s.status = 0#1)
    (hexec : exec i s = .next t) (ht : t.status = 0#1) :
    (values .prm s).length = c.prmN ∧ ∀ v ∈ values .prm s, v < 2 ^ c.symW := by
  rw [exec_mrgStage hi h0, Host.Outcome.next.injEq] at hexec
  subst hexec
  obtain ⟨e, he⟩ := exists_eq_ok_of_finish_status ht
  cases hcheck : mrgCheck c.prmN c.symW (values .prm s) with
  | error r => simp [hcheck, Except.map] at he
  | ok x =>
    obtain ⟨hlen, -, hprm⟩ := mrgCheck_eq_ok_iff.1 hcheck
    exact ⟨hlen, hprm⟩

/-- A fixed-length MRG command that leaves ERR 0 leaves OUT_N[m] in OUT_LEN. -/
theorem CfgOK.outLen_of_exec {t : State} (hcfg : CfgOK s.cfg) (hi : (i, g, c, m) ∈ mrgStages s.cfg)
    (h0 : s.status = 0#1) (hexec : exec i s = .next t) (ht : t.status = 0#1) : t.outLen.toNat = m.outN := by
  obtain ⟨hlen, hprm⟩ := mrgCheck_of_exec hi h0 hexec ht
  obtain ⟨hg, hok⟩ := hcfg.mrgStageOK hi
  obtain ⟨t', hexec', hdone, -⟩ := hcfg.mrgStage_completes hi h0 hlen hprm
  obtain rfl : t = t' := Host.Outcome.next.inj (hexec.symm.trans hexec')
  exact hdone.len.trans (hok.mergeUnder_length hg hlen)

end Command

/-! ## MRG.FSQ (44_sync_merger.md R166) -/

theorem exec_mrgFsq {s : State} (h0 : s.status = 0#1) :
    exec .mrgFsq s = .next (finishAppend (mrgFsq s.cfg.fsqUnitW (outLength s) (values .cod s)) s) :=
  gated_clear _ s h0

section Fsq

variable {w n : Nat} {cod : List Nat}

theorem mrgFsq_of_scan_error {e : Raise} (n : Nat) (h : scan (cellBelow w) 0 cod = .error e) :
    mrgFsq w n cod = .error e := by
  rw [mrgFsq, h]

theorem mrgFsq_eq_ok (h : ∀ v ∈ cod, v < 2 ^ w) (hfit : n + cod.length ≤ 255) : mrgFsq w n cod = .ok cod := by
  rw [mrgFsq, (scan_cellBelow w 0 cod cod).2 ⟨rfl, h⟩]
  exact if_neg (Nat.not_lt.2 hfit)

theorem mrgFsq_of_long (h : ∀ v ∈ cod, v < 2 ^ w) (hlong : 255 < n + cod.length) :
    mrgFsq w n cod = .error ⟨.messageTooLong, 255⟩ := by
  rw [mrgFsq, (scan_cellBelow w 0 cod cod).2 ⟨rfl, h⟩]
  exact if_pos hlong

end Fsq

theorem CfgOK.two_pow_fsqUnitW {cfg : Cfg} (h : CfgOK cfg) : 2 ^ cfg.fsqUnitW = 32 := by
  rw [h.fixed.unitW]; rfl

/-! ## The obligations -/

/-- Settles O43, from what stands at a sync slot and the recovery of the data slots. -/
theorem slotMergeIsStableAndReversible : Obligations.SlotMergeIsStableAndReversible := fun ofs is val x hval hx =>
  ⟨slotMerge_length ofs is val x hval, slotMerge_sync ofs is val x hval, filterMap_data_slotMerge ofs hval hx⟩

/-- Settles O44: `2 * sync + data` has quotient `sync` and remainder `data` by 2 when `data` is a bit. -/
theorem addMergeIsStableAndReversible : Obligations.AddMergeIsStableAndReversible := fun _ _ hlen hsync hx =>
  ⟨addMerge_map_div_two hlen hx, addMerge_map_mod_two hlen hx, fun _ => le_three_of_mem_addMerge hsync hx⟩

/-- Settles O39: OUT holds the slot merge, whose sync slots and data slots are read position by position. -/
theorem mrgSlotCompletes : Obligations.MrgSlotCompletes := by
  intro s i c m hcfg h0 hi hlen hprm
  have hstage := mem_mrgStages_of_mem_slotStages hi
  have hcount : (values .prm s).length = c.prmN := (values_prm_length s).trans hlen
  obtain ⟨hg, hok⟩ := hcfg.mrgStageOK hstage
  have hslot := hok.slot hg
  have hval := hslot.vals.trans hslot.marks.symm
  obtain ⟨t, hexec, hdone, hsr⟩ := hcfg.mrgStage_completes hstage h0 hcount hprm
  exact ⟨t, _, hexec, hdone, hsr, hok.mergeUnder_length hg hcount, slotMerge_sync _ _ _ _ hval,
    fun _ hk => slotMerge_data _ hval (hcount.trans hslot.slots.symm) hk⟩

/-- Settles O40: OUT holds the additive merge, and a sync bit and a data bit make a symbol of 0 to 3. -/
theorem mrgAddCompletes : Obligations.MrgAddCompletes := by
  intro s i c m hcfg h0 hi hlen hbits
  have hstage := mem_mrgStages_of_mem_addStages hi
  obtain ⟨hg, hok⟩ := hcfg.mrgStageOK hstage
  have hadd := hok.add hg
  have hcount : (values .prm s).length = c.prmN := (values_prm_length s).trans (hlen.trans hadd.count.symm)
  have hprm : ∀ v ∈ values .prm s, v < 2 ^ c.symW := by
    rw [hadd.symbol]
    exact fun v hv => Nat.lt_succ_of_le (hbits v hv)
  obtain ⟨t, hexec, hdone, hsr⟩ := hcfg.mrgStage_completes hstage h0 hcount hprm
  refine ⟨t, _, hexec, hdone, hsr, hok.mergeUnder_length hg hcount, fun k sb x hsync hdata => ?_⟩
  have hsb : sb ≤ 1 := hadd.bits sb (List.mem_of_getElem? hsync)
  have hx : x ≤ 1 := hbits x (List.mem_of_getElem? hdata)
  exact ⟨2 * sb + x, addMerge_getElem? hsync hdata, rfl, by omega, by omega, by omega⟩

/-- Settles O41: OUT_LEN is OUT_N[m], which CfgOK fixes for each mode. -/
theorem outputLengths : Obligations.OutputLengths := by
  intro s t i n hcfg h0 hi hexec ht
  have hlen {g c m} (hstage : (i, g, c, m) ∈ mrgStages s.cfg) := hcfg.outLen_of_exec hstage h0 hexec ht
  simp only [List.mem_cons, Prod.mk.injEq, List.not_mem_nil, or_false] at hi
  obtain ⟨rfl, rfl⟩ | ⟨rfl, rfl⟩ | ⟨rfl, rfl⟩ | ⟨rfl, rfl⟩ := hi
  · exact (hlen (mem_mrgStages.2 (.inl ⟨rfl, rfl, rfl, rfl⟩))).trans hcfg.fixed.outJt65
  · exact (hlen (mem_mrgStages.2 (.inr (.inl ⟨rfl, rfl, rfl, rfl⟩)))).trans hcfg.fixed.outJt9
  · exact (hlen (mem_mrgStages.2 (.inr (.inr (.inl ⟨rfl, rfl, rfl, rfl⟩))))).trans hcfg.fixed.outJt4
  · exact (hlen (mem_mrgStages.2 (.inr (.inr (.inr ⟨rfl, rfl, rfl, rfl⟩))))).trans hcfg.fixed.outWspr

/-- Settles O42: the length is tested before the scan, whose error is that of its lowest wide symbol; neither check
depends on the discipline. -/
theorem mrgRaises : Obligations.MrgRaises := by
  intro s i c h0 hi
  obtain ⟨g, m, hstage⟩ := exists_mem_mrgStages hi
  have hprm := values_prm_length s
  refine ⟨fun hne => ?_, fun k v hlen hk hv hlow => ?_⟩
  · rw [← hprm] at hne ⊢
    exact mrgStage_raises hstage h0 (mrgCheck_of_length_ne c.symW hne)
  · have hscan := scan_cellBelow_error c.symW _ k v hk hv hlow
    exact mrgStage_raises hstage h0 ((mrgCheck_of_length c.symW (hprm.trans hlen)).trans hscan)

/-- Settles O45: the cells are units, and they are appended as they are; no unit is appended from an empty COD. -/
theorem mrgFsqAppends : Obligations.MrgFsqAppends := by
  intro s hcfg h0 hunits hfit
  have hcod := values_cod_length s
  rw [← hcod] at hfit
  have hresult : mrgFsq s.cfg.fsqUnitW (outLength s) (values .cod s) = .ok (values .cod s) :=
    mrgFsq_eq_ok (by rwa [hcfg.two_pow_fsqUnitW]) hfit
  obtain ⟨hdone, hsr⟩ := finishAppend_completed _ s _ hresult hfit (values_lt .cod s)
  refine ⟨_, exec_mrgFsq h0, hdone, hsr, fun hzero => ?_⟩
  have hempty : values .cod s = [] := List.eq_nil_of_length_eq_zero (by simp [hcod, hzero])
  rw [hresult, hempty]; rfl

/-- Settles O46: the scan comes before the test of the room in OUT. -/
theorem mrgFsqRaises : Obligations.MrgFsqRaises := by
  intro s hcfg h0
  have hpow := hcfg.two_pow_fsqUnitW
  refine ⟨fun k v hk hv hlow => ?_, fun hunits hlong => ?_⟩
  · have hscan := scan_cellBelow_error s.cfg.fsqUnitW _ k v hk (by rwa [hpow]) (by rwa [hpow])
    exact ⟨_, exec_mrgFsq h0, finishAppend_raised _ s _ (mrgFsq_of_scan_error (outLength s) hscan)⟩
  · rw [← values_cod_length] at hlong
    have hresult : mrgFsq s.cfg.fsqUnitW (outLength s) (values .cod s) = .error ⟨.messageTooLong, 255⟩ :=
      mrgFsq_of_long (by rwa [hpow]) hlong
    exact ⟨_, exec_mrgFsq h0, finishAppend_raised _ s _ hresult⟩

end Sys2Proof.Machine
end

section
/-! PROOFS. The family 45_control.md: a write to CMD runs the byte's command (R170) or raises its reserved byte (R175),
NOP changes nothing (R173), and while ERR is 1 every byte but CLR's is gated, so that the first error is kept (R171,
60_exceptions.md R187). The layer below gives the step that serves a write to CMD one equation per answer of the
decoder, and the commands their equation while ERR is 1; the statements follow from these. -/

namespace Sys2Proof.Machine

open Sys2Proof.Claims

/-! ## The step that serves a write to CMD (45_control.md R170, R175) -/

theorem commandOf_writeCmd (b : Byte) : commandOf (.write 0x000#11 b) = some b := rfl

section Issued

variable {s : State} {b : Byte} {rest : List HostAccess}

theorem step_command {i : Instr} {rs : List Byte} (h : s.pending = .write 0x000#11 b :: rest)
    (hdec : decode [b] = .ok (i, rs)) : step s = exec i (served s rest) := by
  unfold step takeAccess
  rw [h]
  simp only [commandOf_writeCmd, hdec]
  rfl

theorem step_reserved {e : DecodeError} (h : s.pending = .write 0x000#11 b :: rest) (hdec : decode [b] = .error e) :
    step s = execReserved b (served s rest) := by
  unfold step takeAccess
  rw [h]
  simp only [commandOf_writeCmd, hdec]
  rfl

end Issued

/-! ## The gate (45_control.md R171) -/

theorem exec_nop (s : State) : exec .nop s = .next s := rfl

/-- NOP has no effect to gate; every other command but CLR is `gated`. -/
theorem exec_of_err {i : Instr} {s : State} (h1 : s.status = 1#1) (hclr : i ≠ .clr) : exec i s = .next s := by
  cases i
  case nop => exact exec_nop s
  case clr => exact absurd rfl hclr
  all_goals exact gated_set _ s h1

theorem execReserved_of_err (b : Byte) {s : State} (h1 : s.status = 1#1) : execReserved b s = .next s :=
  gated_set _ s h1

theorem execReserved_of_noErr (b : Byte) {s : State} (h0 : s.status = 0#1) :
    execReserved b s = .next (enterError none ⟨.configurationError, b.toNat⟩ s) :=
  gated_clear _ s h0

/-- Of the command bytes CLR's alone passes the gate, since no other byte decodes to CLR. -/
theorem step_of_err {s : State} {b : Byte} {rest : List HostAccess} (h : s.pending = .write 0x000#11 b :: rest)
    (h1 : s.status = 1#1) (hb : b ≠ 0x10#8) : step s = .next (served s rest) := by
  have hserved : (served s rest).status = 1#1 := h1
  cases hdec : decode [b] with
  | error e => rw [step_reserved h hdec, execReserved_of_err b hserved]
  | ok r =>
    obtain ⟨i, rs⟩ := r
    have hclr : i ≠ .clr := by rintro rfl; exact hb (eq_of_decode_clr hdec)
    rw [step_command h hdec, exec_of_err hserved hclr]

/-! ## The error registers are read-only to the host (20_memory.md R45) -/

/-- ERR, ERRCODE and ERRIDX have the same values in `s` and in `t`. -/
structure KeepsError (s t : State) : Prop where
  status : t.status = s.status
  errcode : t.errcode = s.errcode
  erridx : t.erridx = s.erridx

theorem KeepsError.refl (s : State) : KeepsError s s := ⟨rfl, rfl, rfl⟩

theorem keepsError_served (s : State) (rest : List HostAccess) : KeepsError s (served s rest) := ⟨rfl, rfl, rfl⟩

theorem keepsError_writeAddr (a : HostAddr) (v : Byte) (s : State) : KeepsError s (writeAddr a v s) := by
  obtain h | h | h | ⟨b, h⟩ | ⟨b, i, -, h⟩ := writeAddr_cases a v s <;> rw [h]
  · exact .refl s
  · exact ⟨rfl, rfl, rfl⟩
  · exact ⟨rfl, rfl, rfl⟩
  · exact ⟨setLen_status b v s, setLen_errcode b v s, setLen_erridx b v s⟩
  · exact ⟨rfl, rfl, rfl⟩

theorem keepsError_serve (acc : HostAccess) (s : State) : KeepsError s (serve acc s) := by
  cases acc with
  | read a => exact ⟨rfl, rfl, rfl⟩
  | write a v => exact keepsError_writeAddr a v s

/-- A step from ERR 1 takes no error away unless it serves CLR's byte: any other byte is gated, and no other access
writes the error registers. -/
theorem keepsError_step_of_err {s t : State} (h1 : s.status = 1#1) (hstep : step s = .next t)
    (hclr : ∀ rest, s.pending ≠ .write 0x000#11 0x10#8 :: rest) : KeepsError s t := by
  have hbyte : ∀ acc rest b, s.pending = acc :: rest → commandOf acc = some b → KeepsError s t := by
    intro acc rest b hpending hcmd
    obtain rfl := eq_write_of_commandOf hcmd
    have hb : b ≠ 0x10#8 := by rintro rfl; exact hclr rest hpending
    rw [step_of_err hpending h1 hb] at hstep
    cases hstep
    exact keepsError_served s rest
  obtain ⟨-, rfl⟩ | ⟨acc, rest, hpending, hserved⟩ := step_cases s t hstep
  · exact .refl t
  obtain ⟨-, rfl⟩ | ⟨b, -, -, hcmd, -⟩ | ⟨b, -, hcmd, -⟩ := hserved
  · obtain ⟨hstatus, herrcode, herridx⟩ := keepsError_serve acc (served s rest)
    exact ⟨hstatus, herrcode, herridx⟩
  · exact hbyte acc rest b hpending hcmd
  · exact hbyte acc rest b hpending hcmd

/-! ## The obligations -/

/-- Settles O6: a byte outside the map is refused by the decoder, so the step is the gated error entry without
destination. -/
theorem reservedByteRaises : Obligations.ReservedByteRaises := by
  intro s b rest h hb
  obtain ⟨e, hdec⟩ := otherBytesAreReserved.1 b hb
  rw [step_reserved h hdec]
  refine ⟨fun h0 => ?_, fun h1 => ?_⟩
  · have hraised := enterError_raised none ⟨.configurationError, b.toNat⟩ (served s rest)
    exact ⟨_, execReserved_of_noErr b h0, hraised⟩
  · exact execReserved_of_err b h1

/-- Settles O15, by the decoder's two answers: a command that is not CLR, or a reserved byte. -/
theorem errorGatesEveryByteButClr : Obligations.ErrorGatesEveryByteButClr := fun _ _ _ h h1 hb => step_of_err h h1 hb

/-- Settles O51, by whether the access served is CLR's byte. -/
theorem firstErrorIsKept : Obligations.FirstErrorIsKept := by
  intro s t h1 hstep
  by_cases hclr : ∃ rest, s.pending = .write 0x000#11 0x10#8 :: rest
  · exact .inr hclr
  · obtain ⟨hstatus, herrcode, herridx⟩ := keepsError_step_of_err h1 hstep (not_exists.1 hclr)
    exact .inl ⟨hstatus.trans h1, herrcode, herridx⟩

/-- Settles O5, by the equation of the step that serves a command's byte. -/
theorem stepRunsTheCommand : Obligations.StepRunsTheCommand := fun _ _ _ _ h hdec => step_command h hdec

/-- Settles O12, by NOP's equation, in which ERR does not occur. -/
theorem nopChangesNothing : Obligations.NopChangesNothing := exec_nop

end Sys2Proof.Machine
end

section
/-! PROOFS. The family 60_exceptions.md: a command that ends with a new error has done the error entry for its own
destination (R184, R185), and a CORE without a pending access does nothing (R193). The layer below says that the end of a
stage is the error entry or leaves ERR as it was, so that ERR tells the two apart. -/

namespace Sys2Proof.Machine

/-! ## The error entry is the one end of a stage that writes ERR (60_exceptions.md R184, R185) -/

/-- Every error entry empties OUT, whatever its destination is. -/
theorem out_mem_emptied (d : Option Buf) : Buf.out ∈ emptied d := by
  cases d with
  | none => exact List.mem_cons_self
  | some b => exact List.mem_cons_of_mem b List.mem_cons_self

theorem Raised.outLen {d : Option Buf} {kind : ErrKind} {idx : Nat} {s t : State} (h : Raised d kind idx s t) :
    t.outLen = 0#8 :=
  h.emptied .out (out_mem_emptied d)

theorem StageEnds.raised_or_status_eq {i : Instr} {s t : State} (h : StageEnds i s t) :
    (∃ e : Raise, Raised (destOf i) e.kind e.idx s t) ∨ t.status = s.status := by
  cases h with
  | error d e hd ht => exact .inl ⟨e, hd ▸ ht ▸ enterError_raised (some d) e s⟩
  | commit d vs _ _ ht => exact .inr (ht ▸ commit_status d vs s)
  | conv c pkd _ _ ht => subst ht; exact .inr (commit_status .fec (convEnc c pkd).1 s)
  | append vs _ _ ht => exact .inr (ht ▸ append_status .out vs s)

/-- Of the ways a command can end from ERR 0, NOP, CLR and a stored result leave ERR 0. -/
theorem exec_raised {i : Instr} {s t : State} (h0 : s.status = 0#1) (h : exec i s = .next t) (h1 : t.status = 1#1) :
    ∃ e : Raise, Raised (destOf i) e.kind e.idx s t := by
  have hnew : t.status ≠ 0#1 := by rw [h1]; decide
  obtain ⟨-, rfl⟩ | ⟨-, rfl⟩ | ⟨-, -, rfl⟩ | ⟨-, -, -, hends⟩ := exec_cases i s t h
  · exact absurd h0 hnew
  · exact absurd (clearCall_status s) hnew
  · exact absurd h0 hnew
  · obtain hraised | hstatus := hends.raised_or_status_eq
    · exact hraised
    · exact absurd (hstatus.trans h0) hnew

/-! ## The idle CORE (60_exceptions.md R193) -/

theorem takeAccess_of_idle {s : State} (h : s.pending = []) : takeAccess s = none := by
  rw [takeAccess, h]

theorem step_of_idle {s : State} (h : s.pending = []) : step s = .next s := by
  rw [step, takeAccess_of_idle h]

/-! ## The obligations -/

/-- Settles O47, by the inversion of `exec`: only the error entry of a stage takes ERR from 0 to 1. -/
theorem everyErrorIsTheErrorEntry : Obligations.EveryErrorIsTheErrorEntry := by
  intro i s t h0 h h1
  obtain ⟨e, hraised⟩ := exec_raised h0 h h1
  exact ⟨e.kind, e.idx, hraised, hraised.outLen⟩

/-- Settles O7: with an empty queue there is no access to take. -/
theorem idleStepChangesNothing : Obligations.IdleStepChangesNothing := fun _ h => step_of_idle h

end Sys2Proof.Machine
end

section
/-! PROOFS. The family 70_reset_and_hazards.md: no command and no host access stops the machine (R210; log 11). The layer
below says that each part of a step answers a next state: a gated effect, hence a command and a reserved byte, and the
service of a host access that is no command. -/

namespace Sys2Proof.Machine

open Sys2Proof.Claims

/-- A gated effect has an answer on both sides of the gate (45_control.md R171). -/
theorem gated_next (k : State → State) (s : State) : ∃ t, gated k s = .next t := by
  by_cases h : s.err
  · exact ⟨s, if_pos h⟩
  · exact ⟨k s, if_neg h⟩

/-- NOP and CLR run whatever ERR is; every other command is `gated`. -/
theorem exec_next (i : Instr) (s : State) : ∃ t, exec i s = .next t := by
  cases i
  case nop => exact ⟨s, exec_nop s⟩
  case clr => exact ⟨clearCall s, exec_clr s⟩
  all_goals exact gated_next _ s

theorem execReserved_next (b : Byte) (s : State) : ∃ t, execReserved b s = .next t := gated_next _ s

/-- A host access that writes no command byte is served, and that is the whole step (45_control.md R170). -/
theorem step_of_noCommand {s : State} {acc : HostAccess} {rest : List HostAccess} (h : s.pending = acc :: rest)
    (hcmd : commandOf acc = none) : step s = .next (serve acc (served s rest)) := by
  unfold step takeAccess
  rw [h]
  simp only [hcmd]
  rfl

/-- An idle CORE stands, an access that is no command is served, and a byte in CMD is a command or a reserved byte. -/
theorem step_next (s : State) : ∃ t, step s = .next t := by
  cases hpending : s.pending with
  | nil => exact ⟨s, step_of_idle hpending⟩
  | cons acc rest =>
    cases hcmd : commandOf acc with
    | none => exact ⟨_, step_of_noCommand hpending hcmd⟩
    | some b =>
      obtain rfl := eq_write_of_commandOf hcmd
      cases hdec : decode [b] with
      | ok r =>
        obtain ⟨i, rs⟩ := r
        rw [step_command hpending hdec]
        exact exec_next i (served s rest)
      | error e =>
        rw [step_reserved hpending hdec]
        exact execReserved_next b (served s rest)

/-- Settles O16: `exec` and `step` each answer a next state, in every state. -/
theorem theMachineNeverStops : Obligations.TheMachineNeverStops := ⟨exec_next, step_next⟩

end Sys2Proof.Machine
end
